-- ==== Sys2Proof/Word.lean ====
section
/-! DEFINITION. The word types of the block (00_scope.md R6, R8, R9). -/

namespace Sys2Proof

/-- One byte: a symbol (R6 SYMBOL_BITS), a DMEM byte, a container or header byte. -/
abbrev Byte := BitVec 8

/-- One 32-bit register word (R6 REG_BITS); also a command word and a frequency count. -/
abbrev Word := BitVec 32

/-- A bit string (R9): element 0 is the first bit emitted and the first bit consumed. -/
abbrev Bits := List Bool

end Sys2Proof
end

