-- ==== Sys2Proof/Syntax.lean ====
section
/-! DEFINITION. The command set HTB-CMD version 1: one constructor per row of spec/opcode_table.json
(30_encoding.md R59). A command has no operand fields (R58, R61). -/

namespace Sys2Proof

/-- The six commands of R59, in the order of their opcodes. -/
inductive Instr where
  /-- BUILD, the tree builder (40_tree_builder.md R75). -/
  | build
  /-- GENCODE, the code table generator (41_code_table.md R84). -/
  | gencode
  /-- PACK, the bit packer (42_bit_packer.md R88). -/
  | pack
  /-- UNPACK, the bit unpacker (43_bit_unpacker.md R93). -/
  | unpack
  /-- SERIALIZE, the container writer (44_container.md R98). -/
  | serialize
  /-- DESERIALIZE, the container parser (44_container.md R99). -/
  | deserialize
  deriving DecidableEq, Repr

end Sys2Proof
end

