-- ==== Sys2Proof/WellFormed.lean ====
section
/-! DEFINITION. What is well-formed: an instruction (no command has an operand field, so every one is), and a
command word as 30_encoding.md R60 separates the legal from the illegal. -/

namespace Sys2Proof

/-- A command has no register, immediate or mode field (R58), so no constructor can be ill-formed. -/
def Instr.wellFormed : Instr → Bool
  | .build => true
  | .gencode => true
  | .pack => true
  | .unpack => true
  | .serialize => true
  | .deserialize => true

/-- R60, read the other way: a command word is legal when `v[3:0]` is 1..6 and `v[31:4]` is 0. -/
def legalCommandWord (v : Word) : Bool :=
  v.extractLsb' 4 28 == 0#28 && decide (1 ≤ (v.extractLsb' 0 4).toNat) && decide ((v.extractLsb' 0 4).toNat ≤ 6)

end Sys2Proof
end

