-- ==== Sys2Proof/Decode.lean ====
section
/-! DEFINITION. The decoder and the encoder of the 32-bit command word (30_encoding.md R58–R60, R62).
The decoder is total and rejects by name; the encoder is written from the same table R59. -/

namespace Sys2Proof

/-- Why a command word is no command (R60). -/
inductive Reject where
  /-- OP is 0 or 7..15. -/
  | reservedOpcode (op : BitVec 4)
  /-- `v[31:4]` is not 0. -/
  | reservedBits (rsvd : BitVec 28)
  /-- Fewer than the four bytes of a command word were given. -/
  | truncated
  deriving DecidableEq, Repr

/-- The OP field, `v[3:0]` (R58). -/
def opField (v : Word) : BitVec 4 := v.extractLsb' 0 4

/-- The RSVD field, `v[31:4]` (R58). -/
def rsvdField (v : Word) : BitVec 28 := v.extractLsb' 4 28

/-- The opcode map read from the opcode (R59); `none` for the reserved opcodes. -/
def ofOpcode (op : BitVec 4) : Option Instr :=
  match op.toNat with
  | 1 => some .build
  | 2 => some .gencode
  | 3 => some .pack
  | 4 => some .unpack
  | 5 => some .serialize
  | 6 => some .deserialize
  | _ => none

/-- The opcode of a command (R59). -/
def opcode : Instr → BitVec 4
  | .build => 0x1#4
  | .gencode => 0x2#4
  | .pack => 0x3#4
  | .unpack => 0x4#4
  | .serialize => 0x5#4
  | .deserialize => 0x6#4

/-- Decoding a command word (R59, R60): total, every illegal word rejected by name. -/
def decode (v : Word) : Except Reject Instr :=
  if rsvdField v ≠ 0#28 then .error (.reservedBits (rsvdField v))
  else
    match ofOpcode (opField v) with
    | some i => .ok i
    | none => .error (.reservedOpcode (opField v))

/-- The command word of a command (R59): RSVD zero above the opcode. -/
def encode (i : Instr) : Word := 0#28 ++ opcode i

/-- The word whose bytes, numbered as a bus numbers them, are `b0 .. b3`: byte `k` is bits `[8k+7:8k]`
(20_memory.md R43). -/
def wordOfBytes (b0 b1 b2 b3 : Byte) : Word := b3 ++ b2 ++ b1 ++ b0

/-- The four bytes of a word in the order of R43, lowest first. -/
def bytesOfWord (v : Word) : List Byte :=
  [v.extractLsb' 0 8, v.extractLsb' 8 8, v.extractLsb' 16 8, v.extractLsb' 24 8]

/-- Decoding a command from bytes: the first four are the word (R43, R62), the rest is handed back. -/
def decodeBytes : List Byte → Except Reject (Instr × List Byte)
  | b0 :: b1 :: b2 :: b3 :: rest =>
    match decode (wordOfBytes b0 b1 b2 b3) with
    | .ok i => .ok (i, rest)
    | .error e => .error e
  | _ => .error .truncated

/-- The command word of a row of the opcode table given by `nbits` bits `w`: the bits above `nbits` are 0. -/
def tableWord (nbits w : Nat) : Word := BitVec.ofNat 32 (w % 2 ^ nbits)

/-- What the decoder reads from an opcode-table row: the row's word laid out in bytes and decoded. A row longer than
the one 32-bit form (R62) is no command. -/
def decodeTableWord (nbits w : Nat) : Option Instr :=
  if nbits ≤ 32 then
    match decodeBytes (bytesOfWord (tableWord nbits w)) with
    | .ok (i, _) => some i
    | .error _ => none
  else none

end Sys2Proof
end

