-- ==== Sys2Proof/Config.lean ====
section
/-! DEFINITION. What an implementation of the block fixes: the OPEN parameter `DMEM_SIZE` (00_scope.md R6).
The spec leaves no result value free, so there is no free value here. -/

namespace Sys2Proof

/-- The parameters the spec leaves OPEN and on which a rule depends. `REG_BASE` and `DMEM_BASE` affect no rule
(20_memory.md R51) and are left out (log entry 2). -/
structure Config where
  /-- `DMEM_SIZE`, the number of bytes of the local data memory (R6, R42). -/
  dmemSize : Nat
  deriving DecidableEq, Repr

/-- R6: 1 ≤ `DMEM_SIZE` ≤ 2^32. -/
abbrev Config.legal (c : Config) : Prop := 1 ≤ c.dmemSize ∧ c.dmemSize ≤ 2 ^ 32

/-- DESIGN CHOICE (log entry 1, unsafe): the value `State.reset` takes, the size every vector of
95_test_vectors.md uses. Statements over all states hold for every size. -/
def Config.ofVectors : Config := ⟨65536⟩

end Sys2Proof
end

