-- ==== Sys2Proof/Machine/State.lean ====
section
/-! DEFINITION. The state of the block (10_state.md R14) as plain data, the moves of its two agents
(00_scope.md R7), the faults and refusals of a step, and the state after reset (R39). -/

namespace Sys2Proof.Machine

/-- One arena record (R31). The tag alone tells a leaf (`false`) from an internal node (`true`). -/
structure Node where
  tag : Bool
  sym : Byte
  weight : BitVec 40
  left : BitVec 9
  right : BitVec 9
  deriving DecidableEq, Repr

/-- The all-zero record: what `NODE` holds at reset (DESIGN CHOICE, log entry 8: R39 says only that it is
unreadable). -/
def Node.blank : Node := ⟨false, 0, 0, 0, 0⟩

/-- The fields of STATUS (R21). Its reserved bits read 0 and are not held. -/
structure Status where
  busy : Bool
  done : Bool
  err : Bool
  treeValid : Bool
  codesValid : Bool
  drop : Bool
  errCode : BitVec 4
  lastOp : BitVec 4
  deriving DecidableEq, Repr

/-- STATUS after reset: every field 0 (R39). -/
def Status.reset : Status := ⟨false, false, false, false, false, false, 0, 0⟩

/-- The errors a command can end with (60_exceptions.md R115). -/
inductive Err where
  | emptyInput
  | format
  | decode
  | unknownSymbol
  | range
  | capacity
  | notReady
  | illegalCmd
  deriving DecidableEq, Repr

/-- What the host can do to the block in one step (R103, R104, R107, R127). -/
inductive HostAccess where
  /-- A REG read of `bits` bits at byte offset `offset` (R45, R103). -/
  | regRead (bits offset : Nat)
  /-- A REG write of `bits` bits at byte offset `offset` (R45, R104). -/
  | regWrite (bits offset : Nat) (value : Word)
  /-- A single-byte DMEM read (R107). -/
  | dmemRead (addr : Nat)
  /-- A single-byte DMEM write (R107). -/
  | dmemWrite (addr : Nat) (value : Byte)
  /-- The reset input (R127). -/
  | reset
  deriving DecidableEq, Repr

/-- One move of the two agents in the total order of R53. -/
inductive Move where
  /-- The host makes one access. -/
  | host (access : HostAccess)
  /-- The engine has its turn (R109). -/
  | engine
  deriving DecidableEq, Repr

/-- What a host read was answered (R103, R107). -/
inductive Reply where
  | word (value : Word)
  | byte (value : Byte)
  deriving DecidableEq, Repr

/-- Why a step stops with a fault. The first three are the faults of the model that 60_exceptions.md R124 names;
ending the run is the fault mark that no later step clears (log entry 7). -/
inductive Fault where
  /-- Raised by `hostAccess`: a REG access that is not an aligned 32-bit word below 0x8000, or a DMEM access at or
  above `DMEM_SIZE` (R45, R46). Safe: the hardware does something the model declines to name. -/
  | badHostAccess
  /-- Raised by `hostAccess`: a DMEM access to an active region while BUSY = 1 (R107). Safe. -/
  | hostRace
  /-- Raised by `hostAccess` and by a command's read of its source: a DMEM byte that holds no value (R50). Safe. -/
  | uninitRead
  /-- Raised by `engineTurn`: BUSY = 1 with a LASTOP that is no command. A stuck state, not the spec's: no run
  reaches it (log entry 11). Safe. -/
  | noPendingCommand
  deriving DecidableEq, Repr

/-- Why a step is refused. -/
inductive Refusal where
  /-- Raised by `exec` for an instruction that has no meaning yet. Safe: nothing is claimed of it. -/
  | notModelled (mnemonic : String)
  deriving DecidableEq, Repr

/-- DMEM (20_memory.md R42) as address and byte pairs, addresses strictly rising. An address that is not listed holds
no value (R50). -/
abbrev Memory := List Host.Cell

/-- A table with one entry per symbol (R29, R33). -/
abbrev Table (α : Type) := Vector α 256

/-- The node arena `NODE[0..510]` (R31). -/
abbrev Arena := Vector Node 511

/-- The state of the block (R14): the register file (R18), STATUS (R21), FREQ (R29), NODE (R31), CODE (R33) and DMEM
(R42); then the parameter of R6 and two fields of the model's own, the moves to come and the replies given. -/
structure State where
  /-- The implementation's parameter; no step changes it. -/
  cfg : Config
  /-- STATUS (R21). BUSY and LASTOP hold the pending command (R17). -/
  status : Status
  /-- SRC_BASE (R22). -/
  srcBase : Word
  /-- SRC_LEN (R22). -/
  srcLen : Word
  /-- DST_BASE (R23). -/
  dstBase : Word
  /-- DST_CAP (R23). -/
  dstCap : Word
  /-- DST_LEN (R23). -/
  dstLen : Word
  /-- PADDING (R24). -/
  padding : BitVec 3
  /-- ROOT (R25). -/
  root : BitVec 9
  /-- NODE_COUNT (R25). -/
  nodeCount : BitVec 10
  /-- LEAF_COUNT (R25). -/
  leafCount : BitVec 9
  /-- HDR_LEN (R26). -/
  hdrLen : Word
  /-- PAYLOAD_OFF (R26). -/
  payloadOff : Word
  /-- PAYLOAD_LEN (R26). -/
  payloadLen : Word
  /-- MAX_CODE_LEN (R27). -/
  maxCodeLen : BitVec 8
  /-- `FREQ[0..255]` (R29); 0 means absent. -/
  freq : Table Word
  /-- `NODE[0..510]` (R31). -/
  node : Arena
  /-- `CODE[0..255]` (R33); the empty string means no codeword. -/
  code : Table Bits
  /-- DMEM (R42). -/
  mem : Memory
  /-- The model's own: the moves still to come, in the order of R53 (log entry 3). -/
  inbox : List Move
  /-- The model's own: what the host's reads were answered, oldest first (log entry 4). -/
  replies : List Reply
  deriving DecidableEq, Repr

/-- The machine right after power-on (R39, R40): every register 0, the tables empty, no DMEM byte with a value, no
command pending. ID is a constant and CMD holds nothing, so neither is a field. -/
def State.reset : State where
  cfg := Config.ofVectors
  status := Status.reset
  srcBase := 0
  srcLen := 0
  dstBase := 0
  dstCap := 0
  dstLen := 0
  padding := 0
  root := 0
  nodeCount := 0
  leafCount := 0
  hdrLen := 0
  payloadOff := 0
  payloadLen := 0
  maxCodeLen := 0
  freq := Vector.replicate 256 0
  node := Vector.replicate 511 Node.blank
  code := Vector.replicate 256 []
  mem := []
  inbox := []
  replies := []

end Sys2Proof.Machine
end

