-- ==== Sys2Proof/Machine/Flags.lean ====
section
/-! DEFINITION. STATUS (10_state.md R21): its readback word, the error codes (60_exceptions.md R115), and every way a
flag is set or cleared (R36, R37; 45_host_interface.md R105, R108, R109). -/

namespace Sys2Proof.Machine

/-- The code of an error in ERRCODE (R115). -/
def Err.code : Err → BitVec 4
  | .emptyInput => 1#4
  | .format => 2#4
  | .decode => 3#4
  | .unknownSymbol => 4#4
  | .range => 5#4
  | .capacity => 6#4
  | .notReady => 7#4
  | .illegalCmd => 8#4

/-- The code of an outcome: 0 is NONE, success (R115). -/
def errCodeOf : Option Err → BitVec 4
  | none => 0#4
  | some e => e.code

/-- The word a host read of STATUS returns (R21); the reserved fields read 0. -/
def Status.word (st : Status) : Word :=
  0#16 ++ st.lastOp ++ st.errCode ++ 0#2 ++ BitVec.ofBool st.drop ++ BitVec.ofBool st.codesValid
    ++ BitVec.ofBool st.treeValid ++ BitVec.ofBool st.err ++ BitVec.ofBool st.done ++ BitVec.ofBool st.busy

/-- The first lines of `AcceptCommand` (R108): DONE, ERR, ERRCODE and DROP cleared, LASTOP taken from the word. -/
def Status.accept (st : Status) (op : BitVec 4) : Status :=
  { st with done := false, err := false, errCode := 0#4, drop := false, lastOp := op }

/-- BUSY set: the engine step follows (R108). -/
def Status.start (st : Status) : Status := { st with busy := true }

/-- `Complete(e)` on STATUS (R109); `none` is NONE. -/
def Status.complete (st : Status) (e : Option Err) : Status :=
  { st with busy := false, done := true, err := e.isSome, errCode := errCodeOf e }

/-- DROP set by a CMD write while BUSY = 1 (R105). -/
def Status.markDrop (st : Status) : Status := { st with drop := true }

/-- TREE_VALID written (R36, R75). -/
def Status.setTreeValid (st : Status) (b : Bool) : Status := { st with treeValid := b }

/-- CODES_VALID written (R36, R84). -/
def Status.setCodesValid (st : Status) (b : Bool) : Status := { st with codesValid := b }

end Sys2Proof.Machine
end

