-- ==== Sys2Proof/Machine/Ops.lean ====
section
/-! DEFINITION. The named operations on memory, tables and registers, invalidation (10_state.md R36), and the one
way a command ends: with success or with an error (45_host_interface.md R109, 60_exceptions.md R116, R118). The
block takes no trap and returns from none (R121, R122), so ending with an error is what stands here in place of
taking an exception. -/

namespace Sys2Proof.Machine

/-- A step's outcome. -/
abbrev Outcome := Host.Outcome State Fault Refusal

/-! ### DMEM (20_memory.md R42) -/

/-- The byte an address holds; `none` when no write has given it a value (R50). -/
def Memory.read : Memory → Nat → Option Byte
  | [], _ => none
  | (k, b) :: m, a => if k = a then some b else Memory.read m a

/-- One byte written, the addresses kept strictly rising. -/
def Memory.write : Memory → Nat → Byte → Memory
  | [], a, b => [(a, b)]
  | (k, c) :: m, a, b =>
    if a < k then (a, b) :: (k, c) :: m
    else if a = k then (a, b) :: m
    else (k, c) :: Memory.write m a b

/-- The `len` bytes from `base` on made unspecified: they hold no value afterwards (R50, R118, R128). -/
def Memory.erase (m : Memory) (base len : Nat) : Memory :=
  m.filter fun c => !(decide (base ≤ c.1) && decide (c.1 < base + len))

/-- `MemRead(addr, n)` (R42); `none` when a byte of it holds no value (R50). -/
def Memory.readBytes (m : Memory) (a : Nat) : Nat → Option (List Byte)
  | 0 => some []
  | n + 1 =>
    match m.read a with
    | none => none
    | some b => (Memory.readBytes m (a + 1) n).map (b :: ·)

/-- `MemWrite(addr, n, v)` (R42): the bytes `v` at `addr` and on. -/
def Memory.writeBytes (m : Memory) (a : Nat) : List Byte → Memory
  | [] => m
  | b :: v => Memory.writeBytes (m.write a b) (a + 1) v

/-- The addresses rise strictly from entry to entry: the canonical form. (An unlisted address holds no value, so no
entry can equal what it reads as.) -/
def Memory.wf : Memory → Bool
  | [] => true
  | [_] => true
  | (a, _) :: (b, y) :: m => decide (a < b) && Memory.wf ((b, y) :: m)

/-- Every listed address lies below `size` (R42). -/
def Memory.below (m : Memory) (size : Nat) : Bool := m.all fun c => decide (c.1 < size)

/-! ### Tables and the arena -/

/-- The entry of a symbol. -/
def Table.at {α : Type} (t : Table α) (s : Byte) : α :=
  t[s.toNat]'(by have := s.isLt; omega)

/-- The entry of a symbol replaced. -/
def Table.put {α : Type} (t : Table α) (s : Byte) (x : α) : Table α :=
  t.set s.toNat x (by have := s.isLt; omega)

/-- A table's pairs of symbol and entry, in ascending order of the symbol. -/
def Table.pairs {α : Type} (t : Table α) : List (Byte × α) :=
  t.toList.zipIdx.map fun p => (BitVec.ofNat 8 p.2, p.1)

/-- A list of pairs stored into a table, in the list's order. -/
def Table.putAll {α : Type} (t : Table α) (l : List (Byte × α)) : Table α :=
  l.foldl (fun t p => Table.put t p.1 p.2) t

/-- The empty frequency table (R39). -/
def noCounts : Table Word := Vector.replicate 256 0

/-- The empty code table (R36, R39). -/
def noCodes : Table Bits := Vector.replicate 256 []

/-- The record of an arena index (R31). Indices 0..510 are records; index 511, which no rule uses, reads as the
blank record (log entry 10). -/
def Arena.at (v : Arena) (i : Nat) : Node := (v[i]?).getD Node.blank

/-- `NODE[0 .. |ns|-1]` written with `ns`; the records from `|ns|` on keep what they held (R75, log entry 9). -/
def Arena.store (v : Arena) (ns : List Node) : Arena :=
  ⟨(v.toList.zipIdx.map fun p => ns.getD p.2 p.1).toArray, by simp⟩

/-! ### Updates of the state, one per piece -/

def State.setStatus (s : State) (st : Status) : State := { s with status := st }
def State.setSrcBase (s : State) (v : Word) : State := { s with srcBase := v }
def State.setSrcLen (s : State) (v : Word) : State := { s with srcLen := v }
def State.setDstBase (s : State) (v : Word) : State := { s with dstBase := v }
def State.setDstCap (s : State) (v : Word) : State := { s with dstCap := v }
def State.setDstLen (s : State) (v : Word) : State := { s with dstLen := v }
def State.setPadding (s : State) (v : BitVec 3) : State := { s with padding := v }
/-- ROOT, NODE_COUNT and LEAF_COUNT, which describe the arena together (R25). -/
def State.setExtent (s : State) (root : BitVec 9) (nodes : BitVec 10) (leaves : BitVec 9) : State :=
  { s with root := root, nodeCount := nodes, leafCount := leaves }
/-- HDR_LEN, PAYLOAD_OFF and PAYLOAD_LEN, which describe the last container together (R26). -/
def State.setContainer (s : State) (hdr off len : Word) : State :=
  { s with hdrLen := hdr, payloadOff := off, payloadLen := len }
/-- The code table and MAX_CODE_LEN, which describe the codes together (R27, R33). -/
def State.setCodes (s : State) (code : Table Bits) (maxLen : BitVec 8) : State :=
  { s with code := code, maxCodeLen := maxLen }
def State.setFreq (s : State) (f : Table Word) : State := { s with freq := f }
def State.setNode (s : State) (v : Arena) : State := { s with node := v }
def State.setMem (s : State) (m : Memory) : State := { s with mem := m }
def State.setInbox (s : State) (ms : List Move) : State := { s with inbox := ms }
def State.setReplies (s : State) (rs : List Reply) : State := { s with replies := rs }

/-! ### Invalidation (R36) -/

/-- `InvalidateCodes()` (R36). -/
def State.invalidateCodes (s : State) : State :=
  (s.setStatus (s.status.setCodesValid false)).setCodes noCodes 0

/-- `InvalidateTree()` (R36). The records themselves become unreadable, not changed. -/
def State.invalidateTree (s : State) : State :=
  let s := s.invalidateCodes
  (s.setStatus (s.status.setTreeValid false)).setExtent 0 0 0

/-! ### How a command ends (R109, R116, R118) -/

/-- `MemWrite` to the destination region from DST_BASE on (R49). -/
def State.writeDestination (s : State) (v : List Byte) : State :=
  s.setMem (s.mem.writeBytes s.dstBase.toNat v)

/-- Every byte of `[DST_BASE, DST_BASE + DST_CAP)` made unspecified (R118, R128). -/
def State.spoilDestination (s : State) : State :=
  s.setMem (s.mem.erase s.dstBase.toNat s.dstCap.toNat)

/-- The errors of PACK and UNPACK that leave the destination unspecified (R118). -/
def Err.spoilsDestination : Err → Bool
  | .unknownSymbol => true
  | .decode => true
  | .capacity => true
  | .emptyInput => false
  | .format => false
  | .range => false
  | .notReady => false
  | .illegalCmd => false

/-- The error effects of PACK and of UNPACK (R118): DST_LEN 0, and after a data error the destination unspecified. -/
def State.failTransfer (s : State) (e : Err) : State :=
  let s := s.setDstLen 0
  if e.spoilsDestination then s.spoilDestination else s

/-- The error effects of a command, by R118's table. BUILD's and GENCODE's are what their invalidation, the first
line of each (R75, R84), has done already. -/
def State.errorEffects (s : State) (i : Instr) (e : Err) : State :=
  match i with
  | .build => s
  | .gencode => s
  | .pack => s.failTransfer e
  | .unpack => s.failTransfer e
  | .serialize => (s.setDstLen 0).setContainer 0 0 0
  | .deserialize => s.setContainer 0 0 0

/-- `Complete(e)` (R109) on the whole state. -/
def State.complete (s : State) (e : Option Err) : State := s.setStatus (s.status.complete e)

/-- A command's rule reached its end: it completes with NONE (R109). -/
def State.finish (s : State) : Outcome := .next (s.complete none)

/-- `raise e` in the rule of command `i` (R116): the error effects of R118, then `Complete(e)`. -/
def State.raise (s : State) (i : Instr) (e : Err) : Outcome := .next ((s.errorEffects i e).complete (some e))

end Sys2Proof.Machine
end

