-- ==== Sys2Proof/Machine/Operands.lean ====
section
/-! DEFINITION. The operands of the commands (30_encoding.md R61): the pending command (10_state.md R17), the regions
and their checks (20_memory.md R48), the frequency list (R30), and the bit and byte orders (R43, R44). -/

namespace Sys2Proof.Machine

/-- The command LASTOP names (R17); `none` for a reserved opcode. -/
def State.pendingInstr (s : State) : Option Instr := ofOpcode s.status.lastOp

/-! ### Regions (R48) -/

/-- `InRange(base, len)`: on unbounded integers, so a base plus a length never wraps. -/
def inRange (size base len : Nat) : Bool := decide (base + len ≤ size)

/-- `Overlap(a, la, b, lb)`. -/
def overlap (a la b lb : Nat) : Bool :=
  decide (la > 0) && decide (lb > 0) && decide (a < b + lb) && decide (b < a + la)

/-- `SrcOK()`. -/
def State.srcOk (s : State) : Bool := inRange s.cfg.dmemSize s.srcBase.toNat s.srcLen.toNat

/-- `DstOK()`. -/
def State.dstOk (s : State) : Bool := inRange s.cfg.dmemSize s.dstBase.toNat s.dstCap.toNat

/-- `DisjointOK()`. -/
def State.disjointOk (s : State) : Bool :=
  !overlap s.srcBase.toNat s.srcLen.toNat s.dstBase.toNat s.dstCap.toNat

/-- The check of PACK, UNPACK and SERIALIZE. -/
def State.regionsOk (s : State) : Bool := s.srcOk && s.dstOk && s.disjointOk

/-- `MemRead(SRC_BASE, SRC_LEN)`; `none` when a byte of the source holds no value (R50). -/
def State.source (s : State) : Option (List Byte) := s.mem.readBytes s.srcBase.toNat s.srcLen.toNat

/-- Whether an address lies in `[base, base + len)`. -/
def inRegion (a : Nat) (base len : Word) : Bool :=
  decide (base.toNat ≤ a) && decide (a < base.toNat + len.toNat)

/-- Whether an address lies in an active region of the pending command, by the table of 45_host_interface.md R107. -/
def State.activeAt (s : State) (a : Nat) : Bool :=
  match s.pendingInstr with
  | some .build => false
  | some .gencode => false
  | some .pack => inRegion a s.srcBase s.srcLen || inRegion a s.dstBase s.dstCap
  | some .unpack => inRegion a s.srcBase s.srcLen || inRegion a s.dstBase s.dstCap
  | some .serialize => inRegion a s.srcBase s.srcLen || inRegion a s.dstBase s.dstCap
  | some .deserialize => inRegion a s.srcBase s.srcLen
  | none => false

/-! ### The frequency list (R30) -/

/-- `FreqList()`: the pairs of symbol and non-zero count, in ascending order of the symbol. -/
def freqList (f : Table Word) : List (Byte × Word) := f.pairs.filter fun p => p.2 != 0#32

/-! ### Bit and byte order -/

/-- A bit string read as a number, the first bit most significant (R44, R87). -/
def natOfBits (b : Bits) : Nat := b.foldl (fun n x => 2 * n + x.toNat) 0

/-- `bits_msb(x)` (00_scope.md R9): the eight bits of a byte, bit 7 first. -/
def bitsMsb (x : Byte) : Bits :=
  [x.getLsbD 7, x.getLsbD 6, x.getLsbD 5, x.getLsbD 4, x.getLsbD 3, x.getLsbD 2, x.getLsbD 1, x.getLsbD 0]

/-- The bit stream of a byte sequence (30_encoding.md R66). -/
def bitsOfBytes (p : List Byte) : Bits := p.flatMap bitsMsb

/-- A stream cut into bytes, most significant bit first (42_bit_packer.md R87); a rest of fewer than eight bits,
which a padded stream has not, is left out. -/
def bytesOfBits : Bits → List Byte
  | b7 :: b6 :: b5 :: b4 :: b3 :: b2 :: b1 :: b0 :: rest =>
    BitVec.ofNat 8 (natOfBits [b7, b6, b5, b4, b3, b2, b1, b0]) :: bytesOfBits rest
  | _ => []

/-- `le32(n)` (00_scope.md R11): byte `k` is `n[8k+7:8k]`. -/
def le32 (n : Nat) : List Byte :=
  [BitVec.ofNat 8 n, BitVec.ofNat 8 (n / 256), BitVec.ofNat 8 (n / 65536), BitVec.ofNat 8 (n / 16777216)]

end Sys2Proof.Machine
end

