-- ==== Sys2Proof/Machine/Codes.lean ====
section
/-! DEFINITION. GENCODE, the code table generator (41_code_table.md). -/

namespace Sys2Proof.Machine

/-- `MAX_NODES` (00_scope.md R6). -/
def maxNodes : Nat := 511

/-- `Walk(i, p)` (R79): the pairs of symbol and codeword of the leaves below record `i`, left before right. A child
lies below its parent (40_tree_builder.md R77), so no path is longer than the `maxNodes` levels the walk is given
(log entry 10). -/
def walk (v : Arena) : Nat → Nat → Bits → List (Byte × Bits)
  | 0, _, _ => []
  | fuel + 1, i, p =>
    if (v.at i).tag then
      walk v fuel (v.at i).left.toNat (p ++ [false]) ++ walk v fuel (v.at i).right.toNat (p ++ [true])
    else [((v.at i).sym, p)]

/-- The codewords of the tree at `root`: the one-bit codeword "0" when the root is a leaf (R80), else the paths (R79). -/
def codewords (v : Arena) (root : Nat) : List (Byte × Bits) :=
  if (v.at root).tag then walk v maxNodes root [] else [((v.at root).sym, [false])]

/-- The code table of an arena: the empty table with the codewords stored (R36, R84). -/
def codeTable (v : Arena) (root : Nat) : Table Bits := noCodes.putAll (codewords v root)

/-- The largest codeword length of a table (R84). -/
def maxLength (c : Table Bits) : Nat := c.toList.foldl (fun n b => max n b.length) 0

/-- The last lines of GENCODE: CODE, MAX_CODE_LEN, CODES_VALID (R84). -/
def State.storeCodes (s : State) (c : Table Bits) : State :=
  let s := s.setCodes c (BitVec.ofNat 8 (maxLength c))
  s.setStatus (s.status.setCodesValid true)

/-- GENCODE (R84). -/
def execGencode (s : State) : Outcome :=
  let s := s.invalidateCodes
  if s.status.treeValid then (s.storeCodes (codeTable s.node s.root.toNat)).finish
  else s.raise .gencode .notReady

end Sys2Proof.Machine
end

