-- ==== Sys2Proof/Machine/Container.lean ====
section
/-! DEFINITION. SERIALIZE and DESERIALIZE, the container (44_container.md), with the header grammar of
30_encoding.md R64. Header characters are written as their ASCII bytes. -/

namespace Sys2Proof.Machine

/-! ### Header text (R96) -/

/-- The ASCII digit of a number below ten. -/
def digit (n : Nat) : Byte := BitVec.ofNat 8 (0x30 + n)

/-- Decimal digits, most significant first, at most `fuel` of them. -/
def decDigits : Nat → Nat → List Byte
  | 0, _ => []
  | fuel + 1, n => if n < 10 then [digit n] else decDigits fuel (n / 10) ++ [digit (n % 10)]

/-- `dec(n)` (00_scope.md R11): the shortest ASCII decimal spelling. A number has fewer digits than `n + 1`. -/
def dec (n : Nat) : List Byte := decDigits (n + 1) n

/-- `freqTable` between double quotes, behind the opening brace, before the colon and the opening bracket. -/
def headerOpen : List Byte :=
  [0x7B, 0x22, 0x66, 0x72, 0x65, 0x71, 0x54, 0x61, 0x62, 0x6C, 0x65, 0x22, 0x3A, 0x5B]

/-- The closing bracket, a comma, `padding` between double quotes, a colon. -/
def headerMiddle : List Byte :=
  [0x5D, 0x2C, 0x22, 0x70, 0x61, 0x64, 0x64, 0x69, 0x6E, 0x67, 0x22, 0x3A]

/-- The closing brace. -/
def headerClose : List Byte := [0x7D]

/-- `E_k` (R96): bracket, symbol, comma, count, bracket. -/
def entryText (e : Byte × Word) : List Byte :=
  0x5B#8 :: (dec e.1.toNat ++ 0x2C#8 :: (dec e.2.toNat ++ [0x5D#8]))

/-- The entries, separated by commas. -/
def entriesText : List (Byte × Word) → List Byte
  | [] => []
  | [e] => entryText e
  | e :: l => entryText e ++ 0x2C#8 :: entriesText l

/-- `HeaderText(L, p)` (R96). -/
def headerText (l : List (Byte × Word)) (p : BitVec 3) : List Byte :=
  headerOpen ++ (entriesText l ++ (headerMiddle ++ (dec p.toNat ++ headerClose)))

/-! ### `ParseHeader` (R97) -/

/-- A literal byte sequence read off the front; `none` when the front differs. -/
def expect : List Byte → List Byte → Option (List Byte)
  | [], h => some h
  | _ :: _, [] => none
  | p :: ps, c :: h => if p = c then expect ps h else none

/-- Whether a byte is an ASCII digit. -/
def isDigit (c : Byte) : Bool := decide (0x30 ≤ c.toNat) && decide (c.toNat ≤ 0x39)

/-- The digits at the front read as decimal behind the value read so far. -/
def takeDigits : Nat → List Byte → Nat × List Byte
  | n, [] => (n, [])
  | n, c :: h => if isDigit c then takeDigits (10 * n + (c.toNat - 0x30)) h else (n, c :: h)

/-- The production `dec` of R64: a single `0`, or a non-zero digit and the digits after it. -/
def parseDec : List Byte → Option (Nat × List Byte)
  | [] => none
  | c :: h =>
    if c = 0x30#8 then some (0, h)
    else if isDigit c then some (takeDigits (c.toNat - 0x30) h)
    else none

/-- The production `entry` of R64, with its two values. -/
def parseEntry (h : List Byte) : Option ((Nat × Nat) × List Byte) :=
  match expect [0x5B#8] h with
  | none => none
  | some h =>
    match parseDec h with
    | none => none
    | some (sym, h) =>
      match expect [0x2C#8] h with
      | none => none
      | some h =>
        match parseDec h with
        | none => none
        | some (count, h) =>
          match expect [0x5D#8] h with
          | none => none
          | some h => some ((sym, count), h)

/-- The production `entries` of R64: an entry, and after each comma another; at most `fuel` of them. -/
def parseEntries : Nat → List Byte → Option (List (Nat × Nat) × List Byte)
  | 0, _ => none
  | fuel + 1, h =>
    match parseEntry h with
    | none => none
    | some (e, h) =>
      match expect [0x2C#8] h with
      | none => some ([e], h)
      | some h =>
        match parseEntries fuel h with
        | none => none
        | some (l, h) => some (e :: l, h)

/-- The production `pad` of R64: one digit 0..7. -/
def parsePad : List Byte → Option (BitVec 3 × List Byte)
  | [] => none
  | c :: h =>
    if 0x30 ≤ c.toNat ∧ c.toNat ≤ 0x37 then some (BitVec.ofNat 3 (c.toNat - 0x30), h) else none

/-- Conditions 2 to 4 of R97: symbols in 0..255, counts in 1..4294967295, symbols strictly ascending. -/
def entriesValid : List (Nat × Nat) → Bool
  | [] => true
  | [(s, c)] => decide (s ≤ 255) && decide (1 ≤ c) && decide (c ≤ 4294967295)
  | (s, c) :: (s', c') :: l =>
    decide (s ≤ 255) && decide (1 ≤ c) && decide (c ≤ 4294967295) && decide (s < s') && entriesValid ((s', c') :: l)

/-- `ParseHeader(h)` (R97): the entry list and the padding, or `none` for FAIL. An entry has at least five bytes, so
a header of `|h|` bytes has fewer entries than that. -/
def parseHeader (h : List Byte) : Option (List (Byte × Word) × BitVec 3) :=
  match expect headerOpen h with
  | none => none
  | some h1 =>
    match parseEntries h.length h1 with
    | none => none
    | some (l, h2) =>
      match expect headerMiddle h2 with
      | none => none
      | some h3 =>
        match parsePad h3 with
        | none => none
        | some (p, h4) =>
          if h4 = headerClose ∧ entriesValid l = true then
            some (l.map (fun e => (BitVec.ofNat 8 e.1, BitVec.ofNat 32 e.2)), p)
          else none

/-! ### SERIALIZE (R98) -/

/-- The container of a header and a payload (30_encoding.md R63): `le32(H)`, header, payload. -/
def containerOf (hdr pay : List Byte) : List Byte := le32 hdr.length ++ (hdr ++ pay)

/-- The last lines of SERIALIZE: the container, DST_LEN, HDR_LEN, PAYLOAD_OFF, PAYLOAD_LEN (R98). -/
def State.storeContainer (s : State) (hdr pay : List Byte) : State :=
  ((s.writeDestination (containerOf hdr pay)).setDstLen (BitVec.ofNat 32 (4 + hdr.length + pay.length))).setContainer
    (BitVec.ofNat 32 hdr.length) (BitVec.ofNat 32 (4 + hdr.length)) (BitVec.ofNat 32 pay.length)

/-- SERIALIZE (R98). -/
def execSerialize (s : State) : Outcome :=
  if s.regionsOk = false then s.raise .serialize .range
  else if freqList s.freq = [] then s.raise .serialize .emptyInput
  else if 4 + (headerText (freqList s.freq) s.padding).length + s.srcLen.toNat > s.dstCap.toNat then
    s.raise .serialize .capacity
  else
    match s.source with
    | none => .fault .uninitRead
    | some pay => (s.storeContainer (headerText (freqList s.freq) s.padding) pay).finish

/-! ### DESERIALIZE (R99) -/

/-- The header length of a container (R63): its first four bytes, little-endian. -/
def headerLength (c : List Byte) : Nat :=
  (c.getD 0 0).toNat + 256 * (c.getD 1 0).toNat + 65536 * (c.getD 2 0).toNat + 16777216 * (c.getD 3 0).toNat

/-- The frequency table of an entry list (R99): all entries 0, then each of the list's stored. -/
def tableOf (l : List (Byte × Word)) : Table Word := noCounts.putAll l

/-- The last lines of DESERIALIZE: FREQ, the invalidation, PADDING, HDR_LEN, PAYLOAD_OFF, PAYLOAD_LEN (R99). -/
def State.loadArtifact (s : State) (l : List (Byte × Word)) (p : BitVec 3) (hdr total : Nat) : State :=
  (((s.setFreq (tableOf l)).invalidateTree).setPadding p).setContainer
    (BitVec.ofNat 32 hdr) (BitVec.ofNat 32 (4 + hdr)) (BitVec.ofNat 32 (total - 4 - hdr))

/-- DESERIALIZE (R99). -/
def execDeserialize (s : State) : Outcome :=
  if s.srcOk = false then s.raise .deserialize .range
  else if s.srcLen.toNat < 4 then s.raise .deserialize .format
  else
    match s.source with
    | none => .fault .uninitRead
    | some c =>
      if headerLength c > s.srcLen.toNat - 4 then s.raise .deserialize .format
      else
        match parseHeader ((c.drop 4).take (headerLength c)) with
        | none => s.raise .deserialize .format
        | some (l, p) => (s.loadArtifact l p (headerLength c) s.srcLen.toNat).finish

end Sys2Proof.Machine
end

