-- ==== Sys2Proof/Machine/Packer.lean ====
section
/-! DEFINITION. PACK, the bit packer (42_bit_packer.md). -/

namespace Sys2Proof.Machine

/-- The codeword stream of a symbol sequence (R85); `none` when a symbol has no codeword. -/
def codewordStream (c : Table Bits) : List Byte → Option Bits
  | [] => some []
  | x :: xs =>
    if c.at x = [] then none
    else (codewordStream c xs).map (c.at x ++ ·)

/-- The padding count of a stream (R86). -/
def paddingOf (b : Bits) : Nat := (8 - b.length % 8) % 8

/-- The payload of a stream: the stream, its padding zeros, cut into bytes (R86, R87). -/
def payloadOf (b : Bits) : List Byte := bytesOfBits (b ++ List.replicate (paddingOf b) false)

/-- The last lines of PACK: the payload, DST_LEN, PADDING (R88). -/
def State.storePayload (s : State) (b : Bits) : State :=
  ((s.writeDestination (payloadOf b)).setDstLen (BitVec.ofNat 32 (payloadOf b).length)).setPadding
    (BitVec.ofNat 3 (paddingOf b))

/-- PACK (R88). -/
def execPack (s : State) : Outcome :=
  if s.status.codesValid = false then s.raise .pack .notReady
  else if s.regionsOk = false then s.raise .pack .range
  else if s.srcLen.toNat = 0 then s.raise .pack .emptyInput
  else
    match s.source with
    | none => .fault .uninitRead
    | some src =>
      match codewordStream s.code src with
      | none => s.raise .pack .unknownSymbol
      | some b =>
        if (payloadOf b).length > s.dstCap.toNat then s.raise .pack .capacity
        else (s.storePayload b).finish

end Sys2Proof.Machine
end

