-- ==== Sys2Proof/Machine/Tree.lean ====
section
/-! DEFINITION. BUILD, the tree builder (40_tree_builder.md). -/

namespace Sys2Proof.Machine

/-- The leaf of one frequency entry (R68). -/
def leafOf (e : Byte × Word) : Node := ⟨false, e.1, e.2.setWidth 40, 0, 0⟩

/-- The record of an index in a growing arena. -/
def nodeOf (ns : List Node) (i : Nat) : Node := ns.getD i Node.blank

/-- The worklist order (R70): weight first, then index. -/
def keyLt (ns : List Node) (i j : Nat) : Bool :=
  decide ((nodeOf ns i).weight.toNat < (nodeOf ns j).weight.toNat) ||
    (decide ((nodeOf ns i).weight.toNat = (nodeOf ns j).weight.toNat) && decide (i < j))

/-- The member of `best :: w` with the smallest key. -/
def argmin (ns : List Node) : Nat → List Nat → Nat
  | best, [] => best
  | best, i :: w => argmin ns (if keyLt ns i best then i else best) w

/-- The smallest member of the worklist removed from it (R71); `none` when it is empty. -/
def popMin (ns : List Node) : List Nat → Option (Nat × List Nat)
  | [] => none
  | i :: w => some (argmin ns i w, (i :: w).erase (argmin ns i w))

/-- The internal node of a merge (R71): a 40-bit sum, children in removal order. -/
def internalOf (ns : List Node) (l r : Nat) : Node :=
  ⟨true, 0, (nodeOf ns l).weight + (nodeOf ns r).weight, BitVec.ofNat 9 l, BitVec.ofNat 9 r⟩

/-- The merge loop (R71, R72): while the worklist has two members or more, at most `fuel` merges. -/
def mergeLoop : Nat → List Node → List Nat → List Node × List Nat
  | 0, ns, w => (ns, w)
  | fuel + 1, ns, w =>
    match popMin ns w with
    | none => (ns, w)
    | some (l, w1) =>
      match popMin ns w1 with
      | none => (ns, w)
      | some (r, w2) => mergeLoop fuel (ns ++ [internalOf ns l r]) (w2 ++ [ns.length])

/-- The arena and the final worklist of a frequency list (R68, R70, R71): one leaf per entry, then the merges; a list
of `n` entries takes `n - 1` of them. -/
def buildTree (l : List (Byte × Word)) : List Node × List Nat :=
  mergeLoop l.length (l.map leafOf) (List.range l.length)

/-- The arena records BUILD computes (R76: from the frequency list alone). -/
def buildArena (l : List (Byte × Word)) : List Node := (buildTree l).1

/-- ROOT, the one index left in the worklist (R72). -/
def buildRoot (l : List (Byte × Word)) : Nat := (buildTree l).2.headD 0

/-- The last lines of BUILD: arena, ROOT, NODE_COUNT, LEAF_COUNT, TREE_VALID (R75). -/
def State.storeTree (s : State) (l : List (Byte × Word)) : State :=
  let s := s.setNode (s.node.store (buildArena l))
  let s := s.setExtent (BitVec.ofNat 9 (buildRoot l)) (BitVec.ofNat 10 (2 * l.length - 1)) (BitVec.ofNat 9 l.length)
  s.setStatus (s.status.setTreeValid true)

/-- BUILD (R75). -/
def execBuild (s : State) : Outcome :=
  let s := s.invalidateTree
  let l := freqList s.freq
  if l = [] then s.raise .build .emptyInput
  else (s.storeTree l).finish

end Sys2Proof.Machine
end

