-- ==== Sys2Proof/Machine/Unpacker.lean ====
section
/-! DEFINITION. UNPACK, the bit unpacker (43_bit_unpacker.md). -/

namespace Sys2Proof.Machine

/-- The symbol whose non-empty codeword is `acc` (R91). At most one matches in a prefix-free table; in a table that is
not, which no run reaches, the lowest symbol is taken (log entry 12). -/
def symbolOf (c : Table Bits) (acc : Bits) : Option Byte :=
  (c.pairs.find? fun p => p.2 != [] && p.2 == acc).map Prod.fst

/-- Whether some codeword has `acc` as a prefix (R91). -/
def extendable (c : Table Bits) (acc : Bits) : Bool := c.toList.any fun b => acc.isPrefixOf b

/-- The walk (R91, R93) from an accumulator over the bits left; `none` is DECODE (R92). -/
def decodeBits (c : Table Bits) : Bits → Bits → Option (List Byte)
  | acc, [] => if acc = [] then some [] else none
  | acc, b :: t =>
    match symbolOf c (acc ++ [b]) with
    | some x => (decodeBits c [] t).map (x :: ·)
    | none => if extendable c (acc ++ [b]) then decodeBits c (acc ++ [b]) t else none

/-- The decoded bit string of a payload (R90): its bits less the last `p`. -/
def strippedBits (pay : List Byte) (p : Nat) : Bits := (bitsOfBytes pay).take (8 * pay.length - p)

/-- The last lines of UNPACK: the symbols, DST_LEN (R93). -/
def State.storeSymbols (s : State) (out : List Byte) : State :=
  (s.writeDestination out).setDstLen (BitVec.ofNat 32 out.length)

/-- UNPACK (R93). -/
def execUnpack (s : State) : Outcome :=
  if s.status.codesValid = false then s.raise .unpack .notReady
  else if s.regionsOk = false then s.raise .unpack .range
  else if s.padding.toNat > 8 * s.srcLen.toNat then s.raise .unpack .decode
  else
    match s.source with
    | none => .fault .uninitRead
    | some pay =>
      match decodeBits s.code [] (strippedBits pay s.padding.toNat) with
      | none => s.raise .unpack .decode
      | some out =>
        if out.length > s.dstCap.toNat then s.raise .unpack .capacity
        else (s.storeSymbols out).finish

end Sys2Proof.Machine
end

