-- ==== Sys2Proof/Machine/RegMap.lean ====
section
/-! DEFINITION. The register map (10_state.md R18) and what a host read of each word returns (R19–R34, R103). -/

namespace Sys2Proof.Machine

/-- What stands at a word offset of the REG space (R18). -/
inductive RegLoc where
  | id | cmd | status
  | srcBase | srcLen | dstBase | dstCap | dstLen
  | padding
  | root | nodeCount | leafCount
  | hdrLen | payloadOff | payloadLen
  | maxCodeLen
  | freq (s : Byte)
  | codeLen (s : Byte)
  | codeBits (s : Byte) (w : Nat)
  | nodeInfo (i : Nat) | nodeWlo (i : Nat) | nodeWhi (i : Nat) | nodeKids (i : Nat)
  | reserved
  deriving DecidableEq, Repr

/-- A REG access is legal when it is 32 bits wide at a multiple of 4 below 0x8000 (20_memory.md R45). -/
def regAccessLegal (bits offset : Nat) : Bool :=
  decide (bits = 32) && decide (offset % 4 = 0) && decide (offset < 0x8000)

/-- The first sixteen words of the map (R18). -/
def regOfWord : Nat → RegLoc
  | 0 => .id
  | 1 => .cmd
  | 2 => .status
  | 3 => .srcBase
  | 4 => .srcLen
  | 5 => .dstBase
  | 6 => .dstCap
  | 7 => .dstLen
  | 8 => .padding
  | 9 => .root
  | 10 => .nodeCount
  | 11 => .leafCount
  | 12 => .hdrLen
  | 13 => .payloadOff
  | 14 => .payloadLen
  | 15 => .maxCodeLen
  | _ => .reserved

/-- The four words of an arena record (R18, R32). -/
def nodeWord (i : Nat) : Nat → RegLoc
  | 0 => .nodeInfo i
  | 1 => .nodeWlo i
  | 2 => .nodeWhi i
  | _ => .nodeKids i

/-- The register map (R18): what stands at a legal offset. -/
def regLoc (o : Nat) : RegLoc :=
  if o < 0x400 then regOfWord (o / 4)
  else if o < 0x800 then .freq (BitVec.ofNat 8 ((o - 0x400) / 4))
  else if o < 0xC00 then .codeLen (BitVec.ofNat 8 ((o - 0x800) / 4))
  else if o < 0x1000 then .reserved
  else if o < 0x3000 then .codeBits (BitVec.ofNat 8 ((o - 0x1000) / 32)) ((o - 0x1000) % 32 / 4)
  else if o < 0x4FF0 then nodeWord ((o - 0x3000) / 16) ((o - 0x3000) % 16 / 4)
  else .reserved

/-- The constant of ID (R19). -/
def idWord : Word := 0x48554631#32

/-- Whether arena record `i` can be read: TREE_VALID = 1 and `i` below NODE_COUNT (R32). -/
def State.readable (s : State) (i : Nat) : Bool := s.status.treeValid && decide (i < s.nodeCount.toNat)

/-- Word `w` of a codeword's readback (R34): its bits `32w .. 32w+31`, first bit most significant, zeros past its
end. -/
def codeWord (b : Bits) (w : Nat) : Word :=
  BitVec.ofNat 32 (natOfBits (((b.drop (32 * w)).take 32) ++ List.replicate (32 - (b.drop (32 * w)).length) false))

/-- What a host read of a location returns (R103). -/
def State.readReg (s : State) : RegLoc → Word
  | .id => idWord
  | .cmd => 0
  | .status => s.status.word
  | .srcBase => s.srcBase
  | .srcLen => s.srcLen
  | .dstBase => s.dstBase
  | .dstCap => s.dstCap
  | .dstLen => s.dstLen
  | .padding => s.padding.setWidth 32
  | .root => s.root.setWidth 32
  | .nodeCount => s.nodeCount.setWidth 32
  | .leafCount => s.leafCount.setWidth 32
  | .hdrLen => s.hdrLen
  | .payloadOff => s.payloadOff
  | .payloadLen => s.payloadLen
  | .maxCodeLen => s.maxCodeLen.setWidth 32
  | .freq x => s.freq.at x
  | .codeLen x => BitVec.ofNat 32 (s.code.at x).length
  | .codeBits x w => codeWord (s.code.at x) w
  | .nodeInfo i => if s.readable i then 0#16 ++ (s.node.at i).sym ++ 0#7 ++ BitVec.ofBool (s.node.at i).tag else 0
  | .nodeWlo i => if s.readable i then (s.node.at i).weight.extractLsb' 0 32 else 0
  | .nodeWhi i => if s.readable i then ((s.node.at i).weight.extractLsb' 32 8).setWidth 32 else 0
  | .nodeKids i => if s.readable i then 0#7 ++ (s.node.at i).right ++ 0#7 ++ (s.node.at i).left else 0
  | .reserved => 0

end Sys2Proof.Machine
end

