-- ==== Sys2Proof/Machine/HostPort.lean ====
section
/-! DEFINITION. The host's steps (45_host_interface.md R103–R108) and reset (70_reset_and_hazards.md R127, R128). -/

namespace Sys2Proof.Machine

/-- `AcceptCommand(v)` (R108): a legal word starts the command, an illegal one completes at once with ILLEGAL_CMD. -/
def State.acceptCommand (s : State) (v : Word) : State :=
  match decode v with
  | .ok _ => s.setStatus (s.status.accept (opField v)).start
  | .error _ => s.setStatus ((s.status.accept (opField v)).complete (some .illegalCmd))

/-- `HostFreqWrite(s, v)` (R106): the count stored and the tree invalidated, even when the value is the old one. -/
def State.hostFreqWrite (s : State) (x : Byte) (v : Word) : State :=
  (s.setFreq (s.freq.put x v)).invalidateTree

/-- `HostRegWrite(o, v)` while BUSY = 0 (R104). -/
def State.regWriteIdle (s : State) (v : Word) : RegLoc → State
  | .cmd => s.acceptCommand v
  | .srcBase => s.setSrcBase v
  | .srcLen => s.setSrcLen v
  | .dstBase => s.setDstBase v
  | .dstCap => s.setDstCap v
  | .padding => s.setPadding (v.extractLsb' 0 3)
  | .freq x => s.hostFreqWrite x v
  | .id => s
  | .status => s
  | .dstLen => s
  | .root => s
  | .nodeCount => s
  | .leafCount => s
  | .hdrLen => s
  | .payloadOff => s
  | .payloadLen => s
  | .maxCodeLen => s
  | .codeLen _ => s
  | .codeBits _ _ => s
  | .nodeInfo _ => s
  | .nodeWlo _ => s
  | .nodeWhi _ => s
  | .nodeKids _ => s
  | .reserved => s

/-- `HostWriteWhileBusy(o, v)` (R105): nothing changes, but a CMD write sets DROP. -/
def State.regWriteBusy (s : State) (l : RegLoc) : State :=
  if l = .cmd then s.setStatus s.status.markDrop else s

/-- `HostRegWrite(o, v)` at a legal offset (R104). -/
def State.regWrite (s : State) (l : RegLoc) (v : Word) : State :=
  if s.status.busy then s.regWriteBusy l else s.regWriteIdle v l

/-- A reply handed to the host. -/
def State.reply (s : State) (r : Reply) : State := s.setReplies (s.replies ++ [r])

/-- The fault of a host DMEM access at `a` before it reaches the byte (R107, items 1 and 2, in that order). -/
def State.dmemFault (s : State) (a : Nat) : Option Fault :=
  if s.cfg.dmemSize ≤ a then some .badHostAccess
  else if s.status.busy && s.activeAt a then some .hostRace
  else none

/-- Whether the pending command has a destination region that a reset spoils (R128). -/
def State.abortSpoils (s : State) : Bool :=
  s.status.busy &&
    (s.pendingInstr == some .pack || s.pendingInstr == some .unpack || s.pendingInstr == some .serialize)

/-- The reset input (R127, R128): every register, table and bit at its reset value; DMEM kept, but for the destination
of a PACK, UNPACK or SERIALIZE the reset aborts. The parameter, the moves to come and the replies are not the block's
to reset. -/
def State.applyReset (s : State) : State :=
  let m := if s.abortSpoils then s.mem.erase s.dstBase.toNat s.dstCap.toNat else s.mem
  { State.reset with cfg := s.cfg, mem := m, inbox := s.inbox, replies := s.replies }

/-- One host access (R103, R104, R107, R127). -/
def hostAccess (h : HostAccess) (s : State) : Outcome :=
  match h with
  | .regRead bits o =>
    if regAccessLegal bits o then .next (s.reply (.word (s.readReg (regLoc o)))) else .fault .badHostAccess
  | .regWrite bits o v =>
    if regAccessLegal bits o then .next (s.regWrite (regLoc o) v) else .fault .badHostAccess
  | .dmemRead a =>
    match s.dmemFault a with
    | some f => .fault f
    | none =>
      match s.mem.read a with
      | some b => .next (s.reply (.byte b))
      | none => .fault .uninitRead
  | .dmemWrite a b =>
    match s.dmemFault a with
    | some f => .fault f
    | none => .next (s.setMem (s.mem.write a b))
  | .reset => .next s.applyReset

end Sys2Proof.Machine
end

