-- ==== Sys2Proof/Machine/Step.lean ====
section
/-! DEFINITION. One step of the machine: the next move of the host or of the engine (20_memory.md R53,
45_host_interface.md R109). -/

namespace Sys2Proof.Machine

/-- The engine's turn (R109): enabled exactly when BUSY = 1, it runs the pending command as one step. With BUSY = 0
it is not enabled and nothing changes. -/
def engineTurn (s : State) : Outcome :=
  if s.status.busy then
    match s.pendingInstr with
    | some i => exec i s
    | none => .fault .noPendingCommand
  else .next s

/-- One move of either agent (R53). -/
def perform (m : Move) (s : State) : Outcome :=
  match m with
  | .host h => hostAccess h s
  | .engine => engineTurn s

/-- One step: the first move of the inbox, which is taken off it; with no move to come, the engine's turn. -/
def step (s : State) : Host.Outcome State Fault Refusal :=
  match s.inbox with
  | [] => engineTurn s
  | m :: ms => perform m (s.setInbox ms)

/-- The state in which the very next step runs the command whose word an opcode-table row gives: the host has written
that word to CMD of an idle block (R108), and the engine is next to move (log entry 5). -/
def State.withFetchWord (s : State) (nbits w : Nat) : State :=
  (s.acceptCommand (tableWord nbits w)).setInbox
    (match s.inbox with
     | [] => []
     | m :: ms => .engine :: m :: ms)

end Sys2Proof.Machine
end

