-- ==== Sys2Proof/Machine/HostProgram.lean ====
section
/-! DEFINITION. The host software the spec defines over the block's accesses: the program notation (30_encoding.md
R67), frequency analysis (45_host_interface.md R110), the two sequences (R111, R112) and the error mapping (R113). -/

namespace Sys2Proof.Machine

/-! ### The notation of R67: each line as the moves it stands for -/

/-- Offsets of the registers a sequence names (10_state.md R18). -/
def offCmd : Nat := 0x004
def offStatus : Nat := 0x008
def offSrcBase : Nat := 0x00C
def offSrcLen : Nat := 0x010
def offDstBase : Nat := 0x014
def offDstCap : Nat := 0x018
def offDstLen : Nat := 0x01C
def offPadding : Nat := 0x020
def offPayloadOff : Nat := 0x034
def offPayloadLen : Nat := 0x038
def offFreq (x : Byte) : Nat := 0x400 + 4 * x.toNat

/-- `RD <reg>`. -/
def lineRd (o : Nat) : List Move := [.host (.regRead 32 o)]

/-- `WR <reg>, <imm>`. -/
def lineWr (o : Nat) (v : Word) : List Move := [.host (.regWrite 32 o v)]

/-- `WRF <s>, <imm>`. -/
def lineWrf (x : Byte) (v : Word) : List Move := lineWr (offFreq x) v

/-- `CMD.RAW <imm>`. -/
def lineCmdRaw (v : Word) : List Move := lineWr offCmd v

/-- `CMD <mnemonic>`. -/
def lineCmd (i : Instr) : List Move := lineCmdRaw (encode i)

/-- `DMW <addr>, <bytes>`. -/
def lineDmw (a : Nat) : List Byte → List Move
  | [] => []
  | b :: bs => .host (.dmemWrite a b) :: lineDmw (a + 1) bs

/-- `DMR <addr>, <n>`. -/
def lineDmr (a : Nat) : Nat → List Move
  | 0 => []
  | n + 1 => .host (.dmemRead a) :: lineDmr (a + 1) n

/-- `WAIT` that reads STATUS `polls` times before the engine's turn and once after it. The engine step is taken
eventually (70_reset_and_hazards.md R136), so every wait is one of these. -/
def lineWait (polls : Nat) : List Move :=
  (List.replicate polls (lineRd offStatus)).flatten ++ (.engine :: lineRd offStatus)

/-- `CMD <mnemonic> ; WAIT`. -/
def lineRun (i : Instr) : List Move := lineCmd i ++ lineWait 0

/-- Moves made one after another, up to the first fault or refusal. -/
def runMoves : List Move → State → Outcome
  | [], s => .next s
  | m :: ms, s =>
    match perform m s with
    | .next s' => runMoves ms s'
    | .fault f => .fault f
    | .refused r => .refused r

/-! ### Frequency analysis (R110) -/

/-- One symbol counted. -/
def countSymbol (f : Table Word) (x : Byte) : Table Word := f.put x (f.at x + 1)

/-- `Analyze(S)` (R110); `none` is EmptyInputError. An input has fewer than 2^32 bytes, so no count wraps. -/
def analyze (input : List Byte) : Option (Table Word) :=
  if input = [] then none else some (input.foldl countSymbol noCounts)

/-- The 256 FREQ writes `WRF 0, F[0] ... WRF 255, F[255]` (R110, R111). -/
def loadFreq (f : Table Word) : List Move := f.pairs.flatMap fun p => lineWrf p.1 p.2

/-! ### Errors the host reports (R113) -/

/-- The source's error taxonomy, and the host's own failures, which have no counterpart there (R113). -/
inductive HostError where
  | emptyInputError
  | formatError
  | decodeError
  | unknownSymbolError
  | hostFailure (errCode : BitVec 4)
  deriving DecidableEq, Repr

/-- The source error an ERRCODE stands for (R113). -/
def hostErrorOf (c : BitVec 4) : HostError :=
  if c = Err.code .emptyInput then .emptyInputError
  else if c = Err.code .format then .formatError
  else if c = Err.code .decode then .decodeError
  else if c = Err.code .unknownSymbol then .unknownSymbolError
  else .hostFailure c

/-- How a host sequence ends. -/
inductive SeqResult where
  /-- It ran to its end; the result lies in DMEM at `base` for `len` bytes. -/
  | done (s : State) (base len : Nat)
  /-- It stopped at an error, which the host reports. -/
  | failed (e : HostError) (s : State)
  /-- A move of it ended in a fault or a refusal. -/
  | stopped (o : Outcome)
  deriving Repr

/-- A stretch of moves ended by a WAIT: go on when STATUS.ERR is 0, else stop and report ERRCODE (R111, R112). -/
def stage (ms : List Move) (k : State → SeqResult) (s : State) : SeqResult :=
  match runMoves ms s with
  | .next s' => if s'.status.err then .failed (hostErrorOf s'.status.errCode) s' else k s'
  | .fault f => .stopped (.fault f)
  | .refused r => .stopped (.refused r)

/-- The bytes among the last `n` replies, oldest first: what `DMR` of `n` bytes has just read. -/
def lastBytes (s : State) (n : Nat) : List Byte :=
  (s.replies.drop (s.replies.length - n)).filterMap fun r =>
    match r with
    | .byte b => some b
    | .word _ => none

/-- The word a REG read has just returned; 0 when the last reply is none. -/
def lastWord (s : State) : Word :=
  match s.replies.getLast? with
  | some (.word v) => v
  | _ => 0

/-- The four operand writes before a transfer (R111, R112). -/
def loadRegions (src srcLen dst dstCap : Word) : List Move :=
  lineWr offSrcBase src ++ lineWr offSrcLen srcLen ++ lineWr offDstBase dst ++ lineWr offDstCap dstCap

/-- A register read whose word the host goes on with. -/
def readWord (o : Nat) (k : Word → State → SeqResult) (s : State) : SeqResult :=
  match runMoves (lineRd o) s with
  | .next s' => k (lastWord s') s'
  | .fault f => .stopped (.fault f)
  | .refused r => .stopped (.refused r)

/-- `COMPRESS IN, N, TMP, TCAP, OUT, OCAP` (R111). -/
def compress (inp n tmp tcap out ocap : Word) (s : State) : SeqResult :=
  match runMoves (lineDmr inp.toNat n.toNat) s with
  | .fault f => .stopped (.fault f)
  | .refused r => .stopped (.refused r)
  | .next s =>
    match analyze (lastBytes s n.toNat) with
    | none => .failed .emptyInputError s
    | some f =>
      stage (loadFreq f ++ lineRun .build)
        (stage (lineRun .gencode)
          (stage (loadRegions inp n tmp tcap ++ lineRun .pack)
            (readWord offDstLen fun p =>
              stage (loadRegions tmp p out ocap ++ lineRun .serialize)
                (fun s => .done s out.toNat s.dstLen.toNat)))) s

/-- `DECOMPRESS IN, N, OUT, OCAP` (R112). DESIGN CHOICE (log entry 23): `IN + O` is a 32-bit sum. It wraps, to 0, only
where an empty payload ends at the address 2^32, which no SRC_BASE can hold and of which R8, R112 and R134 say nothing. -/
def decompress (inp n out ocap : Word) (s : State) : SeqResult :=
  stage (lineWr offSrcBase inp ++ lineWr offSrcLen n ++ lineRun .deserialize)
    (stage (lineRun .build)
      (stage (lineRun .gencode)
        (readWord offPayloadOff fun o =>
          readWord offPayloadLen fun l =>
            stage (loadRegions (inp + o) l out ocap ++ lineRun .unpack)
              (fun s => .done s out.toNat s.dstLen.toNat)))) s

end Sys2Proof.Machine
end

