-- ==== Sys2Proof/Safety.lean ====
section
/-! DEFINITION. What counts as a safe state, in the words claims use: the invariants the spec states for the whole
machine (10_state.md R21, R25, R35, R36), and the notions its properties speak of (R70, R77, R79, R82, R83). -/

namespace Sys2Proof.Machine

/-! ### Invariants -/

/-- The invariant of STATUS (R21), with the range of ERRCODE (60_exceptions.md R115) and a pending command while
BUSY = 1 (R17). -/
structure Status.Legal (st : Status) : Prop where
  busy_clear : st.busy = true → st.done = false ∧ st.err = false ∧ st.errCode = 0#4
  err_iff : st.err = true ↔ st.errCode ≠ 0#4
  errCode_le : st.errCode.toNat ≤ 8
  busy_command : st.busy = true → ∃ i, ofOpcode st.lastOp = some i

/-- What TREE_VALID means (R25, R35, R36): with it, the arena and its extent are what BUILD computes from the current
FREQ; without it, the extent is 0. -/
structure State.TreeCurrent (s : State) : Prop where
  nonempty : s.status.treeValid = true → freqList s.freq ≠ []
  leafCount : s.status.treeValid = true → s.leafCount.toNat = (freqList s.freq).length
  nodeCount : s.status.treeValid = true → s.nodeCount.toNat = 2 * (freqList s.freq).length - 1
  root : s.status.treeValid = true → s.root.toNat = 2 * (freqList s.freq).length - 2
  records : s.status.treeValid = true → ∀ i, i < s.nodeCount.toNat → s.node.at i = nodeOf (buildArena (freqList s.freq)) i
  invalid : s.status.treeValid = false → s.root = 0 ∧ s.nodeCount = 0 ∧ s.leafCount = 0

/-- What CODES_VALID means (R33, R35, R36): with it, the tree is valid and the table is what GENCODE computes from the
arena; without it, every codeword is empty. -/
structure State.CodesCurrent (s : State) : Prop where
  tree : s.status.codesValid = true → s.status.treeValid = true
  table : s.status.codesValid = true → s.code = codeTable s.node s.root.toNat
  maxLen : s.status.codesValid = true → s.maxCodeLen = BitVec.ofNat 8 (maxLength s.code)
  invalid : s.status.codesValid = false → s.code = noCodes ∧ s.maxCodeLen = 0

/-- A safe state: the parameter in its range (00_scope.md R6), DMEM in canonical form and below `DMEM_SIZE`
(20_memory.md R42), STATUS, tree and codes as above. -/
structure State.Inv (s : State) : Prop where
  config : s.cfg.legal
  mem_wf : s.mem.wf = true
  mem_below : s.mem.below s.cfg.dmemSize = true
  status : s.status.Legal
  tree : s.TreeCurrent
  codes : s.CodesCurrent

/-! ### Notions of the properties -/

/-- The order of R70 on the records of an arena: weight first, then index. -/
def keyBelow (v : Arena) (i j : Nat) : Prop :=
  (v.at i).weight.toNat < (v.at j).weight.toNat ∨ ((v.at i).weight.toNat = (v.at j).weight.toNat ∧ i < j)

/-- Record `k` is still in the worklist when internal node `i` is made from an arena of `n` leaves: it exists and no
internal node before `i` has it as a child (R71). -/
def unmerged (v : Arena) (n i k : Nat) : Prop :=
  k < i ∧ ∀ m, n ≤ m → m < i → (v.at m).left.toNat ≠ k ∧ (v.at m).right.toNat ≠ k

/-- The record a path leads to from record `i`: left for a 0 bit, right for a 1 bit; a leaf has no children (R79). -/
def follow (v : Arena) : Nat → Bits → Option Nat
  | i, [] => some i
  | i, b :: p =>
    if (v.at i).tag then follow v (if b then (v.at i).right.toNat else (v.at i).left.toNat) p else none

/-- No codeword is a prefix of another (R82). -/
def prefixFree (c : Table Bits) : Prop :=
  ∀ a b, a ≠ b → c.at a ≠ [] → c.at b ≠ [] → ¬ c.at a <+: c.at b

/-- The sum over symbols of 2^(-length), times 2^255 (R83); no codeword is longer than 255 bits. -/
def kraftSum (c : Table Bits) : Nat :=
  (c.toList.map fun b => if b = [] then 0 else 2 ^ (255 - b.length)).sum

/-- The sum of all counts (R74). -/
def totalCount (f : Table Word) : Nat := ((freqList f).map fun e => e.2.toNat).sum

/-- The sum of the counts of the leaves beneath record `i` (R74), at most `fuel` levels down. -/
def countBelow (f : Table Word) (v : Arena) : Nat → Nat → Nat
  | 0, _ => 0
  | fuel + 1, i =>
    if (v.at i).tag then countBelow f v fuel (v.at i).left.toNat + countBelow f v fuel (v.at i).right.toNat
    else (f.at (v.at i).sym).toNat

/-- STATUS as a completion with ERRCODE `c` leaves it (45_host_interface.md R109), the valid bits being `tree` and
`codes` after it; DROP and LASTOP stay. -/
def completed (st : Status) (tree codes : Bool) (c : BitVec 4) : Status :=
  { st with busy := false, done := true, err := c != 0#4, errCode := c, treeValid := tree, codesValid := codes }

/-- Two regions have no address in common (R48). -/
def disjointRegions (a la b lb : Word) : Prop :=
  ∀ x, ¬ (a.toNat ≤ x ∧ x < a.toNat + la.toNat ∧ b.toNat ≤ x ∧ x < b.toNat + lb.toNat)

end Sys2Proof.Machine
end

