-- ==== Sys2Proof/Certificates/Slice0/Obligations.lean ====
section
/-! DEFINITION. The statements about the model, for the provers. Each docstring names the rules of spec/ it formalises
or, where it rests on a choice of the model, the log entry. -/

open Sys2Proof Sys2Proof.Machine

/-! ### Encoding -/

/-- R59, the opcode map: each command word decodes to its command, each reserved opcode to none. -/
def Obligations.OpcodeMapDecodes : Prop :=
  decode 0x00000001#32 = .ok .build ∧ decode 0x00000002#32 = .ok .gencode ∧ decode 0x00000003#32 = .ok .pack ∧
  decode 0x00000004#32 = .ok .unpack ∧ decode 0x00000005#32 = .ok .serialize ∧
  decode 0x00000006#32 = .ok .deserialize ∧
  decode 0x00000000#32 = .error (.reservedOpcode 0#4) ∧
  ∀ op : BitVec 4, 7 ≤ op.toNat → decode (0#28 ++ op) = .error (.reservedOpcode op)

/-- Decoder and encoder agree both ways, and the decoder accepts exactly the words R60 does not call illegal. -/
def Obligations.DecodeInvertsEncode : Prop :=
  (∀ i : Instr, i.wellFormed = true → decode (encode i) = .ok i) ∧
  (∀ (v : Word) (i : Instr), decode v = .ok i → v = encode i) ∧
  (∀ v : Word, legalCommandWord v = true ↔ ∃ i, decode v = .ok i)

/-! ### The two agents -/

/-- R109: with BUSY = 1 the engine's turn runs the command LASTOP names; with BUSY = 0 it changes nothing. The engine
has its turn when the inbox is empty or begins with it (log entry 3). -/
def Obligations.StepRunsThePendingCommand : Prop :=
  (∀ (s : State) (i : Instr), s.status.busy = true → ofOpcode s.status.lastOp = some i →
    (s.inbox = [] → step s = exec i s) ∧
    (∀ ms, s.inbox = .engine :: ms → step s = exec i { s with inbox := ms })) ∧
  (∀ s : State, s.status.busy = false →
    (s.inbox = [] → step s = .next s) ∧
    (∀ ms, s.inbox = .engine :: ms → step s = .next { s with inbox := ms }))

/-- A host write of a word that decodes to a command, then the engine's turn, runs that command (R108, R17, R109). -/
def Obligations.AcceptedWordRunsItsCommand : Prop :=
  ∀ (s : State) (v : Word) (i : Instr) (ms : List Move), s.status.busy = false → decode v = .ok i →
    s.inbox = .host (.regWrite 32 0x004 v) :: .engine :: ms →
    ∃ t, step s = .next t ∧ t.status.busy = true ∧ step t = exec i { t with inbox := ms }

/-- `withFetchWord` stands for the host's write of the word to an idle CMD (log entry 5): the very next step runs the
command, at the state it leaves, and nothing but STATUS and the inbox differs. -/
def Obligations.FetchWordRunsItsCommand : Prop :=
  ∀ (s : State) (i : Instr),
    (s.withFetchWord 32 (encode i).toNat) =
      { s with status := (s.withFetchWord 32 (encode i).toNat).status,
               inbox := (s.withFetchWord 32 (encode i).toNat).inbox } ∧
    (s.inbox = [] → step (s.withFetchWord 32 (encode i).toNat) = exec i (s.withFetchWord 32 (encode i).toNat)) ∧
    (∀ m ms, s.inbox = m :: ms →
      step (s.withFetchWord 32 (encode i).toNat) =
        exec i { s.withFetchWord 32 (encode i).toNat with inbox := m :: ms })

/-- R108: acceptance of a word written to CMD while BUSY = 0; while BUSY = 1 it is not accepted and sets DROP alone. A
legal word is one that `v[31:4] ≠ 0 or v[3:0] not in 1..6` does not name. -/
def Obligations.CommandWriteIsAccepted : Prop :=
  ∀ (s : State) (v : Word) (ms : List Move), s.inbox = .host (.regWrite 32 0x004 v) :: ms →
    let legal := decide (v.toNat / 16 = 0 ∧ 1 ≤ v.toNat % 16 ∧ v.toNat % 16 ≤ 6)
    (s.status.busy = false →
      step s = .next { s with
        inbox := ms
        status := { s.status with
          busy := legal
          done := !legal
          err := !legal
          errCode := if legal then 0#4 else 8#4
          drop := false
          lastOp := v.extractLsb' 0 4 } }) ∧
    (s.status.busy = true → step s = .next { s with inbox := ms, status := { s.status with drop := true } })

/-! ### The host's accesses -/

/-- R45: a REG access that is not an aligned 32-bit word below 0x8000 is the fault BadHostAccess. -/
def Obligations.IllegalRegisterAccessFaults : Prop :=
  ∀ (s : State) (bits o : Nat) (v : Word) (ms : List Move), (bits ≠ 32 ∨ o % 4 ≠ 0 ∨ 0x8000 ≤ o) →
    (s.inbox = .host (.regRead bits o) :: ms → step s = .fault .badHostAccess) ∧
    (s.inbox = .host (.regWrite bits o v) :: ms → step s = .fault .badHostAccess)

/-- R103: a REG read at a legal offset changes nothing and returns the word of the register map (R18), whether or not
a command is in flight. The answer joins the model's own list of replies (log entry 4). -/
def Obligations.RegisterReadReturnsTheMappedWord : Prop :=
  ∀ (s : State) (o : Nat) (ms : List Move), o % 4 = 0 → o < 0x8000 → s.inbox = .host (.regRead 32 o) :: ms →
    ∃ v, step s = .next { s with inbox := ms, replies := s.replies ++ [.word v] } ∧
      (o = 0x000 → v = 0x48554631#32) ∧ (o = 0x004 → v = 0) ∧ (o = 0x008 → v = s.status.word) ∧
      (o = 0x00C → v = s.srcBase) ∧ (o = 0x010 → v = s.srcLen) ∧ (o = 0x014 → v = s.dstBase) ∧
      (o = 0x018 → v = s.dstCap) ∧ (o = 0x01C → v = s.dstLen) ∧ (o = 0x020 → v.toNat = s.padding.toNat) ∧
      (o = 0x024 → v.toNat = s.root.toNat) ∧ (o = 0x028 → v.toNat = s.nodeCount.toNat) ∧
      (o = 0x02C → v.toNat = s.leafCount.toNat) ∧ (o = 0x030 → v = s.hdrLen) ∧ (o = 0x034 → v = s.payloadOff) ∧
      (o = 0x038 → v = s.payloadLen) ∧ (o = 0x03C → v.toNat = s.maxCodeLen.toNat) ∧
      (∀ x : Byte, o = 0x400 + 4 * x.toNat → v = s.freq.at x) ∧
      (∀ x : Byte, o = 0x800 + 4 * x.toNat → v = s.readReg (.codeLen x)) ∧
      (∀ (x : Byte) (w : Nat), w < 8 → o = 0x1000 + 32 * x.toNat + 4 * w → v = s.readReg (.codeBits x w)) ∧
      (∀ i, i < 511 → (o = 0x3000 + 16 * i → v = s.readReg (.nodeInfo i)) ∧
        (o = 0x3004 + 16 * i → v = s.readReg (.nodeWlo i)) ∧
        (o = 0x3008 + 16 * i → v = s.readReg (.nodeWhi i)) ∧
        (o = 0x300C + 16 * i → v = s.readReg (.nodeKids i))) ∧
      ((0x040 ≤ o ∧ o < 0x400) ∨ (0xC00 ≤ o ∧ o < 0x1000) ∨ 0x4FF0 ≤ o → v = 0)

/-- R21, the fields of the STATUS word. -/
def Obligations.StatusWordLaysOutItsFields : Prop :=
  ∀ st : Status,
    st.word.getLsbD 0 = st.busy ∧ st.word.getLsbD 1 = st.done ∧ st.word.getLsbD 2 = st.err ∧
    st.word.getLsbD 3 = st.treeValid ∧ st.word.getLsbD 4 = st.codesValid ∧ st.word.getLsbD 5 = st.drop ∧
    st.word.extractLsb' 6 2 = 0#2 ∧ st.word.extractLsb' 8 4 = st.errCode ∧
    st.word.extractLsb' 12 4 = st.lastOp ∧ st.word.extractLsb' 16 16 = 0#16

/-- R32: the four words of an arena record. -/
def Obligations.NodeReadbackWords : Prop :=
  ∀ (s : State) (i : Nat),
    (s.status.treeValid = true → i < s.nodeCount.toNat →
      (s.readReg (.nodeInfo i)).toNat = (s.node.at i).sym.toNat * 2 ^ 8 + (s.node.at i).tag.toNat ∧
      (s.readReg (.nodeWlo i)).toNat = (s.node.at i).weight.toNat % 2 ^ 32 ∧
      (s.readReg (.nodeWhi i)).toNat = (s.node.at i).weight.toNat / 2 ^ 32 ∧
      (s.readReg (.nodeKids i)).toNat = (s.node.at i).right.toNat * 2 ^ 16 + (s.node.at i).left.toNat) ∧
    (¬ (s.status.treeValid = true ∧ i < s.nodeCount.toNat) →
      s.readReg (.nodeInfo i) = 0 ∧ s.readReg (.nodeWlo i) = 0 ∧ s.readReg (.nodeWhi i) = 0 ∧
        s.readReg (.nodeKids i) = 0)

/-- R34: the readback of a codeword, bit `j` at word `j div 32`, bit `31 - (j mod 32)`, zeros past its end. -/
def Obligations.CodeReadbackBits : Prop :=
  ∀ (s : State) (x : Byte), (s.code.at x).length ≤ 255 →
    (s.readReg (.codeLen x)).toNat = (s.code.at x).length ∧
    ∀ j, j < 256 → (s.readReg (.codeBits x (j / 32))).getLsbD (31 - j % 32) = (s.code.at x).getD j false

/-- R104: a REG write at a legal offset while BUSY = 0, but for CMD and FREQ, which have statements of their own. -/
def Obligations.RegisterWriteWhileIdle : Prop :=
  ∀ (s : State) (o : Nat) (v : Word) (ms : List Move), o % 4 = 0 → o < 0x8000 → s.status.busy = false →
    s.inbox = .host (.regWrite 32 o v) :: ms →
    (o = 0x00C → step s = .next { s with inbox := ms, srcBase := v }) ∧
    (o = 0x010 → step s = .next { s with inbox := ms, srcLen := v }) ∧
    (o = 0x014 → step s = .next { s with inbox := ms, dstBase := v }) ∧
    (o = 0x018 → step s = .next { s with inbox := ms, dstCap := v }) ∧
    (o = 0x020 → step s = .next { s with inbox := ms, padding := v.extractLsb' 0 3 }) ∧
    (o ≠ 0x004 → o ≠ 0x00C → o ≠ 0x010 → o ≠ 0x014 → o ≠ 0x018 → o ≠ 0x020 → (o < 0x400 ∨ 0x800 ≤ o) →
      step s = .next { s with inbox := ms })

/-- R105: while BUSY = 1 a REG write changes nothing, but a CMD write sets DROP. -/
def Obligations.RegisterWriteWhileBusy : Prop :=
  ∀ (s : State) (o : Nat) (v : Word) (ms : List Move), o % 4 = 0 → o < 0x8000 → s.status.busy = true →
    s.inbox = .host (.regWrite 32 o v) :: ms →
    (o = 0x004 → step s = .next { s with inbox := ms, status := { s.status with drop := true } }) ∧
    (o ≠ 0x004 → step s = .next { s with inbox := ms })

/-- R106: a FREQ write while BUSY = 0 stores the full word and invalidates the tree and the codes, whatever the old
value was. -/
def Obligations.FreqWriteInvalidates : Prop :=
  ∀ (s : State) (x : Byte) (v : Word) (ms : List Move), s.status.busy = false →
    s.inbox = .host (.regWrite 32 (0x400 + 4 * x.toNat) v) :: ms →
    ∃ t, step s = .next t ∧
      t = { s with
        inbox := ms
        freq := t.freq
        status := { s.status with treeValid := false, codesValid := false }
        code := t.code
        maxCodeLen := 0
        root := 0
        nodeCount := 0
        leafCount := 0 } ∧
      (∀ y, t.freq.at y = if y = x then v else s.freq.at y) ∧ (∀ y, t.code.at y = []) ∧
      ∀ i, t.readReg (.nodeInfo i) = 0 ∧ t.readReg (.nodeWlo i) = 0 ∧ t.readReg (.nodeWhi i) = 0 ∧
        t.readReg (.nodeKids i) = 0

/-- R107: the outcomes of a host DMEM access, in their order, with the active regions of each pending command. What a
read answers joins the model's own list of replies (log entry 4). -/
def Obligations.DmemAccessOutcomes : Prop :=
  ∀ (s : State) (a : Nat) (b : Byte) (ms : List Move),
    let src := s.srcBase.toNat ≤ a ∧ a < s.srcBase.toNat + s.srcLen.toNat
    let dst := s.dstBase.toNat ≤ a ∧ a < s.dstBase.toNat + s.dstCap.toNat
    let active := s.status.busy = true ∧
      (((s.status.lastOp = 3#4 ∨ s.status.lastOp = 4#4 ∨ s.status.lastOp = 5#4) ∧ (src ∨ dst)) ∨
        (s.status.lastOp = 6#4 ∧ src))
    (s.inbox = .host (.dmemRead a) :: ms →
      (s.cfg.dmemSize ≤ a → step s = .fault .badHostAccess) ∧
      (a < s.cfg.dmemSize → active → step s = .fault .hostRace) ∧
      (a < s.cfg.dmemSize → ¬ active →
        step s = match s.mem.read a with
          | some x => .next { s with inbox := ms, replies := s.replies ++ [.byte x] }
          | none => .fault .uninitRead)) ∧
    (s.inbox = .host (.dmemWrite a b) :: ms →
      (s.cfg.dmemSize ≤ a → step s = .fault .badHostAccess) ∧
      (a < s.cfg.dmemSize → active → step s = .fault .hostRace) ∧
      (a < s.cfg.dmemSize → ¬ active →
        ∃ t, step s = .next t ∧ t = { s with inbox := ms, mem := t.mem } ∧
          ∀ a', t.mem.read a' = if a' = a then some b else s.mem.read a'))

/-! ### Reset -/

/-- R39: the state after reset. The parameter's value and the two fields of the model's own are choices (log entries
1, 3, 4) and are not stated here. -/
def Obligations.ResetStateValues : Prop :=
  State.reset.readReg .id = 0x48554631#32 ∧ State.reset.status.word = 0 ∧
  State.reset.srcBase = 0 ∧ State.reset.srcLen = 0 ∧ State.reset.dstBase = 0 ∧ State.reset.dstCap = 0 ∧
  State.reset.dstLen = 0 ∧ State.reset.padding = 0 ∧
  State.reset.root = 0 ∧ State.reset.nodeCount = 0 ∧ State.reset.leafCount = 0 ∧
  State.reset.hdrLen = 0 ∧ State.reset.payloadOff = 0 ∧ State.reset.payloadLen = 0 ∧ State.reset.maxCodeLen = 0 ∧
  (∀ x, State.reset.freq.at x = 0) ∧ (∀ x, State.reset.code.at x = []) ∧
  (∀ i, State.reset.readReg (.nodeInfo i) = 0 ∧ State.reset.readReg (.nodeWlo i) = 0 ∧
    State.reset.readReg (.nodeWhi i) = 0 ∧ State.reset.readReg (.nodeKids i) = 0) ∧
  (∀ a, State.reset.mem.read a = none) ∧ State.reset.status.busy = false

/-- R127 and R128: the reset input sets every register and table to its reset value, aborts a pending command without
any of its effects, and keeps DMEM but for the destination of a PACK, UNPACK or SERIALIZE it aborts. That the parameter, the moves to come and
the replies stay is the model's choice (log entry 20). -/
def Obligations.ResetInputAbortsAndKeepsMemory : Prop :=
  ∀ (s : State) (ms : List Move), s.inbox = .host .reset :: ms →
    ∃ t, step s = .next t ∧
      t = { State.reset with cfg := s.cfg, mem := t.mem, inbox := ms, replies := s.replies } ∧
      ∀ a, t.mem.read a =
        if s.status.busy = true ∧ (s.status.lastOp = 3#4 ∨ s.status.lastOp = 4#4 ∨ s.status.lastOp = 5#4) ∧
            s.dstBase.toNat ≤ a ∧ a < s.dstBase.toNat + s.dstCap.toNat
        then none else s.mem.read a

/-! ### Invariants of the whole machine -/

/-- The invariants hold at reset (with the parameter of log entry 1). -/
def Obligations.InvariantsHoldAtReset : Prop := State.reset.Inv

/-- Every step keeps the invariants: DMEM canonical and in bounds, STATUS legal (R21), the tree what BUILD computes
from the current FREQ while TREE_VALID = 1 and the codes what GENCODE computes from it while CODES_VALID = 1 (R35). -/
def Obligations.StepKeepsInvariants : Prop :=
  ∀ s t : State, s.Inv → step s = .next t → t.Inv

/-- A command completes with BUSY = 0 and DONE = 1, ERR exactly when ERRCODE is not 0, and an ERRCODE R115 lets that
command raise; DROP and LASTOP stay. -/
def Obligations.CompletionStatus : Prop :=
  ∀ (i : Instr) (s t : State), exec i s = .next t →
    t.status.busy = false ∧ t.status.done = true ∧ (t.status.err = true ↔ t.status.errCode ≠ 0#4) ∧
    t.status.drop = s.status.drop ∧ t.status.lastOp = s.status.lastOp ∧
    t.status.errCode ∈ (match i with
      | .build => [0#4, 1#4]
      | .gencode => [0#4, 7#4]
      | .pack => [0#4, 7#4, 5#4, 1#4, 4#4, 6#4]
      | .unpack => [0#4, 7#4, 5#4, 3#4, 6#4]
      | .serialize => [0#4, 5#4, 1#4, 6#4]
      | .deserialize => [0#4, 5#4, 2#4])

/-- From a safe state with a command pending and the engine to move, one step completes the command or meets a source
byte that holds no value; it does nothing else (R136, R50). -/
def Obligations.PendingCommandCompletes : Prop :=
  ∀ s : State, s.Inv → s.status.busy = true → s.inbox = [] →
    (∃ t, step s = .next t ∧ t.status.busy = false ∧ t.status.done = true) ∨
    (step s = .fault .uninitRead ∧ s.source = none)

/-- No command writes SRC_BASE, SRC_LEN, DST_BASE or DST_CAP (R22, R23) or the parameter; PADDING changes only by a PACK
or DESERIALIZE that succeeds (R24), DST_LEN only by PACK, UNPACK or SERIALIZE (R23), FREQ only by a DESERIALIZE that
succeeds, the arena only by a BUILD that succeeds (R61). The other result registers and the codes are in the frames. -/
def Obligations.CommandsKeepOperandRegisters : Prop :=
  ∀ (i : Instr) (s t : State), exec i s = .next t →
    t.cfg = s.cfg ∧ t.srcBase = s.srcBase ∧ t.srcLen = s.srcLen ∧ t.dstBase = s.dstBase ∧ t.dstCap = s.dstCap ∧
    t.inbox = s.inbox ∧ t.replies = s.replies ∧
    (t.padding ≠ s.padding → (i = .pack ∨ i = .deserialize) ∧ t.status.err = false) ∧
    (t.dstLen ≠ s.dstLen → i = .pack ∨ i = .unpack ∨ i = .serialize) ∧
    (t.freq ≠ s.freq → i = .deserialize ∧ t.status.err = false) ∧
    (t.node ≠ s.node → i = .build ∧ t.status.err = false)

/-- In a state where some source byte holds no value, PACK, UNPACK, SERIALIZE and DESERIALIZE are the fault UninitRead
exactly when no check before their MemRead fails; one that ends with an error before it is not (R50). -/
def Obligations.CommandReadOfUnwrittenByte : Prop :=
  ∀ s : State, s.source = none →
    (exec .pack s = .fault .uninitRead ↔
      s.status.codesValid = true ∧ s.regionsOk = true ∧ s.srcLen.toNat ≠ 0) ∧
    (exec .unpack s = .fault .uninitRead ↔
      s.status.codesValid = true ∧ s.regionsOk = true ∧ s.padding.toNat ≤ 8 * s.srcLen.toNat) ∧
    (exec .serialize s = .fault .uninitRead ↔
      s.regionsOk = true ∧ freqList s.freq ≠ [] ∧
        4 + (headerText (freqList s.freq) s.padding).length + s.srcLen.toNat ≤ s.dstCap.toNat) ∧
    (exec .deserialize s = .fault .uninitRead ↔ s.srcOk = true ∧ 4 ≤ s.srcLen.toNat)

/-! ### BUILD -/

/-- BUILD completes on every non-empty FREQ (R75): the leaves in ascending symbol order (R68), the internal nodes
behind them, ROOT, NODE_COUNT and LEAF_COUNT (R25, R72), TREE_VALID set, the codes invalidated, nothing else. -/
def Obligations.BuildCompletes : Prop :=
  ∀ s : State, freqList s.freq ≠ [] →
    ∃ t, exec .build s = .next t ∧
      t = { s with
        status := completed s.status true false 0#4
        node := t.node, root := t.root, nodeCount := t.nodeCount, leafCount := t.leafCount
        code := t.code, maxCodeLen := 0 } ∧
      t.leafCount.toNat = (freqList s.freq).length ∧
      t.nodeCount.toNat = 2 * (freqList s.freq).length - 1 ∧
      t.root.toNat = 2 * (freqList s.freq).length - 2 ∧
      (∀ k (h : k < (freqList s.freq).length),
        t.node.at k = ⟨false, (freqList s.freq)[k].1, (freqList s.freq)[k].2.setWidth 40, 0, 0⟩) ∧
      (∀ i, (freqList s.freq).length ≤ i → i < 2 * (freqList s.freq).length - 1 →
        (t.node.at i).tag = true ∧ (t.node.at i).sym = 0) ∧
      (∀ i, 2 * (freqList s.freq).length - 1 ≤ i → t.node.at i = s.node.at i) ∧
      ∀ x, t.code.at x = []

/-- BUILD of an empty FREQ fails with EMPTY_INPUT and leaves tree and codes invalid (R75, R118). -/
def Obligations.BuildOfEmptyTableFails : Prop :=
  ∀ s : State, (∀ x, s.freq.at x = 0) →
    ∃ t, exec .build s = .next t ∧
      t = { s with
        status := completed s.status false false 1#4
        root := 0, nodeCount := 0, leafCount := 0, code := t.code, maxCodeLen := 0 } ∧
      ∀ x, t.code.at x = []

/-- R71: each merge takes, in this order, the two nodes of the worklist with the smallest keys (R70); the new node is
internal, its children are they, left first, and its weight is their exact sum; it takes the next arena index, so n
leaves make 2n - 1 records by n - 1 merges. -/
def Obligations.BuildMergesTheTwoSmallest : Prop :=
  ∀ s t : State, exec .build s = .next t → t.status.treeValid = true →
    t.nodeCount.toNat + 1 = 2 * t.leafCount.toNat ∧ t.nodeCount.toNat ≤ 511 ∧
    ∀ i, t.leafCount.toNat ≤ i → i < t.nodeCount.toNat →
      (t.node.at i).tag = true ∧ (t.node.at i).sym = 0 ∧
      unmerged t.node t.leafCount.toNat i (t.node.at i).left.toNat ∧
      unmerged t.node t.leafCount.toNat i (t.node.at i).right.toNat ∧
      (t.node.at i).left ≠ (t.node.at i).right ∧
      (∀ k, unmerged t.node t.leafCount.toNat i k → k ≠ (t.node.at i).left.toNat →
        keyBelow t.node (t.node.at i).left.toNat k) ∧
      (∀ k, unmerged t.node t.leafCount.toNat i k → k ≠ (t.node.at i).left.toNat → k ≠ (t.node.at i).right.toNat →
        keyBelow t.node (t.node.at i).right.toNat k) ∧
      (t.node.at i).weight.toNat =
        (t.node.at (t.node.at i).left.toNat).weight.toNat + (t.node.at (t.node.at i).right.toNat).weight.toNat

/-- R73: one symbol makes a single leaf and no merge. -/
def Obligations.BuildOfOneSymbol : Prop :=
  ∀ (s : State) (x : Byte) (c : Word), c ≠ 0 → (∀ y, s.freq.at y = if y = x then c else 0) →
    ∃ t, exec .build s = .next t ∧ t.status.treeValid = true ∧ t.root = 0 ∧ t.nodeCount = 1 ∧ t.leafCount = 1 ∧
      t.node.at 0 = ⟨false, x, c.setWidth 40, 0, 0⟩

/-- R74: every weight is the exact integer sum of the counts of the leaves beneath its node, at most 256·(2^32 − 1) and
so below 2^40; the root's is the sum of all counts. -/
def Obligations.WeightsAreExact : Prop :=
  ∀ s t : State, exec .build s = .next t → t.status.treeValid = true →
    (∀ i, i < t.nodeCount.toNat →
      (t.node.at i).weight.toNat = countBelow s.freq t.node maxNodes i ∧
      (t.node.at i).weight.toNat ≤ 256 * (2 ^ 32 - 1)) ∧
    (t.node.at t.root.toNat).weight.toNat = totalCount s.freq

/-- R76: BUILD is a function of FREQ alone. -/
def Obligations.BuildDependsOnFreqAlone : Prop :=
  ∀ s s' t t' : State, s.freq = s'.freq → exec .build s = .next t → exec .build s' = .next t' →
    t.root = t'.root ∧ t.nodeCount = t'.nodeCount ∧ t.leafCount = t'.leafCount ∧
    t.status.treeValid = t'.status.treeValid ∧ t.status.errCode = t'.status.errCode ∧
    ∀ i, i < t.nodeCount.toNat → t.node.at i = t'.node.at i

/-- R77: the shape of every arena BUILD produces. -/
def Obligations.BuiltArenaIsATree : Prop :=
  ∀ s t : State, exec .build s = .next t → t.status.treeValid = true →
    (∀ i, i < t.nodeCount.toNat → ((t.node.at i).tag = true ↔ t.leafCount.toNat ≤ i)) ∧
    (∀ i, i < t.nodeCount.toNat → (t.node.at i).tag = true →
      (t.node.at i).left.toNat < i ∧ (t.node.at i).right.toNat < i ∧ (t.node.at i).left ≠ (t.node.at i).right) ∧
    (∀ k, k < t.nodeCount.toNat → k ≠ t.root.toNat →
      ∃ i, (i < t.nodeCount.toNat ∧ (t.node.at i).tag = true ∧
          ((t.node.at i).left.toNat = k ∨ (t.node.at i).right.toNat = k)) ∧
        ∀ j, j < t.nodeCount.toNat → (t.node.at j).tag = true →
          ((t.node.at j).left.toNat = k ∨ (t.node.at j).right.toNat = k) → j = i) ∧
    t.root.toNat = 2 * t.leafCount.toNat - 2 ∧
    (∀ p k, follow t.node t.root.toNat p = some k → p.length ≤ t.leafCount.toNat - 1) ∧
    t.leafCount.toNat - 1 ≤ 255

/-! ### GENCODE -/

/-- GENCODE completes whenever TREE_VALID = 1 and writes CODE, MAX_CODE_LEN and CODES_VALID, nothing else (R84). That
MAX_CODE_LEN holds the largest length modulo 256 is the model's reading of the register's width (log entry 21); in a
safe state it is the length itself, which CodewordLengths states. -/
def Obligations.GencodeCompletes : Prop :=
  ∀ s : State, s.status.treeValid = true →
    ∃ t, exec .gencode s = .next t ∧
      t = { s with status := completed s.status true true 0#4, code := t.code, maxCodeLen := t.maxCodeLen } ∧
      (∀ x, (t.code.at x).length ≤ maxLength t.code) ∧ (∃ x, (t.code.at x).length = maxLength t.code) ∧
      t.maxCodeLen.toNat = maxLength t.code % 256

/-- GENCODE without a valid tree fails with NOT_READY and leaves the codes invalid (R84, R118). -/
def Obligations.GencodeWithoutTreeFails : Prop :=
  ∀ s : State, s.status.treeValid = false →
    ∃ t, exec .gencode s = .next t ∧
      t = { s with status := completed s.status false false 7#4, code := t.code, maxCodeLen := 0 } ∧
      ∀ x, t.code.at x = []

/-- R79: in a tree of two leaves or more, a bit string is the codeword of a symbol exactly when it is the path from the
root to that symbol's leaf. -/
def Obligations.CodewordsAreRootToLeafPaths : Prop :=
  ∀ s t : State, s.Inv → exec .gencode s = .next t → s.status.treeValid = true → 2 ≤ s.leafCount.toNat →
    ∀ (x : Byte) (p : Bits), (t.code.at x = p ∧ p ≠ []) ↔
      ∃ k, follow s.node s.root.toNat p = some k ∧ (s.node.at k).tag = false ∧ (s.node.at k).sym = x

/-- R80: when the root is a leaf, its symbol gets the one-bit codeword "0" and no other symbol gets one. -/
def Obligations.SingleLeafGetsTheCodewordZero : Prop :=
  ∀ s : State, s.status.treeValid = true → (s.node.at s.root.toNat).tag = false →
    ∃ t, exec .gencode s = .next t ∧ t.status.codesValid = true ∧ t.maxCodeLen = 1 ∧
      ∀ x, t.code.at x = if x = (s.node.at s.root.toNat).sym then [false] else []

/-- R81: exactly the symbols with a count get a codeword; it has at least one bit, at most n - 1 ≤ 255 when n ≥ 2, one
bit when n = 1; its length is the depth of the symbol's leaf; MAX_CODE_LEN is the largest length (R84). -/
def Obligations.CodewordLengths : Prop :=
  ∀ s t : State, s.Inv → exec .gencode s = .next t → s.status.treeValid = true →
    (∀ x, t.code.at x ≠ [] ↔ s.freq.at x ≠ 0) ∧
    (2 ≤ s.leafCount.toNat → ∀ x, (t.code.at x).length ≤ s.leafCount.toNat - 1) ∧
    s.leafCount.toNat - 1 ≤ 255 ∧
    (2 ≤ s.leafCount.toNat → ∀ p k, follow s.node s.root.toNat p = some k → (s.node.at k).tag = false →
      (t.code.at (s.node.at k).sym).length = p.length) ∧
    (s.leafCount.toNat = 1 → ∀ x, t.code.at x ≠ [] → (t.code.at x).length = 1) ∧
    t.maxCodeLen.toNat = maxLength t.code

/-- R82: the codewords of a generated table are prefix-free, in every safe state with CODES_VALID = 1 and after every
GENCODE that leaves it so; none is longer than 255 bits (R33). -/
def Obligations.GeneratedCodesArePrefixFree : Prop :=
  (∀ s : State, s.Inv → s.status.codesValid = true → prefixFree s.code ∧ ∀ x, (s.code.at x).length ≤ 255) ∧
  ∀ s t : State, s.Inv → exec .gencode s = .next t → t.status.codesValid = true → prefixFree t.code

/-- R83: with two symbols or more the code is complete, so every bit string is codewords followed by a proper prefix of
one; with one symbol, no bit string that holds a 1 can be decoded. -/
def Obligations.GeneratedCodesAreComplete : Prop :=
  ∀ s t : State, s.Inv → exec .gencode s = .next t → t.status.codesValid = true →
    (2 ≤ s.leafCount.toNat →
      kraftSum t.code = 2 ^ 255 ∧
      ∀ p : Bits, ∃ out b r, codewordStream t.code out = some b ∧ p = b ++ r ∧
        ∃ x, r <+: t.code.at x ∧ r.length < (t.code.at x).length) ∧
    (s.leafCount.toNat = 1 → ∀ p : Bits, true ∈ p → decodeBits t.code [] p = none)

/-! ### PACK -/

/-- PACK completes when the codes are valid, the regions are in order, the source is not empty and readable, every
symbol has a codeword and the payload fits (R88): the payload stands at DST_BASE, DST_LEN is its length, PADDING the
padding count. -/
def Obligations.PackCompletes : Prop :=
  ∀ (s : State) (src : List Byte) (b : Bits), s.status.codesValid = true → s.regionsOk = true →
    s.source = some src → src ≠ [] → codewordStream s.code src = some b → (b.length + 7) / 8 ≤ s.dstCap.toNat →
    ∃ t, exec .pack s = .next t ∧
      t = { s with
        status := completed s.status s.status.treeValid true 0#4
        dstLen := t.dstLen, padding := t.padding, mem := t.mem } ∧
      t.dstLen.toNat = (b.length + 7) / 8 ∧ t.padding.toNat = (8 - b.length % 8) % 8 ∧
      (∃ pay, t.mem.readBytes s.dstBase.toNat t.dstLen.toNat = some pay ∧
        bitsOfBytes pay = b ++ List.replicate t.padding.toNat false) ∧
      ∀ a, (a < s.dstBase.toNat ∨ s.dstBase.toNat + t.dstLen.toNat ≤ a) → t.mem.read a = s.mem.read a

/-- PACK's errors in their order (R88, R119), with the effects of R118. -/
def Obligations.PackErrors : Prop :=
  ∀ s : State,
    let fails (c : BitVec 4) (spoils : Bool) := ∃ t, exec .pack s = .next t ∧
      t = { s with
        status := completed s.status s.status.treeValid s.status.codesValid c
        dstLen := 0, mem := t.mem } ∧
      ∀ a, t.mem.read a =
        if spoils = true ∧ s.dstBase.toNat ≤ a ∧ a < s.dstBase.toNat + s.dstCap.toNat then none else s.mem.read a
    (s.status.codesValid = false → fails 7#4 false) ∧
    (s.status.codesValid = true → s.regionsOk = false → fails 5#4 false) ∧
    (s.status.codesValid = true → s.regionsOk = true → s.srcLen = 0 → fails 1#4 false) ∧
    (∀ src, s.status.codesValid = true → s.regionsOk = true → s.source = some src → src ≠ [] →
      ((∃ x ∈ src, s.code.at x = []) → fails 4#4 true) ∧
      (∀ b, codewordStream s.code src = some b → s.dstCap.toNat < (b.length + 7) / 8 → fails 6#4 true))

/-- R85, R86, R87: the stream is the codewords in input order; the padding count is 0..7 and makes the length a
multiple of 8; bit 8k + j of the padded stream is bit 7 - j of payload byte k. -/
def Obligations.PayloadOfStream : Prop :=
  (∀ (c : Table Bits) (src : List Byte), (∀ x ∈ src, c.at x ≠ []) →
    codewordStream c src = some (src.flatMap fun x => c.at x)) ∧
  ∀ b : Bits, paddingOf b = (8 - b.length % 8) % 8 ∧ paddingOf b ≤ 7 ∧ (b.length + paddingOf b) % 8 = 0 ∧
    (payloadOf b).length = (b.length + paddingOf b) / 8 ∧
    ∀ k j, k < (payloadOf b).length → j < 8 →
      ((payloadOf b).getD k 0).getLsbD (7 - j) = (b ++ List.replicate (paddingOf b) false).getD (8 * k + j) false

/-- R89: the sizes after a successful PACK of a safe state. -/
def Obligations.PackedSizes : Prop :=
  ∀ (s t : State) (src : List Byte), s.Inv → s.source = some src → exec .pack s = .next t → t.status.err = false →
    8 * t.dstLen.toNat - t.padding.toNat = (src.map fun x => (s.code.at x).length).sum ∧
    t.dstLen.toNat = ((src.map fun x => (s.code.at x).length).sum + 7) / 8 ∧
    src.length ≤ (src.map fun x => (s.code.at x).length).sum ∧
    (src.map fun x => (s.code.at x).length).sum ≤ 255 * src.length ∧
    t.dstLen.toNat ≤ 32 * src.length ∧
    (t.dstLen.toNat < src.length ↔
      (src.map fun x => (s.code.at x).length).sum + t.padding.toNat < 8 * src.length)

/-! ### UNPACK -/

/-- UNPACK completes when the codes are valid and prefix-free, the regions are in order, the padding does not exceed
the payload, and the stripped bits are the codewords of some symbols that fit (R90, R91, R93); an empty bit string
decodes to no symbol. -/
def Obligations.UnpackCompletes : Prop :=
  ∀ (s : State) (pay out : List Byte), s.status.codesValid = true → s.regionsOk = true →
    s.padding.toNat ≤ 8 * s.srcLen.toNat → s.source = some pay → prefixFree s.code →
    codewordStream s.code out = some ((bitsOfBytes pay).take (8 * s.srcLen.toNat - s.padding.toNat)) →
    out.length ≤ s.dstCap.toNat →
    ∃ t, exec .unpack s = .next t ∧
      t = { s with
        status := completed s.status s.status.treeValid true 0#4
        dstLen := t.dstLen, mem := t.mem } ∧
      t.dstLen.toNat = out.length ∧ t.mem.readBytes s.dstBase.toNat out.length = some out ∧
      ∀ a, (a < s.dstBase.toNat ∨ s.dstBase.toNat + out.length ≤ a) → t.mem.read a = s.mem.read a

/-- UNPACK's errors in their order (R93, R119), with the effects of R118. DECODE is raised exactly when the stripped
bits are not a concatenation of codewords (R92). -/
def Obligations.UnpackErrors : Prop :=
  ∀ s : State,
    let fails (c : BitVec 4) (spoils : Bool) := ∃ t, exec .unpack s = .next t ∧
      t = { s with
        status := completed s.status s.status.treeValid s.status.codesValid c
        dstLen := 0, mem := t.mem } ∧
      ∀ a, t.mem.read a =
        if spoils = true ∧ s.dstBase.toNat ≤ a ∧ a < s.dstBase.toNat + s.dstCap.toNat then none else s.mem.read a
    (s.status.codesValid = false → fails 7#4 false) ∧
    (s.status.codesValid = true → s.regionsOk = false → fails 5#4 false) ∧
    (s.status.codesValid = true → s.regionsOk = true → 8 * s.srcLen.toNat < s.padding.toNat → fails 3#4 true) ∧
    (∀ pay, s.status.codesValid = true → s.regionsOk = true → s.padding.toNat ≤ 8 * s.srcLen.toNat →
      s.source = some pay → prefixFree s.code →
      ((∀ out, codewordStream s.code out ≠ some ((bitsOfBytes pay).take (8 * s.srcLen.toNat - s.padding.toNat))) →
        fails 3#4 true) ∧
      (∀ out, codewordStream s.code out = some ((bitsOfBytes pay).take (8 * s.srcLen.toNat - s.padding.toNat)) →
        s.dstCap.toNat < out.length → fails 6#4 true))

/-- R94: UNPACK of what PACK wrote, with the PADDING it left and the same codes, writes the packed symbols. -/
def Obligations.UnpackRestoresWhatPackPacked : Prop :=
  ∀ (s t u : State) (src : List Byte), prefixFree s.code → s.source = some src →
    exec .pack s = .next t → t.status.err = false →
    u.status.codesValid = true → u.code = t.code → u.padding = t.padding → u.cfg = t.cfg → u.mem = t.mem →
    u.srcBase = t.dstBase → u.srcLen = t.dstLen → u.regionsOk = true → src.length ≤ u.dstCap.toNat →
    ∃ w, exec .unpack u = .next w ∧ w.status.err = false ∧ w.dstLen.toNat = src.length ∧
      w.mem.readBytes u.dstBase.toNat src.length = some src

/-! ### SERIALIZE and DESERIALIZE -/

/-- SERIALIZE completes when the regions are in order, FREQ is not empty, the container fits and the payload is
readable (R98): length word, header text of FREQ and PADDING, payload. It needs no valid tree or codes. -/
def Obligations.SerializeCompletes : Prop :=
  ∀ (s : State) (pay : List Byte), s.regionsOk = true → freqList s.freq ≠ [] → s.source = some pay →
    4 + (headerText (freqList s.freq) s.padding).length + pay.length ≤ s.dstCap.toNat →
    ∃ t, exec .serialize s = .next t ∧
      t = { s with
        status := completed s.status s.status.treeValid s.status.codesValid 0#4
        dstLen := t.dstLen, hdrLen := t.hdrLen, payloadOff := t.payloadOff, payloadLen := s.srcLen
        mem := t.mem } ∧
      t.hdrLen.toNat = (headerText (freqList s.freq) s.padding).length ∧
      t.payloadOff.toNat = 4 + t.hdrLen.toNat ∧
      t.dstLen.toNat = 4 + t.hdrLen.toNat + pay.length ∧
      t.mem.readBytes s.dstBase.toNat t.dstLen.toNat =
        some (bytesOfWord t.hdrLen ++ headerText (freqList s.freq) s.padding ++ pay) ∧
      ∀ a, (a < s.dstBase.toNat ∨ s.dstBase.toNat + t.dstLen.toNat ≤ a) → t.mem.read a = s.mem.read a

/-- SERIALIZE's errors in their order (R98, R119): the four result registers 0, no DMEM byte written (R118). -/
def Obligations.SerializeErrors : Prop :=
  ∀ s : State,
    let fails (c : BitVec 4) := exec .serialize s = .next { s with
      status := completed s.status s.status.treeValid s.status.codesValid c
      dstLen := 0, hdrLen := 0, payloadOff := 0, payloadLen := 0 }
    (s.regionsOk = false → fails 5#4) ∧
    (s.regionsOk = true → (∀ x, s.freq.at x = 0) → fails 1#4) ∧
    (s.regionsOk = true → freqList s.freq ≠ [] →
      s.dstCap.toNat < 4 + (headerText (freqList s.freq) s.padding).length + s.srcLen.toNat → fails 6#4)

/-- DESERIALIZE completes on a well-formed container in range (R99): FREQ and PADDING are the header's, the tree and
the codes are invalidated, HDR_LEN, PAYLOAD_OFF and PAYLOAD_LEN locate the payload; DMEM and DST_LEN stay. -/
def Obligations.DeserializeCompletes : Prop :=
  ∀ (s : State) (c : List Byte) (l : List (Byte × Word)) (p : BitVec 3), s.srcOk = true → s.source = some c →
    4 ≤ c.length → 4 + headerLength c ≤ c.length → parseHeader ((c.drop 4).take (headerLength c)) = some (l, p) →
    ∃ t, exec .deserialize s = .next t ∧
      t = { s with
        status := completed s.status false false 0#4
        freq := t.freq, padding := p, code := t.code, maxCodeLen := 0
        root := 0, nodeCount := 0, leafCount := 0
        hdrLen := t.hdrLen, payloadOff := t.payloadOff, payloadLen := t.payloadLen } ∧
      freqList t.freq = l ∧ (∀ x, t.code.at x = []) ∧
      t.hdrLen.toNat = headerLength c ∧ t.payloadOff.toNat = 4 + headerLength c ∧
      t.payloadLen.toNat = c.length - 4 - headerLength c

/-- DESERIALIZE's errors in their order (R99, R119): the three container registers 0, everything else unchanged
(R118). -/
def Obligations.DeserializeErrors : Prop :=
  ∀ s : State,
    let fails (c : BitVec 4) := exec .deserialize s = .next { s with
      status := completed s.status s.status.treeValid s.status.codesValid c
      hdrLen := 0, payloadOff := 0, payloadLen := 0 }
    (s.srcOk = false → fails 5#4) ∧
    (s.srcOk = true → s.srcLen.toNat < 4 → fails 2#4) ∧
    (∀ c, s.srcOk = true → s.source = some c → 4 ≤ c.length →
      (c.length < 4 + headerLength c ∨ parseHeader ((c.drop 4).take (headerLength c)) = none) → fails 2#4)

/-- The parser accepts exactly the header texts (R64, R96, R97): a header parses to `L` and `p` when and only when it is
the text of `L` and `p`, with `L` not empty, strictly ascending and free of 0 counts. -/
def Obligations.ParseHeaderInvertsHeaderText : Prop :=
  ∀ (h : List Byte) (l : List (Byte × Word)) (p : BitVec 3),
    parseHeader h = some (l, p) ↔
      h = headerText l p ∧ l ≠ [] ∧ (l.Pairwise fun e f => e.1.toNat < f.1.toNat) ∧ ∀ e ∈ l, e.2 ≠ 0

/-- R65: the length of the header text, and its maximum. -/
def Obligations.HeaderTextLength : Prop :=
  (∀ (l : List (Byte × Word)) (p : BitVec 3), l ≠ [] →
    (headerText l p).length = 27 + (l.map fun e => 4 + (dec e.1.toNat).length + (dec e.2.toNat).length).sum) ∧
  (∀ (f : Table Word) (p : BitVec 3), freqList f ≠ [] → (headerText (freqList f) p).length ≤ 4269) ∧
  ∀ (f : Table Word) (p : BitVec 3), (∀ x, f.at x = 0xFFFFFFFF#32) → (headerText (freqList f) p).length = 4269

/-- R100: DESERIALIZE of exactly the container SERIALIZE wrote gives back FREQ, PADDING and the place of the payload,
and BUILD after it gives the encoder's tree. -/
def Obligations.DeserializeRestoresWhatSerializeWrote : Prop :=
  ∀ s t u : State, exec .serialize s = .next t → t.status.err = false →
    u.cfg = t.cfg → u.mem = t.mem → u.srcBase = t.dstBase → u.srcLen = t.dstLen →
    ∃ w, exec .deserialize u = .next w ∧ w.status.err = false ∧
      w.freq = s.freq ∧ w.padding = s.padding ∧
      w.hdrLen.toNat = (headerText (freqList s.freq) s.padding).length ∧
      w.payloadOff.toNat = 4 + w.hdrLen.toNat ∧ w.payloadLen = s.srcLen ∧
      w.mem.readBytes (u.srcBase.toNat + w.payloadOff.toNat) w.payloadLen.toNat = s.source ∧
      ∃ x y, exec .build s = .next x ∧ exec .build w = .next y ∧
        x.root = y.root ∧ x.nodeCount = y.nodeCount ∧ x.leafCount = y.leafCount ∧
        (∀ i, i < x.nodeCount.toNat → x.node.at i = y.node.at i) ∧
        ∃ x' y', exec .gencode x = .next x' ∧ exec .gencode y = .next y' ∧ x'.code = y'.code

/-- R102: a container SERIALIZE wrote, cut before the end of its header, is refused with FORMAT. -/
def Obligations.TruncatedContainerIsRefused : Prop :=
  ∀ s t u : State, exec .serialize s = .next t → t.status.err = false →
    u.cfg = t.cfg → u.mem = t.mem → u.srcBase = t.dstBase → u.srcLen.toNat < 4 + t.hdrLen.toNat →
    ∃ w, exec .deserialize u = .next w ∧ w.status.errCode = 2#4 ∧ w.freq = u.freq ∧ w.padding = u.padding

/-! ### Frames -/

/-- What BUILD and GENCODE leave unchanged: everything but the arena and its extent (BUILD), the codes and STATUS
(R75, R84); every byte of DMEM reads as before (R49). -/
def Obligations.TreeCommandsFrame : Prop :=
  (∀ s t : State, exec .build s = .next t →
    t = { s with
      status := completed s.status t.status.treeValid false t.status.errCode
      node := t.node, root := t.root, nodeCount := t.nodeCount, leafCount := t.leafCount
      code := t.code, maxCodeLen := t.maxCodeLen } ∧ ∀ a, t.mem.read a = s.mem.read a) ∧
  ∀ s t : State, exec .gencode s = .next t →
    t = { s with
      status := completed s.status s.status.treeValid t.status.codesValid t.status.errCode
      code := t.code, maxCodeLen := t.maxCodeLen } ∧ ∀ a, t.mem.read a = s.mem.read a

/-- What PACK, UNPACK and SERIALIZE leave unchanged: everything but DST_LEN, PADDING (PACK), the container registers
(SERIALIZE), STATUS's completion bits and DMEM; of DMEM, on success every byte outside `[DST_BASE, DST_BASE + DST_LEN)`,
and otherwise every byte outside `[DST_BASE, DST_BASE + DST_CAP)` (R49). After each, DST_LEN ≤ DST_CAP (R23). -/
def Obligations.TransferCommandsFrame : Prop :=
  ∀ (i : Instr) (s t : State), i = .pack ∨ i = .unpack ∨ i = .serialize → exec i s = .next t →
    t = { s with
      status := completed s.status s.status.treeValid s.status.codesValid t.status.errCode
      dstLen := t.dstLen
      padding := if i = .pack then t.padding else s.padding
      hdrLen := if i = .serialize then t.hdrLen else s.hdrLen
      payloadOff := if i = .serialize then t.payloadOff else s.payloadOff
      payloadLen := if i = .serialize then t.payloadLen else s.payloadLen
      mem := t.mem } ∧
    t.dstLen.toNat ≤ s.dstCap.toNat ∧
    (t.status.err = true → t.padding = s.padding ∧ t.dstLen = 0) ∧
    (∀ a, (a < s.dstBase.toNat ∨ s.dstBase.toNat + s.dstCap.toNat ≤ a) → t.mem.read a = s.mem.read a) ∧
    (t.status.err = false →
      ∀ a, (a < s.dstBase.toNat ∨ s.dstBase.toNat + t.dstLen.toNat ≤ a) → t.mem.read a = s.mem.read a) ∧
    (t.status.err = true → i = .serialize → ∀ a, t.mem.read a = s.mem.read a)

/-- What DESERIALIZE leaves unchanged: everything but FREQ, PADDING, the container registers, the invalidated tree and
codes, and STATUS; every byte of DMEM reads as before (R49, R99). -/
def Obligations.DeserializeFrame : Prop :=
  ∀ s t : State, exec .deserialize s = .next t →
    t = { s with
      status := completed s.status t.status.treeValid t.status.codesValid t.status.errCode
      freq := t.freq, padding := t.padding, code := t.code, maxCodeLen := t.maxCodeLen
      root := t.root, nodeCount := t.nodeCount, leafCount := t.leafCount
      hdrLen := t.hdrLen, payloadOff := t.payloadOff, payloadLen := t.payloadLen } ∧
    (∀ a, t.mem.read a = s.mem.read a) ∧
    (t.status.err = true → t.status.treeValid = s.status.treeValid ∧ t.status.codesValid = s.status.codesValid ∧
      t.freq = s.freq ∧ t.padding = s.padding ∧ t.code = s.code ∧ t.maxCodeLen = s.maxCodeLen ∧
      t.root = s.root ∧ t.nodeCount = s.nodeCount ∧ t.leafCount = s.leafCount)

/-! ### The host's sequences -/

/-- R110: `Analyze` fails exactly on the empty input; else it counts each symbol, and loading its table through 256
FREQ writes of an idle block leaves FREQ equal to it. -/
def Obligations.AnalyzeCountsSymbols : Prop :=
  (∀ input : List Byte, analyze input = none ↔ input = []) ∧
  ∀ (input : List Byte) (f : Table Word), analyze input = some f → input.length < 2 ^ 32 →
    (∀ x, (f.at x).toNat = input.count x) ∧
    ∀ s : State, s.status.busy = false → ∃ t, runMoves (loadFreq f) s = .next t ∧ t.freq = f ∧
      t.status.busy = false ∧ t.mem = s.mem

/-- R114, round trip: COMPRESS of a readable non-empty input, with regions in DMEM, disjoint and large enough,
completes, and DECOMPRESS of the container it wrote completes with the input. -/
def Obligations.DecompressRestoresWhatCompressCompressed : Prop :=
  ∀ (s : State) (inp n tmp tcap out ocap res rcap : Word) (input : List Byte),
    s.cfg.legal → s.status.busy = false → input ≠ [] → s.mem.readBytes inp.toNat n.toNat = some input →
    inp.toNat + n.toNat ≤ s.cfg.dmemSize → tmp.toNat + tcap.toNat ≤ s.cfg.dmemSize →
    out.toNat + ocap.toNat ≤ s.cfg.dmemSize → res.toNat + rcap.toNat ≤ s.cfg.dmemSize →
    disjointRegions inp n tmp tcap → disjointRegions inp n out ocap → disjointRegions tmp tcap out ocap →
    disjointRegions out ocap res rcap →
    32 * n.toNat ≤ tcap.toNat → 4273 + 32 * n.toNat ≤ ocap.toNat → n.toNat ≤ rcap.toNat →
    ∃ s1 len, compress inp n tmp tcap out ocap s = .done s1 out.toNat len ∧ len = s1.dstLen.toNat ∧
      ∃ s2, decompress out s1.dstLen res rcap s1 = .done s2 res.toNat n.toNat ∧
        s2.mem.readBytes res.toNat n.toNat = some input
end

