-- ==== Sys2Proof/Laws/Tables.lean ====
section
/-! SUPPORT. The laws of the 256-entry tables, of the arena, and of the frequency list (10_state.md R29–R31). -/

namespace Sys2Proof.Machine

namespace TableLaws

variable {α : Type}

/-- A table entry after a put: the value at its symbol, every other symbol as before. -/
theorem at_put (t : Table α) (s x : Byte) (v : α) : (t.put s v).at x = if s = x then v else t.at x := by
  simp only [Table.at, Table.put, Vector.getElem_set, BitVec.toNat_inj]

/-- Two tables with the same entries are the same. -/
theorem ext (t u : Table α) (h : ∀ x, t.at x = u.at x) : t = u := by
  refine Vector.ext fun i hi => ?_
  have := h (BitVec.ofNat 8 i)
  simpa [Table.at, Nat.mod_eq_of_lt hi] using this

@[simp] theorem at_noCounts (x : Byte) : noCounts.at x = 0 := by simp [Table.at, noCounts]

@[simp] theorem at_noCodes (x : Byte) : noCodes.at x = [] := by simp [Table.at, noCodes]

theorem pairs_length (t : Table α) : t.pairs.length = 256 := by simp [Table.pairs]

theorem pairs_getElem (t : Table α) (i : Nat) (h : i < 256) :
    t.pairs[i]'(by rw [pairs_length]; exact h) = (BitVec.ofNat 8 i, t[i]) := by
  simp [Table.pairs]

/-- The pairs of a table are its entries. -/
theorem mem_pairs (t : Table α) (x : Byte) (v : α) : (x, v) ∈ t.pairs ↔ t.at x = v := by
  rw [List.mem_iff_getElem]
  constructor
  · rintro ⟨i, hi, he⟩
    rw [pairs_length] at hi
    rw [pairs_getElem t i hi] at he
    obtain ⟨rfl, rfl⟩ := Prod.mk.inj he
    simp [Table.at, Nat.mod_eq_of_lt hi]
  · intro h
    have hx := x.isLt
    refine ⟨x.toNat, by rw [pairs_length]; omega, ?_⟩
    rw [pairs_getElem t _ (by omega)]
    simp [← h, Table.at]

/-- The pairs come in ascending order of the symbol. -/
theorem pairs_pairwise (t : Table α) : t.pairs.Pairwise fun p q => p.1.toNat < q.1.toNat := by
  rw [List.pairwise_iff_getElem]
  intro i j hi hj hij
  rw [pairs_length] at hi hj
  rw [pairs_getElem t i hi, pairs_getElem t j hj]
  simpa [Nat.mod_eq_of_lt hi, Nat.mod_eq_of_lt hj] using hij

/-- An entry after `putAll` of a list that does not name its symbol. -/
theorem at_putAll_of_not_mem (l : List (Byte × α)) : ∀ (t : Table α) (x : Byte),
    (∀ p ∈ l, p.1 ≠ x) → (t.putAll l).at x = t.at x := by
  induction l with
  | nil => intros; rfl
  | cons p l ih =>
    intro t x h
    have := ih (t.put p.1 p.2) x fun q hq => h q (List.mem_cons_of_mem _ hq)
    simp only [Table.putAll, List.foldl_cons] at this ⊢
    rw [this, at_put, if_neg (h p (List.mem_cons_self ..))]

/-- An entry after `putAll` of a list that names its symbol once. -/
theorem at_putAll_of_mem (l : List (Byte × α)) : ∀ (t : Table α) (x : Byte) (v : α),
    (l.map Prod.fst).Nodup → (x, v) ∈ l → (t.putAll l).at x = v := by
  induction l with
  | nil => intro _ _ _ _ h; simp at h
  | cons p l ih =>
    intro t x v hn hm
    simp only [List.map_cons, List.nodup_cons] at hn
    rcases List.mem_cons.1 hm with rfl | hm
    · have := at_putAll_of_not_mem l (t.put x v) x fun q hq hqx => hn.1 (List.mem_map.2 ⟨q, hq, hqx⟩)
      simp only [Table.putAll, List.foldl_cons] at this ⊢
      rw [this, at_put, if_pos rfl]
    · exact ih _ x v hn.2 hm

/-! ### The frequency list -/

/-- A pair is in the frequency list exactly when the table maps its symbol to its count and the count is not 0. -/
theorem mem_freqList (f : Table Word) (x : Byte) (c : Word) : (x, c) ∈ freqList f ↔ f.at x = c ∧ c ≠ 0#32 := by
  simp [freqList, List.mem_filter, mem_pairs]

/-- The frequency list ascends strictly. -/
theorem freqList_pairwise (f : Table Word) : (freqList f).Pairwise fun p q => p.1.toNat < q.1.toNat :=
  (pairs_pairwise f).filter _

theorem freqList_length_le (f : Table Word) : (freqList f).length ≤ 256 := by
  have := List.length_filter_le (fun p : Byte × Word => p.2 != 0#32) f.pairs
  rw [pairs_length] at this
  exact this

theorem freqList_nodup (f : Table Word) : ((freqList f).map Prod.fst).Nodup := by
  rw [List.Nodup, List.pairwise_map]
  exact (freqList_pairwise f).imp fun h he => absurd (congrArg BitVec.toNat he) (by omega)

/-- The frequency list is empty exactly when every count is 0. -/
theorem freqList_eq_nil (f : Table Word) : freqList f = [] ↔ ∀ x, f.at x = 0#32 := by
  rw [List.eq_nil_iff_forall_not_mem]
  constructor
  · intro h x
    by_contra hx
    exact h (x, f.at x) ((mem_freqList f x _).2 ⟨rfl, hx⟩)
  · rintro h ⟨x, c⟩ hm
    obtain ⟨rfl, hc⟩ := (mem_freqList f x c).1 hm
    exact hc (h x)

/-- A table is the table of its own frequency list. -/
theorem tableOf_freqList (f : Table Word) : tableOf (freqList f) = f := by
  refine ext _ _ fun x => ?_
  by_cases h : f.at x = 0#32
  · rw [tableOf, at_putAll_of_not_mem, at_noCounts, h]; · rfl
    rintro ⟨y, c⟩ hm rfl
    obtain ⟨hy, hc⟩ := (mem_freqList f y c).1 hm
    exact hc (hy ▸ h)
  · rw [tableOf, at_putAll_of_mem _ _ x (f.at x) (freqList_nodup f) ((mem_freqList f x _).2 ⟨rfl, h⟩)]

/-! ### The arena -/

/-- A record of a stored arena: the new record below the number stored, the old one from there on. -/
theorem at_store (v : Arena) (ns : List Node) (i : Nat) (h : i < 511) :
    (v.store ns).at i = if i < ns.length then nodeOf ns i else v.at i := by
  have h1 : (v.store ns).at i = (v.store ns)[i] := by simp [Arena.at, h]
  have h2 : v.at i = v[i] := by simp [Arena.at, h]
  rw [h1, h2]
  simp only [Arena.store, Vector.getElem_mk, List.getElem_toArray, List.getElem_map, List.getElem_zipIdx,
    Nat.zero_add, nodeOf]
  split
  · simp [List.getD_eq_getElem?_getD, List.getElem?_eq_getElem ‹_›]
  · simp [List.getD_eq_getElem?_getD, List.getElem?_eq_none (Nat.le_of_not_lt ‹_›)]

end TableLaws

end Sys2Proof.Machine
end

