-- ==== Sys2Proof/Laws/Bits.lean ====
section
/-! SUPPORT. The laws of bit strings and bytes (20_memory.md R44, 30_encoding.md R66, 42_bit_packer.md R86, R87), of the
codeword stream (R85) and of the decoding walk (43_bit_unpacker.md R91). -/

namespace Sys2Proof.Machine

namespace BitLaws

/-- Reading eight bits as a byte and the byte's bits again gives the bits back. -/
theorem bitsMsb_byte : ∀ b7 b6 b5 b4 b3 b2 b1 b0 : Bool,
    bitsMsb (BitVec.ofNat 8 (natOfBits [b7, b6, b5, b4, b3, b2, b1, b0])) = [b7, b6, b5, b4, b3, b2, b1, b0] := by
  decide

@[simp] theorem bitsMsb_length (x : Byte) : (bitsMsb x).length = 8 := rfl

@[simp] theorem bitsOfBytes_nil : bitsOfBytes [] = [] := rfl

@[simp] theorem bitsOfBytes_cons (x : Byte) (p : List Byte) : bitsOfBytes (x :: p) = bitsMsb x ++ bitsOfBytes p := by
  simp [bitsOfBytes]

theorem bitsOfBytes_length (p : List Byte) : (bitsOfBytes p).length = 8 * p.length := by
  induction p with
  | nil => rfl
  | cons x p ih => simp [ih]; omega

/-- A whole number of bytes comes back from its bytes. -/
theorem bitsOfBytes_bytesOfBits (n : Nat) : ∀ b : Bits, b.length = 8 * n →
    bitsOfBytes (bytesOfBits b) = b ∧ (bytesOfBits b).length = n := by
  induction n with
  | zero => intro b h; cases b <;> simp_all [bytesOfBits]
  | succ n ih =>
    intro b h
    match b, h with
    | b7 :: b6 :: b5 :: b4 :: b3 :: b2 :: b1 :: b0 :: rest, h =>
      obtain ⟨h1, h2⟩ := ih rest (by simp at h; omega)
      rw [bytesOfBits, bitsOfBytes_cons, bitsMsb_byte, h1]
      exact ⟨rfl, by simp [h2]⟩
    | [], h => simp at h
    | [_], h => simp at h; omega
    | [_, _], h => simp at h; omega
    | [_, _, _], h => simp at h; omega
    | [_, _, _, _], h => simp at h; omega
    | [_, _, _, _, _], h => simp at h; omega
    | [_, _, _, _, _, _], h => simp at h; omega
    | [_, _, _, _, _, _, _], h => simp at h; omega

/-- Bit `j` of a byte's bit string is bit `7 - j` of the byte. -/
theorem bitsMsb_getD (x : Byte) (j : Nat) (h : j < 8) : (bitsMsb x).getD j false = x.getLsbD (7 - j) := by
  rcases j with _ | _ | _ | _ | _ | _ | _ | _ | j
  all_goals first | rfl | omega

/-- Bit `8k + j` of a byte sequence's stream is bit `7 - j` of byte `k`. -/
theorem bitsOfBytes_getD (p : List Byte) : ∀ k j, k < p.length → j < 8 →
    (bitsOfBytes p).getD (8 * k + j) false = (p.getD k 0).getLsbD (7 - j) := by
  induction p with
  | nil => intro k j h; simp at h
  | cons x p ih =>
    intro k j hk hj
    rw [bitsOfBytes_cons]
    cases k with
    | zero =>
      rw [Nat.mul_zero, Nat.zero_add, List.getD_append _ _ _ _ (by simp [hj]), bitsMsb_getD x j hj]
      rfl
    | succ k =>
      rw [List.getD_append_right _ _ _ _ (by simp; omega), bitsMsb_length,
        show 8 * (k + 1) + j - 8 = 8 * k + j by omega, ih k j (by simpa using hk) hj]
      rfl

/-! ### Padding (R86, R87) -/

theorem paddingOf_le (b : Bits) : paddingOf b ≤ 7 := by unfold paddingOf; omega

/-- The padded stream is a whole number of bytes. -/
theorem padded_length (b : Bits) : b.length + paddingOf b = 8 * ((b.length + 7) / 8) := by unfold paddingOf; omega

/-- The payload is the stream and its padding zeros, cut into bytes. -/
theorem payloadOf_spec (b : Bits) :
    bitsOfBytes (payloadOf b) = b ++ List.replicate (paddingOf b) false ∧ (payloadOf b).length = (b.length + 7) / 8 :=
  bitsOfBytes_bytesOfBits _ _ (by simp [padded_length])

/-- Stripping the padding of a payload gives the stream back. -/
theorem strippedBits_payloadOf (b : Bits) : strippedBits (payloadOf b) (paddingOf b) = b := by
  obtain ⟨h1, h2⟩ := payloadOf_spec b
  have := padded_length b
  rw [strippedBits, h1, h2, show 8 * ((b.length + 7) / 8) - paddingOf b = b.length by omega, List.take_left]

/-! ### The codeword stream (R85) -/

/-- The codeword stream of symbols that all have a codeword is the codewords one after another; with a symbol that has
none there is no stream. -/
theorem codewordStream_eq_some (c : Table Bits) (src : List Byte) (b : Bits) :
    codewordStream c src = some b ↔ (∀ x ∈ src, c.at x ≠ []) ∧ b = src.flatMap fun x => c.at x := by
  induction src generalizing b with
  | nil =>
    rw [codewordStream]
    constructor
    · rintro ⟨⟩; simp
    · rintro ⟨_, rfl⟩; rfl
  | cons x src ih =>
    rw [codewordStream]
    split
    · simp_all
    · simp only [Option.map_eq_some_iff, ih, List.mem_cons, List.flatMap_cons, forall_eq_or_imp]
      constructor
      · rintro ⟨d, ⟨h1, rfl⟩, rfl⟩; exact ⟨⟨‹_›, h1⟩, rfl⟩
      · rintro ⟨⟨_, h2⟩, rfl⟩; exact ⟨_, ⟨h2, rfl⟩, rfl⟩

theorem codewordStream_eq_none (c : Table Bits) (src : List Byte) :
    codewordStream c src = none ↔ ∃ x ∈ src, c.at x = [] := by
  rw [← not_iff_not, ← ne_eq, Option.ne_none_iff_exists']
  simp [codewordStream_eq_some]

theorem stream_length (c : Table Bits) (src : List Byte) :
    (src.flatMap fun x => c.at x).length = (src.map fun x => (c.at x).length).sum := by
  induction src <;> simp_all

/-! ### The walk (R91) -/

/-- A symbol found has the accumulator as its non-empty codeword. -/
theorem symbolOf_some (c : Table Bits) (acc : Bits) (x : Byte) (h : symbolOf c acc = some x) :
    c.at x = acc ∧ c.at x ≠ [] := by
  simp only [symbolOf, Option.map_eq_some_iff] at h
  obtain ⟨⟨y, b⟩, hf, rfl⟩ := h
  have hm := List.mem_of_find?_eq_some hf
  have hp := List.find?_some hf
  simp only [Bool.and_eq_true, bne_iff_ne, ne_eq, beq_iff_eq] at hp
  rw [TableLaws.mem_pairs] at hm
  exact ⟨hm.trans hp.2, hm ▸ hp.1⟩

/-- No symbol found means that no non-empty codeword is the accumulator. -/
theorem symbolOf_none (c : Table Bits) (acc : Bits) (h : symbolOf c acc = none) (x : Byte) (hx : c.at x ≠ []) :
    c.at x ≠ acc := by
  simp only [symbolOf, Option.map_eq_none_iff, List.find?_eq_none, Bool.and_eq_true, bne_iff_ne, ne_eq, beq_iff_eq,
    not_and] at h
  exact h (x, c.at x) ((TableLaws.mem_pairs c x _).2 rfl) hx

theorem extendable_iff (c : Table Bits) (acc : Bits) : extendable c acc = true ↔ ∃ x, acc <+: c.at x := by
  simp only [extendable, List.any_eq_true, List.isPrefixOf_iff_prefix]
  constructor
  · rintro ⟨b, hb, hp⟩
    obtain ⟨i, hi, rfl⟩ := List.mem_iff_getElem.1 hb
    refine ⟨BitVec.ofNat 8 i, ?_⟩
    have hi' : i < 256 := by simpa using hi
    simpa [Table.at, Nat.mod_eq_of_lt hi'] using hp
  · rintro ⟨x, hp⟩
    exact ⟨c.at x, by simp [Table.at], hp⟩

/-- What the walk decodes is, as a stream, what it was given: the accumulator and the bits. -/
theorem decodeBits_sound (c : Table Bits) : ∀ (t acc : Bits) (out : List Byte), decodeBits c acc t = some out →
    codewordStream c out = some (acc ++ t) := by
  intro t
  induction t with
  | nil =>
    intro acc out h
    rw [decodeBits] at h
    split at h
    · simp_all [codewordStream]
    · cases h
  | cons b t ih =>
    intro acc out h
    rw [decodeBits] at h
    split at h
    · rename_i x hx
      obtain ⟨o, ho, rfl⟩ := Option.map_eq_some_iff.1 h
      obtain ⟨h1, h2⟩ := symbolOf_some c _ x hx
      rw [codewordStream, if_neg h2, ih [] o ho, h1]
      simp
    · split at h
      · simpa using ih _ _ h
      · cases h

/-- In a prefix-free table the walk decodes every codeword stream to its symbols: from an accumulator that is a proper
prefix of the next codeword. -/
theorem decodeBits_complete (c : Table Bits)
    (hpf : ∀ a b, a ≠ b → c.at a ≠ [] → c.at b ≠ [] → ¬ c.at a <+: c.at b) :
    ∀ (t acc : Bits) (out : List Byte), codewordStream c out = some (acc ++ t) →
      (acc = [] ∨ ∃ x o, out = x :: o ∧ acc <+: c.at x ∧ acc ≠ c.at x) → decodeBits c acc t = some out := by
  intro t
  induction t with
  | nil =>
    intro acc out h hacc
    rw [codewordStream_eq_some] at h
    obtain ⟨hne, hb⟩ := h
    rcases hacc with rfl | ⟨x, o, rfl, hp, hn⟩
    · cases out with
      | nil => rfl
      | cons x o =>
        have hx := hne x (List.mem_cons_self ..)
        cases hcx : c.at x with
        | nil => exact absurd hcx hx
        | cons => simp [hcx] at hb
    · exfalso
      simp only [List.append_nil, List.flatMap_cons] at hb
      have hl := hp.length_le
      rw [hb, List.length_append] at hl
      refine hn (hp.eq_of_length ?_)
      rw [hb, List.length_append]; omega
  | cons b t ih =>
    intro acc out h hacc
    obtain ⟨hne, hb⟩ := (codewordStream_eq_some ..).1 h
    obtain ⟨x, o, rfl, hp, hn⟩ : ∃ x o, out = x :: o ∧ acc <+: c.at x ∧ acc ≠ c.at x := by
      rcases hacc with rfl | h
      · cases out with
        | nil => simp at hb
        | cons x o => exact ⟨x, o, rfl, List.nil_prefix, fun h => hne x (List.mem_cons_self ..) h.symm⟩
      · exact h
    have hx : c.at x ≠ [] := hne x (List.mem_cons_self ..)
    -- the accumulator with its next bit is still a prefix of the codeword
    have hp' : acc ++ [b] <+: c.at x := by
      obtain ⟨r, hr⟩ := hp
      rw [List.flatMap_cons, ← hr, List.append_assoc] at hb
      have hb' := List.append_cancel_left hb
      cases r with
      | nil => exact absurd (by simpa using hr) hn
      | cons d r =>
        obtain ⟨rfl, _⟩ := List.cons.inj hb'
        exact ⟨r, by rw [← hr]; simp⟩
    rw [decodeBits]
    cases hs : symbolOf c (acc ++ [b]) with
    | some y =>
      obtain ⟨h1, h2⟩ := symbolOf_some c _ y hs
      have hyx : y = x := by
        by_contra hyx
        exact hpf y x hyx h2 hx (h1 ▸ hp')
      subst hyx
      have ho : codewordStream c o = some ([] ++ t) := by
        rw [codewordStream_eq_some]
        refine ⟨fun z hz => hne z (List.mem_cons_of_mem _ hz), ?_⟩
        rw [List.flatMap_cons, h1, show acc ++ b :: t = (acc ++ [b]) ++ t by simp] at hb
        simpa using List.append_cancel_left hb
      simp [ih [] o ho (.inl rfl)]
    | none =>
      have hext : extendable c (acc ++ [b]) = true := (extendable_iff ..).2 ⟨x, hp'⟩
      have := ih (acc ++ [b]) (x :: o) (by simpa using h)
        (.inr ⟨x, o, rfl, hp', fun he => symbolOf_none c _ hs x hx he.symm⟩)
      simpa [hext] using this

end BitLaws

end Sys2Proof.Machine
end

