-- ==== Sys2Proof/Laws/Build.lean ====
section
/-! SUPPORT. What the merge loop of BUILD does (40_tree_builder.md R68–R74, R77): one invariant of the growing arena and
its worklist, kept by every merge, and what it says when the loop ends. -/

namespace Sys2Proof.Machine

namespace BuildLaws

/-! ### The worklist order (R70) -/

/-- The key of an index (R70), compared as a proposition. -/
theorem keyLt_iff (ns : List Node) (i j : Nat) : keyLt ns i j = true ↔
    (nodeOf ns i).weight.toNat < (nodeOf ns j).weight.toNat ∨
      ((nodeOf ns i).weight.toNat = (nodeOf ns j).weight.toNat ∧ i < j) := by
  simp [keyLt]

/-- The smallest member: it is a member, and every other member has a larger key. -/
theorem argmin_spec (ns : List Node) (w : List Nat) : ∀ best : Nat,
    argmin ns best w ∈ best :: w ∧ ∀ k ∈ best :: w, k = argmin ns best w ∨ keyLt ns (argmin ns best w) k = true := by
  induction w with
  | nil => intro best; simp [argmin]
  | cons i w ih =>
    intro best
    rw [argmin]
    by_cases hlt : keyLt ns i best = true
    · obtain ⟨h1, h2⟩ := ih i
      rw [if_pos hlt]
      refine ⟨List.mem_cons_of_mem _ h1, fun k hk => ?_⟩
      rcases List.mem_cons.1 hk with rfl | hk
      · refine .inr ?_
        rcases h2 i (List.mem_cons_self ..) with he | hl
        · rw [← he]; exact hlt
        · rw [keyLt_iff] at hl hlt ⊢; omega
      · exact h2 k hk
    · obtain ⟨h1, h2⟩ := ih best
      rw [if_neg hlt]
      refine ⟨?_, fun k hk => ?_⟩
      · rcases List.mem_cons.1 h1 with h1 | h1
        · rw [h1]; exact List.mem_cons_self ..
        · exact List.mem_cons_of_mem _ (List.mem_cons_of_mem _ h1)
      · rcases List.mem_cons.1 hk with rfl | hk
        · exact h2 k (List.mem_cons_self ..)
        rcases List.mem_cons.1 hk with rfl | hk
        · by_cases hkb : k = best
          · subst hkb; exact h2 k (List.mem_cons_self ..)
          · refine .inr ?_
            rcases h2 best (List.mem_cons_self ..) with he | hl
            · rw [← he]; rw [keyLt_iff] at hlt ⊢; omega
            · rw [keyLt_iff] at hl hlt ⊢; omega
        · exact h2 k (List.mem_cons_of_mem _ hk)

/-- What removing the smallest member does. -/
theorem popMin_spec (ns : List Node) (w w' : List Nat) (l : Nat) (h : popMin ns w = some (l, w')) :
    l ∈ w ∧ w' = w.erase l ∧ ∀ k ∈ w, k ≠ l → keyLt ns l k = true := by
  cases w with
  | nil => simp [popMin] at h
  | cons i w =>
    simp only [popMin, Option.some.injEq, Prod.mk.injEq] at h
    obtain ⟨rfl, rfl⟩ := h
    obtain ⟨h1, h2⟩ := argmin_spec ns w i
    exact ⟨h1, rfl, fun k hk hne => (h2 k hk).resolve_left hne⟩

theorem popMin_isSome (ns : List Node) (w : List Nat) (h : w ≠ []) : ∃ l w', popMin ns w = some (l, w') := by
  cases w with
  | nil => exact absurd rfl h
  | cons i w => exact ⟨_, _, rfl⟩

/-! ### The records of a growing arena -/

theorem nodeOf_append_left (ns ms : List Node) (i : Nat) (h : i < ns.length) : nodeOf (ns ++ ms) i = nodeOf ns i := by
  rw [nodeOf, nodeOf, List.getD_append _ _ _ _ h]

theorem nodeOf_append_self (ns : List Node) (x : Node) : nodeOf (ns ++ [x]) ns.length = x := by
  simp [nodeOf, List.getD_eq_getElem?_getD]

/-- Index `k` is in the worklist when internal node `i` is made (R71). -/
def pool (ns : List Node) (n i k : Nat) : Prop :=
  k < i ∧ ∀ m, n ≤ m → m < i → (nodeOf ns m).left.toNat ≠ k ∧ (nodeOf ns m).right.toNat ≠ k

/-- What the merge that made internal node `i` did (R71). -/
structure MergedAt (ns : List Node) (n i : Nat) : Prop where
  tag : (nodeOf ns i).tag = true
  sym : (nodeOf ns i).sym = 0
  left_pool : pool ns n i (nodeOf ns i).left.toNat
  right_pool : pool ns n i (nodeOf ns i).right.toNat
  distinct : (nodeOf ns i).left.toNat ≠ (nodeOf ns i).right.toNat
  left_least : ∀ k, pool ns n i k → k ≠ (nodeOf ns i).left.toNat → keyLt ns (nodeOf ns i).left.toNat k = true
  right_least : ∀ k, pool ns n i k → k ≠ (nodeOf ns i).left.toNat → k ≠ (nodeOf ns i).right.toNat →
    keyLt ns (nodeOf ns i).right.toNat k = true
  weight : (nodeOf ns i).weight.toNat =
    (nodeOf ns (nodeOf ns i).left.toNat).weight.toNat + (nodeOf ns (nodeOf ns i).right.toNat).weight.toNat

theorem pool_append (ns ms : List Node) (n i k : Nat) (hi : i ≤ ns.length) : pool (ns ++ ms) n i k ↔ pool ns n i k := by
  unfold pool
  refine and_congr_right fun _ => ⟨fun h m h1 h2 => ?_, fun h m h1 h2 => ?_⟩
  · have := h m h1 h2; rwa [nodeOf_append_left _ _ _ (by omega)] at this
  · rw [nodeOf_append_left _ _ _ (by omega)]; exact h m h1 h2

theorem keyLt_append (ns ms : List Node) (i j : Nat) (hi : i < ns.length) (hj : j < ns.length) :
    keyLt (ns ++ ms) i j = keyLt ns i j := by
  simp [keyLt, nodeOf_append_left _ ms i hi, nodeOf_append_left _ ms j hj]

/-- A merge stays what it was when the arena grows. -/
theorem MergedAt.append {ns : List Node} {n i : Nat} (h : MergedAt ns n i) (ms : List Node) (hi : i < ns.length) :
    MergedAt (ns ++ ms) n i := by
  have e := nodeOf_append_left ns ms i hi
  have hl := h.left_pool.1
  have hr := h.right_pool.1
  constructor
  · rw [e]; exact h.tag
  · rw [e]; exact h.sym
  · rw [e, pool_append _ _ _ _ _ (by omega)]; exact h.left_pool
  · rw [e, pool_append _ _ _ _ _ (by omega)]; exact h.right_pool
  · rw [e]; exact h.distinct
  · intro k hk hne
    rw [pool_append _ _ _ _ _ (by omega)] at hk
    rw [e] at hne ⊢
    rw [keyLt_append _ _ _ _ (by omega) (by have := hk.1; omega)]
    exact h.left_least k hk hne
  · intro k hk hne hne'
    rw [pool_append _ _ _ _ _ (by omega)] at hk
    rw [e] at hne hne' ⊢
    rw [keyLt_append _ _ _ _ (by omega) (by have := hk.1; omega)]
    exact h.right_least k hk hne hne'
  · rw [e, nodeOf_append_left _ _ _ (by omega), nodeOf_append_left _ _ _ (by omega)]; exact h.weight

/-- The sum of the weights of the indices in a worklist. -/
def weightSum (ns : List Node) (w : List Nat) : Nat := (w.map fun k => (nodeOf ns k).weight.toNat).sum

/-- The invariant of the loop: the arena of `n` leaves grown by merges, its worklist, the total weight. -/
structure Grown (leaves : List Node) (total : Nat) (ns : List Node) (w : List Nat) : Prop where
  leaves_first : ∃ ms, ns = leaves ++ ms
  size : ns.length + w.length = 2 * leaves.length
  nodup : w.Nodup
  mem : ∀ k, k ∈ w ↔ pool ns leaves.length ns.length k
  last : ns.length - 1 ∈ w
  merged : ∀ i, leaves.length ≤ i → i < ns.length → MergedAt ns leaves.length i
  weight : weightSum ns w = total

theorem Grown.leaves_le {leaves : List Node} {total : Nat} {ns : List Node} {w : List Nat}
    (h : Grown leaves total ns w) : leaves.length ≤ ns.length := by
  obtain ⟨ms, rfl⟩ := h.leaves_first
  simp

/-- The invariant holds before the first merge. -/
theorem grown_init (leaves : List Node) (hne : leaves ≠ []) :
    Grown leaves (weightSum leaves (List.range leaves.length)) leaves (List.range leaves.length) := by
  have hpos := List.length_pos_iff.2 hne
  refine ⟨⟨[], by simp⟩, by simp; omega, List.nodup_range, fun k => ?_, ?_, fun i h1 h2 => by omega, rfl⟩
  · simp only [List.mem_range, pool]
    exact ⟨fun h => ⟨h, fun m h1 h2 => by omega⟩, fun h => h.1⟩
  · simp; omega

theorem weightSum_erase (ns : List Node) (w : List Nat) (k : Nat) (h : k ∈ w) :
    weightSum ns w = (nodeOf ns k).weight.toNat + weightSum ns (w.erase k) := by
  unfold weightSum
  have := (List.perm_cons_erase h).map fun k => (nodeOf ns k).weight.toNat
  rw [this.sum_eq]; simp

/-- A merge keeps the invariant. -/
theorem Grown.merge {leaves : List Node} {total : Nat} {ns : List Node} {w : List Nat}
    (h : Grown leaves total ns w) (hn : leaves.length ≤ 256) (ht : total < 2 ^ 40) {l r : Nat} {w1 w2 : List Nat}
    (h1 : popMin ns w = some (l, w1)) (h2 : popMin ns w1 = some (r, w2)) :
    Grown leaves total (ns ++ [internalOf ns l r]) (w2 ++ [ns.length]) ∧ w2.length + 2 = w.length := by
  obtain ⟨hl, rfl, hlmin⟩ := popMin_spec _ _ _ _ h1
  obtain ⟨hr, rfl, hrmin⟩ := popMin_spec _ _ _ _ h2
  have hrw : r ∈ w := List.mem_of_mem_erase hr
  have hrl : r ≠ l := ((h.nodup.mem_erase_iff).1 hr).1
  have hlen1 := List.length_erase_of_mem hl
  have hlen2 := List.length_erase_of_mem hr
  have hw1 := List.length_pos_of_mem hr
  have hsize := h.size
  have hle := h.leaves_le
  obtain ⟨hlt, hlp⟩ := (h.mem l).1 hl
  obtain ⟨hrt, hrp⟩ := (h.mem r).1 hrw
  have hlen : (ns ++ [internalOf ns l r]).length = ns.length + 1 := by simp
  have hnew : nodeOf (ns ++ [internalOf ns l r]) ns.length = internalOf ns l r := nodeOf_append_self ..
  have hleft : (internalOf ns l r).left.toNat = l := by simp [internalOf]; omega
  have hright : (internalOf ns l r).right.toNat = r := by simp [internalOf]; omega
  have hws := weightSum_erase ns w l hl
  have hws1 := weightSum_erase ns (w.erase l) r hr
  have hwt := h.weight
  have hsum : (internalOf ns l r).weight.toNat = (nodeOf ns l).weight.toNat + (nodeOf ns r).weight.toNat := by
    simp only [internalOf, BitVec.toNat_add]
    exact Nat.mod_eq_of_lt (by omega)
  -- the pool at the new index is the worklist before the merge
  have hpool : ∀ k, pool (ns ++ [internalOf ns l r]) leaves.length ns.length k ↔ k ∈ w := fun k => by
    rw [pool_append _ _ _ _ _ (Nat.le_refl _), h.mem]
  have hkl : ∀ j k, j < ns.length → k < ns.length → keyLt ns j k = true →
      keyLt (ns ++ [internalOf ns l r]) j k = true := fun j k hj hk hjk => by rwa [keyLt_append _ _ _ _ hj hk]
  refine ⟨⟨?_, ?_, ?_, ?_, ?_, ?_, ?_⟩, by omega⟩
  · obtain ⟨ms, hms⟩ := h.leaves_first
    exact ⟨ms ++ [internalOf ns l r], by rw [hms, List.append_assoc]⟩
  · simp; omega
  · rw [List.nodup_append]
    refine ⟨(h.nodup.erase _).erase _, by simp, fun a ha b hb => ?_⟩
    have ha' := (h.mem a).1 (List.mem_of_mem_erase (List.mem_of_mem_erase ha))
    simp only [List.mem_singleton] at hb
    have := ha'.1
    omega
  · intro k
    rw [hlen, List.mem_append, List.mem_singleton, (h.nodup.erase l).mem_erase_iff, h.nodup.mem_erase_iff]
    constructor
    · rintro (⟨hkr, hkl', hkw⟩ | rfl)
      · obtain ⟨a, b⟩ := (h.mem k).1 hkw
        refine ⟨by omega, fun m m1 m2 => ?_⟩
        by_cases hm : m = ns.length
        · subst hm; rw [hnew, hleft, hright]; exact ⟨fun h => hkl' h.symm, fun h => hkr h.symm⟩
        · rw [nodeOf_append_left _ _ _ (by omega)]; exact b m m1 (by omega)
      · refine ⟨by omega, fun m m1 m2 => ?_⟩
        by_cases hm : m = ns.length
        · subst hm; rw [hnew, hleft, hright]; omega
        · rw [nodeOf_append_left _ _ _ (by omega)]
          have hmm := h.merged m m1 (by omega)
          have := hmm.left_pool.1
          have := hmm.right_pool.1
          omega
    · rintro ⟨a, b⟩
      by_cases hk : k = ns.length
      · exact .inr hk
      · have hb := b ns.length hle (by omega)
        rw [hnew, hleft, hright] at hb
        refine .inl ⟨fun h => hb.2 h.symm, fun h => hb.1 h.symm, (h.mem k).2 ⟨by omega, fun m m1 m2 => ?_⟩⟩
        have := b m m1 (by omega)
        rwa [nodeOf_append_left _ _ _ (by omega)] at this
  · rw [hlen]; simp
  · intro i i1 i2
    by_cases hi : i = ns.length
    · subst hi
      constructor
      · rw [hnew]; rfl
      · rw [hnew]; rfl
      · rw [hnew, hleft, hpool]; exact hl
      · rw [hnew, hright, hpool]; exact hrw
      · rw [hnew, hleft, hright]; exact fun h => hrl h.symm
      · intro k hk hne
        rw [hpool] at hk
        rw [hnew, hleft] at hne ⊢
        exact hkl _ _ hlt ((h.mem k).1 hk).1 (hlmin k hk hne)
      · intro k hk hne hne'
        rw [hpool] at hk
        rw [hnew, hleft] at hne
        rw [hnew, hright] at hne' ⊢
        exact hkl _ _ hrt ((h.mem k).1 hk).1 (hrmin k ((h.nodup.mem_erase_iff).2 ⟨hne, hk⟩) hne')
      · rw [hnew, hleft, hright, nodeOf_append_left _ _ _ hlt, nodeOf_append_left _ _ _ hrt, hsum]
    · exact (h.merged i i1 (by omega)).append _ (by omega)
  · have hcongr : weightSum (ns ++ [internalOf ns l r]) ((w.erase l).erase r) =
        weightSum ns ((w.erase l).erase r) := by
      unfold weightSum
      refine congrArg List.sum (List.map_congr_left fun k hk => ?_)
      have := ((h.mem k).1 (List.mem_of_mem_erase (List.mem_of_mem_erase hk))).1
      rw [nodeOf_append_left _ _ _ this]
    have : weightSum (ns ++ [internalOf ns l r]) ((w.erase l).erase r ++ [ns.length]) =
        weightSum ns ((w.erase l).erase r) + (internalOf ns l r).weight.toNat := by
      rw [← hcongr]; simp [weightSum, hnew]
    omega

/-- The loop keeps the invariant and, given enough fuel, ends with one index in the worklist. -/
theorem mergeLoop_grown (leaves : List Node) (total : Nat) (hn : leaves.length ≤ 256) (ht : total < 2 ^ 40) :
    ∀ (fuel : Nat) (ns : List Node) (w : List Nat), Grown leaves total ns w → w.length ≤ fuel + 1 →
      Grown leaves total (mergeLoop fuel ns w).1 (mergeLoop fuel ns w).2 ∧ (mergeLoop fuel ns w).2.length = 1 := by
  intro fuel
  induction fuel with
  | zero =>
    intro ns w h hw
    have := List.length_pos_of_mem h.last
    exact ⟨h, by simp only [mergeLoop]; omega⟩
  | succ fuel ih =>
    intro ns w h hw
    have hpos := List.length_pos_of_mem h.last
    obtain ⟨l, w1, h1⟩ := popMin_isSome ns w (List.ne_nil_of_mem h.last)
    simp only [mergeLoop, h1]
    cases h2 : popMin ns w1 with
    | none =>
      have hw1 : w1 = [] := by
        by_contra hc
        obtain ⟨a, b, hab⟩ := popMin_isSome ns w1 hc
        rw [hab] at h2; cases h2
      obtain ⟨hl, he, -⟩ := popMin_spec _ _ _ _ h1
      have := List.length_erase_of_mem hl
      rw [← he, hw1] at this
      exact ⟨h, by simp at this; simp only; omega⟩
    | some p =>
      obtain ⟨r, w2⟩ := p
      obtain ⟨hg, hlen⟩ := h.merge hn ht h1 h2
      exact ih _ _ hg (by simp; omega)

/-! ### The end of the loop -/

theorem weightSum_leaves (l : List (Byte × Word)) :
    weightSum (l.map leafOf) (List.range (l.map leafOf).length) = (l.map fun e => e.2.toNat).sum := by
  unfold weightSum
  congr 1
  refine List.ext_getElem (by simp) fun i h1 h2 => ?_
  simp only [List.length_map, List.length_range] at h1 h2
  have h3 : i < l.length := by simpa using h2
  have := (l[i].2).isLt
  simp [nodeOf, List.getD_eq_getElem?_getD, h3, leafOf]
  omega

theorem counts_sum_le (l : List (Byte × Word)) (h : l.length ≤ 256) :
    (l.map fun e => e.2.toNat).sum ≤ 256 * (2 ^ 32 - 1) := by
  have key : (l.map fun e => e.2.toNat).sum ≤ l.length * (2 ^ 32 - 1) := by
    clear h
    induction l with
    | nil => exact Nat.le_refl 0
    | cons e l ih =>
      have := e.2.isLt
      rw [List.map_cons, List.sum_cons, List.length_cons, Nat.succ_mul]
      omega
  exact Nat.le_trans key (Nat.mul_le_mul_right _ h)

/-- What BUILD computes from a non-empty frequency list of at most 256 entries: the invariant at the end of the loop,
one index left in the worklist, the last. -/
theorem buildTree_spec (l : List (Byte × Word)) (hne : l ≠ []) (hl : l.length ≤ 256) :
    Grown (l.map leafOf) ((l.map fun e => e.2.toNat).sum) (buildArena l) (buildTree l).2 ∧
      (buildTree l).2 = [2 * l.length - 2] ∧ (buildArena l).length = 2 * l.length - 1 := by
  have hsum := counts_sum_le l hl
  have hne' : l.map leafOf ≠ [] := by simpa using hne
  have h0 := grown_init (l.map leafOf) hne'
  rw [weightSum_leaves] at h0
  simp only [List.length_map] at h0
  obtain ⟨h1, h2⟩ := mergeLoop_grown (l.map leafOf) _ (by simpa using hl) (by omega) l.length _ _ h0 (by simp)
  have h3 : (buildArena l).length + (buildTree l).2.length = 2 * l.length := by
    have := h1.size; rw [List.length_map] at this; exact this
  have h4 : (buildTree l).2.length = 1 := h2
  have hlen : (buildArena l).length = 2 * l.length - 1 := by omega
  refine ⟨h1, ?_, hlen⟩
  have hlast : (buildArena l).length - 1 ∈ (buildTree l).2 := h1.last
  obtain ⟨x, hx⟩ := List.length_eq_one_iff.1 h4
  rw [hx, List.mem_singleton] at hlast
  rw [hx, ← hlast, hlen]
  congr 1

theorem buildRoot_eq (l : List (Byte × Word)) (hne : l ≠ []) (hl : l.length ≤ 256) :
    buildRoot l = 2 * l.length - 2 := by
  rw [buildRoot, (buildTree_spec l hne hl).2.1]; rfl

/-- The leaves of the arena (R68). -/
theorem buildArena_leaf (l : List (Byte × Word)) (hne : l ≠ []) (hl : l.length ≤ 256) (k : Nat) (h : k < l.length) :
    nodeOf (buildArena l) k = leafOf l[k] := by
  obtain ⟨ms, hms⟩ := (buildTree_spec l hne hl).1.leaves_first
  rw [hms, nodeOf_append_left _ _ _ (by simpa using h)]
  simp [nodeOf, List.getD_eq_getElem?_getD, h]

/-- The internal nodes of the arena (R71). -/
theorem buildArena_merged (l : List (Byte × Word)) (hne : l ≠ []) (hl : l.length ≤ 256) (i : Nat)
    (h1 : l.length ≤ i) (h2 : i < 2 * l.length - 1) : MergedAt (buildArena l) l.length i := by
  obtain ⟨hg, -, hlen⟩ := buildTree_spec l hne hl
  simpa using hg.merged i (by simpa using h1) (by omega)

/-- Every index but the root is a child of some internal node (R77). -/
theorem buildArena_has_parent (l : List (Byte × Word)) (hne : l ≠ []) (hl : l.length ≤ 256) (k : Nat)
    (h : k < 2 * l.length - 2) : ∃ i, l.length ≤ i ∧ i < 2 * l.length - 1 ∧
      ((nodeOf (buildArena l) i).left.toNat = k ∨ (nodeOf (buildArena l) i).right.toNat = k) := by
  obtain ⟨hg, hw, hlen⟩ := buildTree_spec l hne hl
  by_contra hc
  push Not at hc
  have : k ∈ (buildTree l).2 := (hg.mem k).2 ⟨by omega, fun m m1 m2 =>
    hc m (by simpa using m1) (by omega)⟩
  rw [hw, List.mem_singleton] at this
  omega

/-- The weight of the root is the sum of the counts (R74). -/
theorem buildArena_total (l : List (Byte × Word)) (hne : l ≠ []) (hl : l.length ≤ 256) :
    (nodeOf (buildArena l) (2 * l.length - 2)).weight.toNat = (l.map fun e => e.2.toNat).sum := by
  obtain ⟨hg, hw, -⟩ := buildTree_spec l hne hl
  have := hg.weight
  rw [hw] at this
  simpa [weightSum] using this

end BuildLaws

end Sys2Proof.Machine
end

