-- ==== Sys2Proof/Laws/Memory.lean ====
section
/-! SUPPORT. The laws of DMEM: read after write, read after erase, and that every memory operation keeps the canonical
form and the bound. The read laws need no premise on the memory. -/

namespace Sys2Proof.Machine

namespace MemoryLaws

variable (m : Memory)

@[simp] theorem read_nil (a : Nat) : Memory.read [] a = none := rfl

theorem read_cons (k : Nat) (b : Byte) (a : Nat) :
    Memory.read ((k, b) :: m) a = if k = a then some b else Memory.read m a := rfl

/-- A read after a write: the byte written at its address, every other address as before. -/
theorem read_write (a b : Nat) (x : Byte) : (m.write a x).read b = if a = b then some x else m.read b := by
  induction m with
  | nil => simp [Memory.write, Memory.read]
  | cons c m ih =>
    obtain ⟨k, y⟩ := c
    simp only [Memory.write]
    split
    · simp [read_cons]
    · split
      · simp only [read_cons]; subst_vars; split <;> simp_all
      · simp only [read_cons, ih]; split <;> split <;> simp_all

/-- A read after an erase: inside the range no value, outside as before. -/
theorem read_erase (base len a : Nat) :
    (m.erase base len).read a = if base ≤ a ∧ a < base + len then none else m.read a := by
  induction m with
  | nil => simp [Memory.erase]
  | cons c m ih =>
    obtain ⟨k, y⟩ := c
    unfold Memory.erase at ih ⊢
    simp only [List.filter_cons]
    by_cases hk : base ≤ k ∧ k < base + len
    · simp only [hk.1, hk.2, decide_true, Bool.and_self, Bool.not_true, Bool.false_eq_true, if_false, ih, read_cons]
      split
      · rfl
      · split
        · subst_vars; contradiction
        · rfl
    · have : (!(decide (base ≤ k) && decide (k < base + len))) = true := by simp; omega
      simp only [this, if_true, read_cons, ih]
      split
      · subst_vars; simp [hk]
      · rfl

/-- A read after `MemWrite`: the bytes written inside their range, every other address as before. -/
theorem read_writeBytes (v : List Byte) : ∀ (m : Memory) (base a : Nat),
    (m.writeBytes base v).read a = if base ≤ a ∧ a < base + v.length then v[a - base]? else m.read a := by
  induction v with
  | nil => intro m base a; simp [Memory.writeBytes]
  | cons b v ih =>
    intro m base a
    simp only [Memory.writeBytes, ih, read_write, List.length_cons]
    by_cases h1 : base + 1 ≤ a ∧ a < base + 1 + v.length
    · have h2 : base ≤ a ∧ a < base + (v.length + 1) := by omega
      rw [if_pos h1, if_pos h2, show a - base = (a - (base + 1)) + 1 by omega, List.getElem?_cons_succ]
    · rw [if_neg h1]
      by_cases h3 : base = a
      · subst h3; simp
      · rw [if_neg h3, if_neg (by omega)]

/-- Reading back exactly what was written. -/
theorem readBytes_eq_some (n : Nat) : ∀ (m : Memory) (base : Nat) (v : List Byte),
    m.readBytes base n = some v ↔ v.length = n ∧ ∀ k, k < n → m.read (base + k) = v[k]? := by
  induction n with
  | zero => intro m base v; cases v <;> simp [Memory.readBytes]
  | succ n ih =>
    intro m base v
    simp only [Memory.readBytes]
    cases hr : m.read base with
    | none =>
      simp only [reduceCtorEq, false_iff, not_and]
      intro hl hk
      have := hk 0 (by omega)
      rw [Nat.add_zero, hr] at this
      cases v with
      | nil => simp at hl
      | cons => simp at this
    | some b =>
      simp only [Option.map_eq_some_iff]
      constructor
      · rintro ⟨w, hw, rfl⟩
        obtain ⟨hl, hk⟩ := (ih m (base + 1) w).1 hw
        refine ⟨by simp [hl], fun k hkn => ?_⟩
        cases k with
        | zero => simpa using hr
        | succ k => simpa [Nat.add_assoc, Nat.add_comm 1 k] using hk k (by omega)
      · rintro ⟨hl, hk⟩
        cases v with
        | nil => simp at hl
        | cons c w =>
          have h0 := hk 0 (by omega)
          rw [Nat.add_zero, hr] at h0
          obtain rfl : b = c := by simpa using h0
          refine ⟨w, (ih m (base + 1) w).2 ⟨by simpa using hl, fun k hkn => ?_⟩, rfl⟩
          have := hk (k + 1) (by omega)
          simpa [Nat.add_assoc, Nat.add_comm 1 k] using this

/-- `MemRead` after `MemWrite` of the same bytes at the same address. -/
theorem readBytes_writeBytes (base : Nat) (v : List Byte) : (m.writeBytes base v).readBytes base v.length = some v := by
  refine (readBytes_eq_some _ _ _ _).2 ⟨rfl, fun k hk => ?_⟩
  rw [read_writeBytes, if_pos (by omega), Nat.add_sub_cancel_left]

/-- Two memories that agree on a range read the same bytes there. -/
theorem readBytes_congr (m' : Memory) (n : Nat) : ∀ base : Nat,
    (∀ a, base ≤ a → a < base + n → m.read a = m'.read a) → m.readBytes base n = m'.readBytes base n := by
  induction n with
  | zero => intros; rfl
  | succ n ih =>
    intro base h
    simp only [Memory.readBytes, h base (by omega) (by omega), ih (base + 1) (fun a h1 h2 => h a (by omega) (by omega))]

theorem readBytes_length (n base : Nat) (v : List Byte) (h : m.readBytes base n = some v) : v.length = n :=
  ((readBytes_eq_some n m base v).1 h).1

/-! ### The canonical form -/

/-- Strictly rising addresses, said with `List.Pairwise`. -/
theorem wf_iff_pairwise : m.wf = true ↔ m.Pairwise (fun c d => c.1 < d.1) := by
  induction m with
  | nil => simp [Memory.wf]
  | cons c m ih =>
    obtain ⟨a, x⟩ := c
    cases m with
    | nil => simp [Memory.wf]
    | cons d m =>
      obtain ⟨b, y⟩ := d
      simp only [Memory.wf, Bool.and_eq_true, decide_eq_true_eq, ih]
      constructor
      · rintro ⟨hab, hp⟩
        refine List.pairwise_cons.2 ⟨fun e he => ?_, hp⟩
        rcases List.mem_cons.1 he with rfl | he
        · exact hab
        · exact Nat.lt_trans hab ((List.pairwise_cons.1 hp).1 e he)
      · intro hp
        obtain ⟨h1, h2⟩ := List.pairwise_cons.1 hp
        exact ⟨h1 _ (List.mem_cons_self ..), h2⟩

theorem mem_write (a : Nat) (b : Byte) (c : Host.Cell) (h : c ∈ m.write a b) : c = (a, b) ∨ c ∈ m := by
  induction m with
  | nil => simpa [Memory.write] using h
  | cons d m ih =>
    obtain ⟨k, y⟩ := d
    simp only [Memory.write] at h
    split at h
    · simpa using h
    · split at h
      · rcases List.mem_cons.1 h with h | h
        · exact .inl h
        · exact .inr (List.mem_cons_of_mem _ h)
      · rcases List.mem_cons.1 h with h | h
        · exact .inr (h ▸ List.mem_cons_self ..)
        · exact (ih h).imp_right (List.mem_cons_of_mem _)

/-- A write keeps the canonical form. -/
theorem wf_write (a : Nat) (b : Byte) (h : m.wf = true) : (m.write a b).wf = true := by
  rw [wf_iff_pairwise] at h ⊢
  induction m with
  | nil => simp [Memory.write]
  | cons d m ih =>
    obtain ⟨k, y⟩ := d
    obtain ⟨h1, h2⟩ := List.pairwise_cons.1 h
    simp only [Memory.write]
    split
    · refine List.pairwise_cons.2 ⟨fun e he => ?_, h⟩
      rcases List.mem_cons.1 he with rfl | he
      · assumption
      · exact Nat.lt_trans ‹a < k› (h1 e he)
    · split
      · subst_vars; exact List.pairwise_cons.2 ⟨h1, h2⟩
      · refine List.pairwise_cons.2 ⟨fun e he => ?_, ih h2⟩
        rcases mem_write m a b e he with rfl | he
        · simp only; omega
        · exact h1 e he

/-- An erase keeps the canonical form. -/
theorem wf_erase (base len : Nat) (h : m.wf = true) : (m.erase base len).wf = true := by
  rw [wf_iff_pairwise] at h ⊢
  exact h.filter _

/-- `MemWrite` keeps the canonical form. -/
theorem wf_writeBytes (v : List Byte) : ∀ (m : Memory) (a : Nat), m.wf = true → (m.writeBytes a v).wf = true := by
  induction v with
  | nil => intro m a h; exact h
  | cons b v ih => intro m a h; exact ih _ _ (wf_write m a b h)

/-! ### The bound -/

theorem below_iff (n : Nat) : m.below n = true ↔ ∀ c ∈ m, c.1 < n := by
  simp [Memory.below]

/-- A write below the bound keeps the bound. -/
theorem below_write (n a : Nat) (b : Byte) (ha : a < n) (h : m.below n = true) : (m.write a b).below n = true := by
  rw [below_iff] at h ⊢
  intro c hc
  rcases mem_write m a b c hc with rfl | hc
  · exact ha
  · exact h c hc

/-- An erase keeps the bound. -/
theorem below_erase (n base len : Nat) (h : m.below n = true) : (m.erase base len).below n = true := by
  rw [below_iff] at h ⊢
  exact fun c hc => h c (List.mem_filter.1 hc).1

/-- `MemWrite` of a range below the bound keeps the bound. -/
theorem below_writeBytes (n : Nat) (v : List Byte) : ∀ (m : Memory) (a : Nat),
    a + v.length ≤ n → m.below n = true → (m.writeBytes a v).below n = true := by
  induction v with
  | nil => intro m a _ h; exact h
  | cons b v ih =>
    intro m a ha h
    simp only [List.length_cons] at ha
    exact ih _ _ (by omega) (below_write m n a b (by omega) h)

end MemoryLaws

end Sys2Proof.Machine
end

