-- ==== Sys2Proof/Laws/State.lean ====
section
/-! SUPPORT. One lemma per field of State (and of Status) per update, each true by unfolding, for the simplifier. -/

namespace Sys2Proof.Machine

variable (s : State)

/-! ### setStatus -/

@[simp] theorem setStatus_cfg (st : Status) : (s.setStatus st).cfg = s.cfg := rfl
@[simp] theorem setStatus_status (st : Status) : (s.setStatus st).status = st := rfl
@[simp] theorem setStatus_srcBase (st : Status) : (s.setStatus st).srcBase = s.srcBase := rfl
@[simp] theorem setStatus_srcLen (st : Status) : (s.setStatus st).srcLen = s.srcLen := rfl
@[simp] theorem setStatus_dstBase (st : Status) : (s.setStatus st).dstBase = s.dstBase := rfl
@[simp] theorem setStatus_dstCap (st : Status) : (s.setStatus st).dstCap = s.dstCap := rfl
@[simp] theorem setStatus_dstLen (st : Status) : (s.setStatus st).dstLen = s.dstLen := rfl
@[simp] theorem setStatus_padding (st : Status) : (s.setStatus st).padding = s.padding := rfl
@[simp] theorem setStatus_root (st : Status) : (s.setStatus st).root = s.root := rfl
@[simp] theorem setStatus_nodeCount (st : Status) : (s.setStatus st).nodeCount = s.nodeCount := rfl
@[simp] theorem setStatus_leafCount (st : Status) : (s.setStatus st).leafCount = s.leafCount := rfl
@[simp] theorem setStatus_hdrLen (st : Status) : (s.setStatus st).hdrLen = s.hdrLen := rfl
@[simp] theorem setStatus_payloadOff (st : Status) : (s.setStatus st).payloadOff = s.payloadOff := rfl
@[simp] theorem setStatus_payloadLen (st : Status) : (s.setStatus st).payloadLen = s.payloadLen := rfl
@[simp] theorem setStatus_maxCodeLen (st : Status) : (s.setStatus st).maxCodeLen = s.maxCodeLen := rfl
@[simp] theorem setStatus_freq (st : Status) : (s.setStatus st).freq = s.freq := rfl
@[simp] theorem setStatus_node (st : Status) : (s.setStatus st).node = s.node := rfl
@[simp] theorem setStatus_code (st : Status) : (s.setStatus st).code = s.code := rfl
@[simp] theorem setStatus_mem (st : Status) : (s.setStatus st).mem = s.mem := rfl
@[simp] theorem setStatus_inbox (st : Status) : (s.setStatus st).inbox = s.inbox := rfl
@[simp] theorem setStatus_replies (st : Status) : (s.setStatus st).replies = s.replies := rfl

/-! ### setSrcBase -/

@[simp] theorem setSrcBase_cfg (v : Word) : (s.setSrcBase v).cfg = s.cfg := rfl
@[simp] theorem setSrcBase_status (v : Word) : (s.setSrcBase v).status = s.status := rfl
@[simp] theorem setSrcBase_srcBase (v : Word) : (s.setSrcBase v).srcBase = v := rfl
@[simp] theorem setSrcBase_srcLen (v : Word) : (s.setSrcBase v).srcLen = s.srcLen := rfl
@[simp] theorem setSrcBase_dstBase (v : Word) : (s.setSrcBase v).dstBase = s.dstBase := rfl
@[simp] theorem setSrcBase_dstCap (v : Word) : (s.setSrcBase v).dstCap = s.dstCap := rfl
@[simp] theorem setSrcBase_dstLen (v : Word) : (s.setSrcBase v).dstLen = s.dstLen := rfl
@[simp] theorem setSrcBase_padding (v : Word) : (s.setSrcBase v).padding = s.padding := rfl
@[simp] theorem setSrcBase_root (v : Word) : (s.setSrcBase v).root = s.root := rfl
@[simp] theorem setSrcBase_nodeCount (v : Word) : (s.setSrcBase v).nodeCount = s.nodeCount := rfl
@[simp] theorem setSrcBase_leafCount (v : Word) : (s.setSrcBase v).leafCount = s.leafCount := rfl
@[simp] theorem setSrcBase_hdrLen (v : Word) : (s.setSrcBase v).hdrLen = s.hdrLen := rfl
@[simp] theorem setSrcBase_payloadOff (v : Word) : (s.setSrcBase v).payloadOff = s.payloadOff := rfl
@[simp] theorem setSrcBase_payloadLen (v : Word) : (s.setSrcBase v).payloadLen = s.payloadLen := rfl
@[simp] theorem setSrcBase_maxCodeLen (v : Word) : (s.setSrcBase v).maxCodeLen = s.maxCodeLen := rfl
@[simp] theorem setSrcBase_freq (v : Word) : (s.setSrcBase v).freq = s.freq := rfl
@[simp] theorem setSrcBase_node (v : Word) : (s.setSrcBase v).node = s.node := rfl
@[simp] theorem setSrcBase_code (v : Word) : (s.setSrcBase v).code = s.code := rfl
@[simp] theorem setSrcBase_mem (v : Word) : (s.setSrcBase v).mem = s.mem := rfl
@[simp] theorem setSrcBase_inbox (v : Word) : (s.setSrcBase v).inbox = s.inbox := rfl
@[simp] theorem setSrcBase_replies (v : Word) : (s.setSrcBase v).replies = s.replies := rfl

/-! ### setSrcLen -/

@[simp] theorem setSrcLen_cfg (v : Word) : (s.setSrcLen v).cfg = s.cfg := rfl
@[simp] theorem setSrcLen_status (v : Word) : (s.setSrcLen v).status = s.status := rfl
@[simp] theorem setSrcLen_srcBase (v : Word) : (s.setSrcLen v).srcBase = s.srcBase := rfl
@[simp] theorem setSrcLen_srcLen (v : Word) : (s.setSrcLen v).srcLen = v := rfl
@[simp] theorem setSrcLen_dstBase (v : Word) : (s.setSrcLen v).dstBase = s.dstBase := rfl
@[simp] theorem setSrcLen_dstCap (v : Word) : (s.setSrcLen v).dstCap = s.dstCap := rfl
@[simp] theorem setSrcLen_dstLen (v : Word) : (s.setSrcLen v).dstLen = s.dstLen := rfl
@[simp] theorem setSrcLen_padding (v : Word) : (s.setSrcLen v).padding = s.padding := rfl
@[simp] theorem setSrcLen_root (v : Word) : (s.setSrcLen v).root = s.root := rfl
@[simp] theorem setSrcLen_nodeCount (v : Word) : (s.setSrcLen v).nodeCount = s.nodeCount := rfl
@[simp] theorem setSrcLen_leafCount (v : Word) : (s.setSrcLen v).leafCount = s.leafCount := rfl
@[simp] theorem setSrcLen_hdrLen (v : Word) : (s.setSrcLen v).hdrLen = s.hdrLen := rfl
@[simp] theorem setSrcLen_payloadOff (v : Word) : (s.setSrcLen v).payloadOff = s.payloadOff := rfl
@[simp] theorem setSrcLen_payloadLen (v : Word) : (s.setSrcLen v).payloadLen = s.payloadLen := rfl
@[simp] theorem setSrcLen_maxCodeLen (v : Word) : (s.setSrcLen v).maxCodeLen = s.maxCodeLen := rfl
@[simp] theorem setSrcLen_freq (v : Word) : (s.setSrcLen v).freq = s.freq := rfl
@[simp] theorem setSrcLen_node (v : Word) : (s.setSrcLen v).node = s.node := rfl
@[simp] theorem setSrcLen_code (v : Word) : (s.setSrcLen v).code = s.code := rfl
@[simp] theorem setSrcLen_mem (v : Word) : (s.setSrcLen v).mem = s.mem := rfl
@[simp] theorem setSrcLen_inbox (v : Word) : (s.setSrcLen v).inbox = s.inbox := rfl
@[simp] theorem setSrcLen_replies (v : Word) : (s.setSrcLen v).replies = s.replies := rfl

/-! ### setDstBase -/

@[simp] theorem setDstBase_cfg (v : Word) : (s.setDstBase v).cfg = s.cfg := rfl
@[simp] theorem setDstBase_status (v : Word) : (s.setDstBase v).status = s.status := rfl
@[simp] theorem setDstBase_srcBase (v : Word) : (s.setDstBase v).srcBase = s.srcBase := rfl
@[simp] theorem setDstBase_srcLen (v : Word) : (s.setDstBase v).srcLen = s.srcLen := rfl
@[simp] theorem setDstBase_dstBase (v : Word) : (s.setDstBase v).dstBase = v := rfl
@[simp] theorem setDstBase_dstCap (v : Word) : (s.setDstBase v).dstCap = s.dstCap := rfl
@[simp] theorem setDstBase_dstLen (v : Word) : (s.setDstBase v).dstLen = s.dstLen := rfl
@[simp] theorem setDstBase_padding (v : Word) : (s.setDstBase v).padding = s.padding := rfl
@[simp] theorem setDstBase_root (v : Word) : (s.setDstBase v).root = s.root := rfl
@[simp] theorem setDstBase_nodeCount (v : Word) : (s.setDstBase v).nodeCount = s.nodeCount := rfl
@[simp] theorem setDstBase_leafCount (v : Word) : (s.setDstBase v).leafCount = s.leafCount := rfl
@[simp] theorem setDstBase_hdrLen (v : Word) : (s.setDstBase v).hdrLen = s.hdrLen := rfl
@[simp] theorem setDstBase_payloadOff (v : Word) : (s.setDstBase v).payloadOff = s.payloadOff := rfl
@[simp] theorem setDstBase_payloadLen (v : Word) : (s.setDstBase v).payloadLen = s.payloadLen := rfl
@[simp] theorem setDstBase_maxCodeLen (v : Word) : (s.setDstBase v).maxCodeLen = s.maxCodeLen := rfl
@[simp] theorem setDstBase_freq (v : Word) : (s.setDstBase v).freq = s.freq := rfl
@[simp] theorem setDstBase_node (v : Word) : (s.setDstBase v).node = s.node := rfl
@[simp] theorem setDstBase_code (v : Word) : (s.setDstBase v).code = s.code := rfl
@[simp] theorem setDstBase_mem (v : Word) : (s.setDstBase v).mem = s.mem := rfl
@[simp] theorem setDstBase_inbox (v : Word) : (s.setDstBase v).inbox = s.inbox := rfl
@[simp] theorem setDstBase_replies (v : Word) : (s.setDstBase v).replies = s.replies := rfl

/-! ### setDstCap -/

@[simp] theorem setDstCap_cfg (v : Word) : (s.setDstCap v).cfg = s.cfg := rfl
@[simp] theorem setDstCap_status (v : Word) : (s.setDstCap v).status = s.status := rfl
@[simp] theorem setDstCap_srcBase (v : Word) : (s.setDstCap v).srcBase = s.srcBase := rfl
@[simp] theorem setDstCap_srcLen (v : Word) : (s.setDstCap v).srcLen = s.srcLen := rfl
@[simp] theorem setDstCap_dstBase (v : Word) : (s.setDstCap v).dstBase = s.dstBase := rfl
@[simp] theorem setDstCap_dstCap (v : Word) : (s.setDstCap v).dstCap = v := rfl
@[simp] theorem setDstCap_dstLen (v : Word) : (s.setDstCap v).dstLen = s.dstLen := rfl
@[simp] theorem setDstCap_padding (v : Word) : (s.setDstCap v).padding = s.padding := rfl
@[simp] theorem setDstCap_root (v : Word) : (s.setDstCap v).root = s.root := rfl
@[simp] theorem setDstCap_nodeCount (v : Word) : (s.setDstCap v).nodeCount = s.nodeCount := rfl
@[simp] theorem setDstCap_leafCount (v : Word) : (s.setDstCap v).leafCount = s.leafCount := rfl
@[simp] theorem setDstCap_hdrLen (v : Word) : (s.setDstCap v).hdrLen = s.hdrLen := rfl
@[simp] theorem setDstCap_payloadOff (v : Word) : (s.setDstCap v).payloadOff = s.payloadOff := rfl
@[simp] theorem setDstCap_payloadLen (v : Word) : (s.setDstCap v).payloadLen = s.payloadLen := rfl
@[simp] theorem setDstCap_maxCodeLen (v : Word) : (s.setDstCap v).maxCodeLen = s.maxCodeLen := rfl
@[simp] theorem setDstCap_freq (v : Word) : (s.setDstCap v).freq = s.freq := rfl
@[simp] theorem setDstCap_node (v : Word) : (s.setDstCap v).node = s.node := rfl
@[simp] theorem setDstCap_code (v : Word) : (s.setDstCap v).code = s.code := rfl
@[simp] theorem setDstCap_mem (v : Word) : (s.setDstCap v).mem = s.mem := rfl
@[simp] theorem setDstCap_inbox (v : Word) : (s.setDstCap v).inbox = s.inbox := rfl
@[simp] theorem setDstCap_replies (v : Word) : (s.setDstCap v).replies = s.replies := rfl

/-! ### setDstLen -/

@[simp] theorem setDstLen_cfg (v : Word) : (s.setDstLen v).cfg = s.cfg := rfl
@[simp] theorem setDstLen_status (v : Word) : (s.setDstLen v).status = s.status := rfl
@[simp] theorem setDstLen_srcBase (v : Word) : (s.setDstLen v).srcBase = s.srcBase := rfl
@[simp] theorem setDstLen_srcLen (v : Word) : (s.setDstLen v).srcLen = s.srcLen := rfl
@[simp] theorem setDstLen_dstBase (v : Word) : (s.setDstLen v).dstBase = s.dstBase := rfl
@[simp] theorem setDstLen_dstCap (v : Word) : (s.setDstLen v).dstCap = s.dstCap := rfl
@[simp] theorem setDstLen_dstLen (v : Word) : (s.setDstLen v).dstLen = v := rfl
@[simp] theorem setDstLen_padding (v : Word) : (s.setDstLen v).padding = s.padding := rfl
@[simp] theorem setDstLen_root (v : Word) : (s.setDstLen v).root = s.root := rfl
@[simp] theorem setDstLen_nodeCount (v : Word) : (s.setDstLen v).nodeCount = s.nodeCount := rfl
@[simp] theorem setDstLen_leafCount (v : Word) : (s.setDstLen v).leafCount = s.leafCount := rfl
@[simp] theorem setDstLen_hdrLen (v : Word) : (s.setDstLen v).hdrLen = s.hdrLen := rfl
@[simp] theorem setDstLen_payloadOff (v : Word) : (s.setDstLen v).payloadOff = s.payloadOff := rfl
@[simp] theorem setDstLen_payloadLen (v : Word) : (s.setDstLen v).payloadLen = s.payloadLen := rfl
@[simp] theorem setDstLen_maxCodeLen (v : Word) : (s.setDstLen v).maxCodeLen = s.maxCodeLen := rfl
@[simp] theorem setDstLen_freq (v : Word) : (s.setDstLen v).freq = s.freq := rfl
@[simp] theorem setDstLen_node (v : Word) : (s.setDstLen v).node = s.node := rfl
@[simp] theorem setDstLen_code (v : Word) : (s.setDstLen v).code = s.code := rfl
@[simp] theorem setDstLen_mem (v : Word) : (s.setDstLen v).mem = s.mem := rfl
@[simp] theorem setDstLen_inbox (v : Word) : (s.setDstLen v).inbox = s.inbox := rfl
@[simp] theorem setDstLen_replies (v : Word) : (s.setDstLen v).replies = s.replies := rfl

/-! ### setPadding -/

@[simp] theorem setPadding_cfg (v : BitVec 3) : (s.setPadding v).cfg = s.cfg := rfl
@[simp] theorem setPadding_status (v : BitVec 3) : (s.setPadding v).status = s.status := rfl
@[simp] theorem setPadding_srcBase (v : BitVec 3) : (s.setPadding v).srcBase = s.srcBase := rfl
@[simp] theorem setPadding_srcLen (v : BitVec 3) : (s.setPadding v).srcLen = s.srcLen := rfl
@[simp] theorem setPadding_dstBase (v : BitVec 3) : (s.setPadding v).dstBase = s.dstBase := rfl
@[simp] theorem setPadding_dstCap (v : BitVec 3) : (s.setPadding v).dstCap = s.dstCap := rfl
@[simp] theorem setPadding_dstLen (v : BitVec 3) : (s.setPadding v).dstLen = s.dstLen := rfl
@[simp] theorem setPadding_padding (v : BitVec 3) : (s.setPadding v).padding = v := rfl
@[simp] theorem setPadding_root (v : BitVec 3) : (s.setPadding v).root = s.root := rfl
@[simp] theorem setPadding_nodeCount (v : BitVec 3) : (s.setPadding v).nodeCount = s.nodeCount := rfl
@[simp] theorem setPadding_leafCount (v : BitVec 3) : (s.setPadding v).leafCount = s.leafCount := rfl
@[simp] theorem setPadding_hdrLen (v : BitVec 3) : (s.setPadding v).hdrLen = s.hdrLen := rfl
@[simp] theorem setPadding_payloadOff (v : BitVec 3) : (s.setPadding v).payloadOff = s.payloadOff := rfl
@[simp] theorem setPadding_payloadLen (v : BitVec 3) : (s.setPadding v).payloadLen = s.payloadLen := rfl
@[simp] theorem setPadding_maxCodeLen (v : BitVec 3) : (s.setPadding v).maxCodeLen = s.maxCodeLen := rfl
@[simp] theorem setPadding_freq (v : BitVec 3) : (s.setPadding v).freq = s.freq := rfl
@[simp] theorem setPadding_node (v : BitVec 3) : (s.setPadding v).node = s.node := rfl
@[simp] theorem setPadding_code (v : BitVec 3) : (s.setPadding v).code = s.code := rfl
@[simp] theorem setPadding_mem (v : BitVec 3) : (s.setPadding v).mem = s.mem := rfl
@[simp] theorem setPadding_inbox (v : BitVec 3) : (s.setPadding v).inbox = s.inbox := rfl
@[simp] theorem setPadding_replies (v : BitVec 3) : (s.setPadding v).replies = s.replies := rfl

/-! ### setExtent -/

@[simp] theorem setExtent_cfg (r : BitVec 9) (n : BitVec 10) (l : BitVec 9) : (s.setExtent r n l).cfg = s.cfg := rfl
@[simp] theorem setExtent_status (r : BitVec 9) (n : BitVec 10) (l : BitVec 9) : (s.setExtent r n l).status = s.status := rfl
@[simp] theorem setExtent_srcBase (r : BitVec 9) (n : BitVec 10) (l : BitVec 9) : (s.setExtent r n l).srcBase = s.srcBase := rfl
@[simp] theorem setExtent_srcLen (r : BitVec 9) (n : BitVec 10) (l : BitVec 9) : (s.setExtent r n l).srcLen = s.srcLen := rfl
@[simp] theorem setExtent_dstBase (r : BitVec 9) (n : BitVec 10) (l : BitVec 9) : (s.setExtent r n l).dstBase = s.dstBase := rfl
@[simp] theorem setExtent_dstCap (r : BitVec 9) (n : BitVec 10) (l : BitVec 9) : (s.setExtent r n l).dstCap = s.dstCap := rfl
@[simp] theorem setExtent_dstLen (r : BitVec 9) (n : BitVec 10) (l : BitVec 9) : (s.setExtent r n l).dstLen = s.dstLen := rfl
@[simp] theorem setExtent_padding (r : BitVec 9) (n : BitVec 10) (l : BitVec 9) : (s.setExtent r n l).padding = s.padding := rfl
@[simp] theorem setExtent_root (r : BitVec 9) (n : BitVec 10) (l : BitVec 9) : (s.setExtent r n l).root = r := rfl
@[simp] theorem setExtent_nodeCount (r : BitVec 9) (n : BitVec 10) (l : BitVec 9) : (s.setExtent r n l).nodeCount = n := rfl
@[simp] theorem setExtent_leafCount (r : BitVec 9) (n : BitVec 10) (l : BitVec 9) : (s.setExtent r n l).leafCount = l := rfl
@[simp] theorem setExtent_hdrLen (r : BitVec 9) (n : BitVec 10) (l : BitVec 9) : (s.setExtent r n l).hdrLen = s.hdrLen := rfl
@[simp] theorem setExtent_payloadOff (r : BitVec 9) (n : BitVec 10) (l : BitVec 9) : (s.setExtent r n l).payloadOff = s.payloadOff := rfl
@[simp] theorem setExtent_payloadLen (r : BitVec 9) (n : BitVec 10) (l : BitVec 9) : (s.setExtent r n l).payloadLen = s.payloadLen := rfl
@[simp] theorem setExtent_maxCodeLen (r : BitVec 9) (n : BitVec 10) (l : BitVec 9) : (s.setExtent r n l).maxCodeLen = s.maxCodeLen := rfl
@[simp] theorem setExtent_freq (r : BitVec 9) (n : BitVec 10) (l : BitVec 9) : (s.setExtent r n l).freq = s.freq := rfl
@[simp] theorem setExtent_node (r : BitVec 9) (n : BitVec 10) (l : BitVec 9) : (s.setExtent r n l).node = s.node := rfl
@[simp] theorem setExtent_code (r : BitVec 9) (n : BitVec 10) (l : BitVec 9) : (s.setExtent r n l).code = s.code := rfl
@[simp] theorem setExtent_mem (r : BitVec 9) (n : BitVec 10) (l : BitVec 9) : (s.setExtent r n l).mem = s.mem := rfl
@[simp] theorem setExtent_inbox (r : BitVec 9) (n : BitVec 10) (l : BitVec 9) : (s.setExtent r n l).inbox = s.inbox := rfl
@[simp] theorem setExtent_replies (r : BitVec 9) (n : BitVec 10) (l : BitVec 9) : (s.setExtent r n l).replies = s.replies := rfl

/-! ### setContainer -/

@[simp] theorem setContainer_cfg (h o l : Word) : (s.setContainer h o l).cfg = s.cfg := rfl
@[simp] theorem setContainer_status (h o l : Word) : (s.setContainer h o l).status = s.status := rfl
@[simp] theorem setContainer_srcBase (h o l : Word) : (s.setContainer h o l).srcBase = s.srcBase := rfl
@[simp] theorem setContainer_srcLen (h o l : Word) : (s.setContainer h o l).srcLen = s.srcLen := rfl
@[simp] theorem setContainer_dstBase (h o l : Word) : (s.setContainer h o l).dstBase = s.dstBase := rfl
@[simp] theorem setContainer_dstCap (h o l : Word) : (s.setContainer h o l).dstCap = s.dstCap := rfl
@[simp] theorem setContainer_dstLen (h o l : Word) : (s.setContainer h o l).dstLen = s.dstLen := rfl
@[simp] theorem setContainer_padding (h o l : Word) : (s.setContainer h o l).padding = s.padding := rfl
@[simp] theorem setContainer_root (h o l : Word) : (s.setContainer h o l).root = s.root := rfl
@[simp] theorem setContainer_nodeCount (h o l : Word) : (s.setContainer h o l).nodeCount = s.nodeCount := rfl
@[simp] theorem setContainer_leafCount (h o l : Word) : (s.setContainer h o l).leafCount = s.leafCount := rfl
@[simp] theorem setContainer_hdrLen (h o l : Word) : (s.setContainer h o l).hdrLen = h := rfl
@[simp] theorem setContainer_payloadOff (h o l : Word) : (s.setContainer h o l).payloadOff = o := rfl
@[simp] theorem setContainer_payloadLen (h o l : Word) : (s.setContainer h o l).payloadLen = l := rfl
@[simp] theorem setContainer_maxCodeLen (h o l : Word) : (s.setContainer h o l).maxCodeLen = s.maxCodeLen := rfl
@[simp] theorem setContainer_freq (h o l : Word) : (s.setContainer h o l).freq = s.freq := rfl
@[simp] theorem setContainer_node (h o l : Word) : (s.setContainer h o l).node = s.node := rfl
@[simp] theorem setContainer_code (h o l : Word) : (s.setContainer h o l).code = s.code := rfl
@[simp] theorem setContainer_mem (h o l : Word) : (s.setContainer h o l).mem = s.mem := rfl
@[simp] theorem setContainer_inbox (h o l : Word) : (s.setContainer h o l).inbox = s.inbox := rfl
@[simp] theorem setContainer_replies (h o l : Word) : (s.setContainer h o l).replies = s.replies := rfl

/-! ### setCodes -/

@[simp] theorem setCodes_cfg (c : Table Bits) (m : BitVec 8) : (s.setCodes c m).cfg = s.cfg := rfl
@[simp] theorem setCodes_status (c : Table Bits) (m : BitVec 8) : (s.setCodes c m).status = s.status := rfl
@[simp] theorem setCodes_srcBase (c : Table Bits) (m : BitVec 8) : (s.setCodes c m).srcBase = s.srcBase := rfl
@[simp] theorem setCodes_srcLen (c : Table Bits) (m : BitVec 8) : (s.setCodes c m).srcLen = s.srcLen := rfl
@[simp] theorem setCodes_dstBase (c : Table Bits) (m : BitVec 8) : (s.setCodes c m).dstBase = s.dstBase := rfl
@[simp] theorem setCodes_dstCap (c : Table Bits) (m : BitVec 8) : (s.setCodes c m).dstCap = s.dstCap := rfl
@[simp] theorem setCodes_dstLen (c : Table Bits) (m : BitVec 8) : (s.setCodes c m).dstLen = s.dstLen := rfl
@[simp] theorem setCodes_padding (c : Table Bits) (m : BitVec 8) : (s.setCodes c m).padding = s.padding := rfl
@[simp] theorem setCodes_root (c : Table Bits) (m : BitVec 8) : (s.setCodes c m).root = s.root := rfl
@[simp] theorem setCodes_nodeCount (c : Table Bits) (m : BitVec 8) : (s.setCodes c m).nodeCount = s.nodeCount := rfl
@[simp] theorem setCodes_leafCount (c : Table Bits) (m : BitVec 8) : (s.setCodes c m).leafCount = s.leafCount := rfl
@[simp] theorem setCodes_hdrLen (c : Table Bits) (m : BitVec 8) : (s.setCodes c m).hdrLen = s.hdrLen := rfl
@[simp] theorem setCodes_payloadOff (c : Table Bits) (m : BitVec 8) : (s.setCodes c m).payloadOff = s.payloadOff := rfl
@[simp] theorem setCodes_payloadLen (c : Table Bits) (m : BitVec 8) : (s.setCodes c m).payloadLen = s.payloadLen := rfl
@[simp] theorem setCodes_maxCodeLen (c : Table Bits) (m : BitVec 8) : (s.setCodes c m).maxCodeLen = m := rfl
@[simp] theorem setCodes_freq (c : Table Bits) (m : BitVec 8) : (s.setCodes c m).freq = s.freq := rfl
@[simp] theorem setCodes_node (c : Table Bits) (m : BitVec 8) : (s.setCodes c m).node = s.node := rfl
@[simp] theorem setCodes_code (c : Table Bits) (m : BitVec 8) : (s.setCodes c m).code = c := rfl
@[simp] theorem setCodes_mem (c : Table Bits) (m : BitVec 8) : (s.setCodes c m).mem = s.mem := rfl
@[simp] theorem setCodes_inbox (c : Table Bits) (m : BitVec 8) : (s.setCodes c m).inbox = s.inbox := rfl
@[simp] theorem setCodes_replies (c : Table Bits) (m : BitVec 8) : (s.setCodes c m).replies = s.replies := rfl

/-! ### setFreq -/

@[simp] theorem setFreq_cfg (f : Table Word) : (s.setFreq f).cfg = s.cfg := rfl
@[simp] theorem setFreq_status (f : Table Word) : (s.setFreq f).status = s.status := rfl
@[simp] theorem setFreq_srcBase (f : Table Word) : (s.setFreq f).srcBase = s.srcBase := rfl
@[simp] theorem setFreq_srcLen (f : Table Word) : (s.setFreq f).srcLen = s.srcLen := rfl
@[simp] theorem setFreq_dstBase (f : Table Word) : (s.setFreq f).dstBase = s.dstBase := rfl
@[simp] theorem setFreq_dstCap (f : Table Word) : (s.setFreq f).dstCap = s.dstCap := rfl
@[simp] theorem setFreq_dstLen (f : Table Word) : (s.setFreq f).dstLen = s.dstLen := rfl
@[simp] theorem setFreq_padding (f : Table Word) : (s.setFreq f).padding = s.padding := rfl
@[simp] theorem setFreq_root (f : Table Word) : (s.setFreq f).root = s.root := rfl
@[simp] theorem setFreq_nodeCount (f : Table Word) : (s.setFreq f).nodeCount = s.nodeCount := rfl
@[simp] theorem setFreq_leafCount (f : Table Word) : (s.setFreq f).leafCount = s.leafCount := rfl
@[simp] theorem setFreq_hdrLen (f : Table Word) : (s.setFreq f).hdrLen = s.hdrLen := rfl
@[simp] theorem setFreq_payloadOff (f : Table Word) : (s.setFreq f).payloadOff = s.payloadOff := rfl
@[simp] theorem setFreq_payloadLen (f : Table Word) : (s.setFreq f).payloadLen = s.payloadLen := rfl
@[simp] theorem setFreq_maxCodeLen (f : Table Word) : (s.setFreq f).maxCodeLen = s.maxCodeLen := rfl
@[simp] theorem setFreq_freq (f : Table Word) : (s.setFreq f).freq = f := rfl
@[simp] theorem setFreq_node (f : Table Word) : (s.setFreq f).node = s.node := rfl
@[simp] theorem setFreq_code (f : Table Word) : (s.setFreq f).code = s.code := rfl
@[simp] theorem setFreq_mem (f : Table Word) : (s.setFreq f).mem = s.mem := rfl
@[simp] theorem setFreq_inbox (f : Table Word) : (s.setFreq f).inbox = s.inbox := rfl
@[simp] theorem setFreq_replies (f : Table Word) : (s.setFreq f).replies = s.replies := rfl

/-! ### setNode -/

@[simp] theorem setNode_cfg (v : Arena) : (s.setNode v).cfg = s.cfg := rfl
@[simp] theorem setNode_status (v : Arena) : (s.setNode v).status = s.status := rfl
@[simp] theorem setNode_srcBase (v : Arena) : (s.setNode v).srcBase = s.srcBase := rfl
@[simp] theorem setNode_srcLen (v : Arena) : (s.setNode v).srcLen = s.srcLen := rfl
@[simp] theorem setNode_dstBase (v : Arena) : (s.setNode v).dstBase = s.dstBase := rfl
@[simp] theorem setNode_dstCap (v : Arena) : (s.setNode v).dstCap = s.dstCap := rfl
@[simp] theorem setNode_dstLen (v : Arena) : (s.setNode v).dstLen = s.dstLen := rfl
@[simp] theorem setNode_padding (v : Arena) : (s.setNode v).padding = s.padding := rfl
@[simp] theorem setNode_root (v : Arena) : (s.setNode v).root = s.root := rfl
@[simp] theorem setNode_nodeCount (v : Arena) : (s.setNode v).nodeCount = s.nodeCount := rfl
@[simp] theorem setNode_leafCount (v : Arena) : (s.setNode v).leafCount = s.leafCount := rfl
@[simp] theorem setNode_hdrLen (v : Arena) : (s.setNode v).hdrLen = s.hdrLen := rfl
@[simp] theorem setNode_payloadOff (v : Arena) : (s.setNode v).payloadOff = s.payloadOff := rfl
@[simp] theorem setNode_payloadLen (v : Arena) : (s.setNode v).payloadLen = s.payloadLen := rfl
@[simp] theorem setNode_maxCodeLen (v : Arena) : (s.setNode v).maxCodeLen = s.maxCodeLen := rfl
@[simp] theorem setNode_freq (v : Arena) : (s.setNode v).freq = s.freq := rfl
@[simp] theorem setNode_node (v : Arena) : (s.setNode v).node = v := rfl
@[simp] theorem setNode_code (v : Arena) : (s.setNode v).code = s.code := rfl
@[simp] theorem setNode_mem (v : Arena) : (s.setNode v).mem = s.mem := rfl
@[simp] theorem setNode_inbox (v : Arena) : (s.setNode v).inbox = s.inbox := rfl
@[simp] theorem setNode_replies (v : Arena) : (s.setNode v).replies = s.replies := rfl

/-! ### setMem -/

@[simp] theorem setMem_cfg (m : Memory) : (s.setMem m).cfg = s.cfg := rfl
@[simp] theorem setMem_status (m : Memory) : (s.setMem m).status = s.status := rfl
@[simp] theorem setMem_srcBase (m : Memory) : (s.setMem m).srcBase = s.srcBase := rfl
@[simp] theorem setMem_srcLen (m : Memory) : (s.setMem m).srcLen = s.srcLen := rfl
@[simp] theorem setMem_dstBase (m : Memory) : (s.setMem m).dstBase = s.dstBase := rfl
@[simp] theorem setMem_dstCap (m : Memory) : (s.setMem m).dstCap = s.dstCap := rfl
@[simp] theorem setMem_dstLen (m : Memory) : (s.setMem m).dstLen = s.dstLen := rfl
@[simp] theorem setMem_padding (m : Memory) : (s.setMem m).padding = s.padding := rfl
@[simp] theorem setMem_root (m : Memory) : (s.setMem m).root = s.root := rfl
@[simp] theorem setMem_nodeCount (m : Memory) : (s.setMem m).nodeCount = s.nodeCount := rfl
@[simp] theorem setMem_leafCount (m : Memory) : (s.setMem m).leafCount = s.leafCount := rfl
@[simp] theorem setMem_hdrLen (m : Memory) : (s.setMem m).hdrLen = s.hdrLen := rfl
@[simp] theorem setMem_payloadOff (m : Memory) : (s.setMem m).payloadOff = s.payloadOff := rfl
@[simp] theorem setMem_payloadLen (m : Memory) : (s.setMem m).payloadLen = s.payloadLen := rfl
@[simp] theorem setMem_maxCodeLen (m : Memory) : (s.setMem m).maxCodeLen = s.maxCodeLen := rfl
@[simp] theorem setMem_freq (m : Memory) : (s.setMem m).freq = s.freq := rfl
@[simp] theorem setMem_node (m : Memory) : (s.setMem m).node = s.node := rfl
@[simp] theorem setMem_code (m : Memory) : (s.setMem m).code = s.code := rfl
@[simp] theorem setMem_mem (m : Memory) : (s.setMem m).mem = m := rfl
@[simp] theorem setMem_inbox (m : Memory) : (s.setMem m).inbox = s.inbox := rfl
@[simp] theorem setMem_replies (m : Memory) : (s.setMem m).replies = s.replies := rfl

/-! ### setInbox -/

@[simp] theorem setInbox_cfg (ms : List Move) : (s.setInbox ms).cfg = s.cfg := rfl
@[simp] theorem setInbox_status (ms : List Move) : (s.setInbox ms).status = s.status := rfl
@[simp] theorem setInbox_srcBase (ms : List Move) : (s.setInbox ms).srcBase = s.srcBase := rfl
@[simp] theorem setInbox_srcLen (ms : List Move) : (s.setInbox ms).srcLen = s.srcLen := rfl
@[simp] theorem setInbox_dstBase (ms : List Move) : (s.setInbox ms).dstBase = s.dstBase := rfl
@[simp] theorem setInbox_dstCap (ms : List Move) : (s.setInbox ms).dstCap = s.dstCap := rfl
@[simp] theorem setInbox_dstLen (ms : List Move) : (s.setInbox ms).dstLen = s.dstLen := rfl
@[simp] theorem setInbox_padding (ms : List Move) : (s.setInbox ms).padding = s.padding := rfl
@[simp] theorem setInbox_root (ms : List Move) : (s.setInbox ms).root = s.root := rfl
@[simp] theorem setInbox_nodeCount (ms : List Move) : (s.setInbox ms).nodeCount = s.nodeCount := rfl
@[simp] theorem setInbox_leafCount (ms : List Move) : (s.setInbox ms).leafCount = s.leafCount := rfl
@[simp] theorem setInbox_hdrLen (ms : List Move) : (s.setInbox ms).hdrLen = s.hdrLen := rfl
@[simp] theorem setInbox_payloadOff (ms : List Move) : (s.setInbox ms).payloadOff = s.payloadOff := rfl
@[simp] theorem setInbox_payloadLen (ms : List Move) : (s.setInbox ms).payloadLen = s.payloadLen := rfl
@[simp] theorem setInbox_maxCodeLen (ms : List Move) : (s.setInbox ms).maxCodeLen = s.maxCodeLen := rfl
@[simp] theorem setInbox_freq (ms : List Move) : (s.setInbox ms).freq = s.freq := rfl
@[simp] theorem setInbox_node (ms : List Move) : (s.setInbox ms).node = s.node := rfl
@[simp] theorem setInbox_code (ms : List Move) : (s.setInbox ms).code = s.code := rfl
@[simp] theorem setInbox_mem (ms : List Move) : (s.setInbox ms).mem = s.mem := rfl
@[simp] theorem setInbox_inbox (ms : List Move) : (s.setInbox ms).inbox = ms := rfl
@[simp] theorem setInbox_replies (ms : List Move) : (s.setInbox ms).replies = s.replies := rfl

/-! ### setReplies -/

@[simp] theorem setReplies_cfg (rs : List Reply) : (s.setReplies rs).cfg = s.cfg := rfl
@[simp] theorem setReplies_status (rs : List Reply) : (s.setReplies rs).status = s.status := rfl
@[simp] theorem setReplies_srcBase (rs : List Reply) : (s.setReplies rs).srcBase = s.srcBase := rfl
@[simp] theorem setReplies_srcLen (rs : List Reply) : (s.setReplies rs).srcLen = s.srcLen := rfl
@[simp] theorem setReplies_dstBase (rs : List Reply) : (s.setReplies rs).dstBase = s.dstBase := rfl
@[simp] theorem setReplies_dstCap (rs : List Reply) : (s.setReplies rs).dstCap = s.dstCap := rfl
@[simp] theorem setReplies_dstLen (rs : List Reply) : (s.setReplies rs).dstLen = s.dstLen := rfl
@[simp] theorem setReplies_padding (rs : List Reply) : (s.setReplies rs).padding = s.padding := rfl
@[simp] theorem setReplies_root (rs : List Reply) : (s.setReplies rs).root = s.root := rfl
@[simp] theorem setReplies_nodeCount (rs : List Reply) : (s.setReplies rs).nodeCount = s.nodeCount := rfl
@[simp] theorem setReplies_leafCount (rs : List Reply) : (s.setReplies rs).leafCount = s.leafCount := rfl
@[simp] theorem setReplies_hdrLen (rs : List Reply) : (s.setReplies rs).hdrLen = s.hdrLen := rfl
@[simp] theorem setReplies_payloadOff (rs : List Reply) : (s.setReplies rs).payloadOff = s.payloadOff := rfl
@[simp] theorem setReplies_payloadLen (rs : List Reply) : (s.setReplies rs).payloadLen = s.payloadLen := rfl
@[simp] theorem setReplies_maxCodeLen (rs : List Reply) : (s.setReplies rs).maxCodeLen = s.maxCodeLen := rfl
@[simp] theorem setReplies_freq (rs : List Reply) : (s.setReplies rs).freq = s.freq := rfl
@[simp] theorem setReplies_node (rs : List Reply) : (s.setReplies rs).node = s.node := rfl
@[simp] theorem setReplies_code (rs : List Reply) : (s.setReplies rs).code = s.code := rfl
@[simp] theorem setReplies_mem (rs : List Reply) : (s.setReplies rs).mem = s.mem := rfl
@[simp] theorem setReplies_inbox (rs : List Reply) : (s.setReplies rs).inbox = s.inbox := rfl
@[simp] theorem setReplies_replies (rs : List Reply) : (s.setReplies rs).replies = rs := rfl

/-! ### invalidateCodes -/

@[simp] theorem invalidateCodes_cfg : (s.invalidateCodes).cfg = s.cfg := rfl
@[simp] theorem invalidateCodes_status : (s.invalidateCodes).status = s.status.setCodesValid false := rfl
@[simp] theorem invalidateCodes_srcBase : (s.invalidateCodes).srcBase = s.srcBase := rfl
@[simp] theorem invalidateCodes_srcLen : (s.invalidateCodes).srcLen = s.srcLen := rfl
@[simp] theorem invalidateCodes_dstBase : (s.invalidateCodes).dstBase = s.dstBase := rfl
@[simp] theorem invalidateCodes_dstCap : (s.invalidateCodes).dstCap = s.dstCap := rfl
@[simp] theorem invalidateCodes_dstLen : (s.invalidateCodes).dstLen = s.dstLen := rfl
@[simp] theorem invalidateCodes_padding : (s.invalidateCodes).padding = s.padding := rfl
@[simp] theorem invalidateCodes_root : (s.invalidateCodes).root = s.root := rfl
@[simp] theorem invalidateCodes_nodeCount : (s.invalidateCodes).nodeCount = s.nodeCount := rfl
@[simp] theorem invalidateCodes_leafCount : (s.invalidateCodes).leafCount = s.leafCount := rfl
@[simp] theorem invalidateCodes_hdrLen : (s.invalidateCodes).hdrLen = s.hdrLen := rfl
@[simp] theorem invalidateCodes_payloadOff : (s.invalidateCodes).payloadOff = s.payloadOff := rfl
@[simp] theorem invalidateCodes_payloadLen : (s.invalidateCodes).payloadLen = s.payloadLen := rfl
@[simp] theorem invalidateCodes_maxCodeLen : (s.invalidateCodes).maxCodeLen = 0 := rfl
@[simp] theorem invalidateCodes_freq : (s.invalidateCodes).freq = s.freq := rfl
@[simp] theorem invalidateCodes_node : (s.invalidateCodes).node = s.node := rfl
@[simp] theorem invalidateCodes_code : (s.invalidateCodes).code = noCodes := rfl
@[simp] theorem invalidateCodes_mem : (s.invalidateCodes).mem = s.mem := rfl
@[simp] theorem invalidateCodes_inbox : (s.invalidateCodes).inbox = s.inbox := rfl
@[simp] theorem invalidateCodes_replies : (s.invalidateCodes).replies = s.replies := rfl

/-! ### invalidateTree -/

@[simp] theorem invalidateTree_cfg : (s.invalidateTree).cfg = s.cfg := rfl
@[simp] theorem invalidateTree_status : (s.invalidateTree).status = (s.status.setCodesValid false).setTreeValid false := rfl
@[simp] theorem invalidateTree_srcBase : (s.invalidateTree).srcBase = s.srcBase := rfl
@[simp] theorem invalidateTree_srcLen : (s.invalidateTree).srcLen = s.srcLen := rfl
@[simp] theorem invalidateTree_dstBase : (s.invalidateTree).dstBase = s.dstBase := rfl
@[simp] theorem invalidateTree_dstCap : (s.invalidateTree).dstCap = s.dstCap := rfl
@[simp] theorem invalidateTree_dstLen : (s.invalidateTree).dstLen = s.dstLen := rfl
@[simp] theorem invalidateTree_padding : (s.invalidateTree).padding = s.padding := rfl
@[simp] theorem invalidateTree_root : (s.invalidateTree).root = 0 := rfl
@[simp] theorem invalidateTree_nodeCount : (s.invalidateTree).nodeCount = 0 := rfl
@[simp] theorem invalidateTree_leafCount : (s.invalidateTree).leafCount = 0 := rfl
@[simp] theorem invalidateTree_hdrLen : (s.invalidateTree).hdrLen = s.hdrLen := rfl
@[simp] theorem invalidateTree_payloadOff : (s.invalidateTree).payloadOff = s.payloadOff := rfl
@[simp] theorem invalidateTree_payloadLen : (s.invalidateTree).payloadLen = s.payloadLen := rfl
@[simp] theorem invalidateTree_maxCodeLen : (s.invalidateTree).maxCodeLen = 0 := rfl
@[simp] theorem invalidateTree_freq : (s.invalidateTree).freq = s.freq := rfl
@[simp] theorem invalidateTree_node : (s.invalidateTree).node = s.node := rfl
@[simp] theorem invalidateTree_code : (s.invalidateTree).code = noCodes := rfl
@[simp] theorem invalidateTree_mem : (s.invalidateTree).mem = s.mem := rfl
@[simp] theorem invalidateTree_inbox : (s.invalidateTree).inbox = s.inbox := rfl
@[simp] theorem invalidateTree_replies : (s.invalidateTree).replies = s.replies := rfl

/-! ### complete -/

@[simp] theorem complete_cfg (e : Option Err) : (s.complete e).cfg = s.cfg := rfl
@[simp] theorem complete_status (e : Option Err) : (s.complete e).status = s.status.complete e := rfl
@[simp] theorem complete_srcBase (e : Option Err) : (s.complete e).srcBase = s.srcBase := rfl
@[simp] theorem complete_srcLen (e : Option Err) : (s.complete e).srcLen = s.srcLen := rfl
@[simp] theorem complete_dstBase (e : Option Err) : (s.complete e).dstBase = s.dstBase := rfl
@[simp] theorem complete_dstCap (e : Option Err) : (s.complete e).dstCap = s.dstCap := rfl
@[simp] theorem complete_dstLen (e : Option Err) : (s.complete e).dstLen = s.dstLen := rfl
@[simp] theorem complete_padding (e : Option Err) : (s.complete e).padding = s.padding := rfl
@[simp] theorem complete_root (e : Option Err) : (s.complete e).root = s.root := rfl
@[simp] theorem complete_nodeCount (e : Option Err) : (s.complete e).nodeCount = s.nodeCount := rfl
@[simp] theorem complete_leafCount (e : Option Err) : (s.complete e).leafCount = s.leafCount := rfl
@[simp] theorem complete_hdrLen (e : Option Err) : (s.complete e).hdrLen = s.hdrLen := rfl
@[simp] theorem complete_payloadOff (e : Option Err) : (s.complete e).payloadOff = s.payloadOff := rfl
@[simp] theorem complete_payloadLen (e : Option Err) : (s.complete e).payloadLen = s.payloadLen := rfl
@[simp] theorem complete_maxCodeLen (e : Option Err) : (s.complete e).maxCodeLen = s.maxCodeLen := rfl
@[simp] theorem complete_freq (e : Option Err) : (s.complete e).freq = s.freq := rfl
@[simp] theorem complete_node (e : Option Err) : (s.complete e).node = s.node := rfl
@[simp] theorem complete_code (e : Option Err) : (s.complete e).code = s.code := rfl
@[simp] theorem complete_mem (e : Option Err) : (s.complete e).mem = s.mem := rfl
@[simp] theorem complete_inbox (e : Option Err) : (s.complete e).inbox = s.inbox := rfl
@[simp] theorem complete_replies (e : Option Err) : (s.complete e).replies = s.replies := rfl

/-! ### writeDestination -/

@[simp] theorem writeDestination_cfg (v : List Byte) : (s.writeDestination v).cfg = s.cfg := rfl
@[simp] theorem writeDestination_status (v : List Byte) : (s.writeDestination v).status = s.status := rfl
@[simp] theorem writeDestination_srcBase (v : List Byte) : (s.writeDestination v).srcBase = s.srcBase := rfl
@[simp] theorem writeDestination_srcLen (v : List Byte) : (s.writeDestination v).srcLen = s.srcLen := rfl
@[simp] theorem writeDestination_dstBase (v : List Byte) : (s.writeDestination v).dstBase = s.dstBase := rfl
@[simp] theorem writeDestination_dstCap (v : List Byte) : (s.writeDestination v).dstCap = s.dstCap := rfl
@[simp] theorem writeDestination_dstLen (v : List Byte) : (s.writeDestination v).dstLen = s.dstLen := rfl
@[simp] theorem writeDestination_padding (v : List Byte) : (s.writeDestination v).padding = s.padding := rfl
@[simp] theorem writeDestination_root (v : List Byte) : (s.writeDestination v).root = s.root := rfl
@[simp] theorem writeDestination_nodeCount (v : List Byte) : (s.writeDestination v).nodeCount = s.nodeCount := rfl
@[simp] theorem writeDestination_leafCount (v : List Byte) : (s.writeDestination v).leafCount = s.leafCount := rfl
@[simp] theorem writeDestination_hdrLen (v : List Byte) : (s.writeDestination v).hdrLen = s.hdrLen := rfl
@[simp] theorem writeDestination_payloadOff (v : List Byte) : (s.writeDestination v).payloadOff = s.payloadOff := rfl
@[simp] theorem writeDestination_payloadLen (v : List Byte) : (s.writeDestination v).payloadLen = s.payloadLen := rfl
@[simp] theorem writeDestination_maxCodeLen (v : List Byte) : (s.writeDestination v).maxCodeLen = s.maxCodeLen := rfl
@[simp] theorem writeDestination_freq (v : List Byte) : (s.writeDestination v).freq = s.freq := rfl
@[simp] theorem writeDestination_node (v : List Byte) : (s.writeDestination v).node = s.node := rfl
@[simp] theorem writeDestination_code (v : List Byte) : (s.writeDestination v).code = s.code := rfl
@[simp] theorem writeDestination_mem (v : List Byte) : (s.writeDestination v).mem = s.mem.writeBytes s.dstBase.toNat v := rfl
@[simp] theorem writeDestination_inbox (v : List Byte) : (s.writeDestination v).inbox = s.inbox := rfl
@[simp] theorem writeDestination_replies (v : List Byte) : (s.writeDestination v).replies = s.replies := rfl

/-! ### spoilDestination -/

@[simp] theorem spoilDestination_cfg : (s.spoilDestination).cfg = s.cfg := rfl
@[simp] theorem spoilDestination_status : (s.spoilDestination).status = s.status := rfl
@[simp] theorem spoilDestination_srcBase : (s.spoilDestination).srcBase = s.srcBase := rfl
@[simp] theorem spoilDestination_srcLen : (s.spoilDestination).srcLen = s.srcLen := rfl
@[simp] theorem spoilDestination_dstBase : (s.spoilDestination).dstBase = s.dstBase := rfl
@[simp] theorem spoilDestination_dstCap : (s.spoilDestination).dstCap = s.dstCap := rfl
@[simp] theorem spoilDestination_dstLen : (s.spoilDestination).dstLen = s.dstLen := rfl
@[simp] theorem spoilDestination_padding : (s.spoilDestination).padding = s.padding := rfl
@[simp] theorem spoilDestination_root : (s.spoilDestination).root = s.root := rfl
@[simp] theorem spoilDestination_nodeCount : (s.spoilDestination).nodeCount = s.nodeCount := rfl
@[simp] theorem spoilDestination_leafCount : (s.spoilDestination).leafCount = s.leafCount := rfl
@[simp] theorem spoilDestination_hdrLen : (s.spoilDestination).hdrLen = s.hdrLen := rfl
@[simp] theorem spoilDestination_payloadOff : (s.spoilDestination).payloadOff = s.payloadOff := rfl
@[simp] theorem spoilDestination_payloadLen : (s.spoilDestination).payloadLen = s.payloadLen := rfl
@[simp] theorem spoilDestination_maxCodeLen : (s.spoilDestination).maxCodeLen = s.maxCodeLen := rfl
@[simp] theorem spoilDestination_freq : (s.spoilDestination).freq = s.freq := rfl
@[simp] theorem spoilDestination_node : (s.spoilDestination).node = s.node := rfl
@[simp] theorem spoilDestination_code : (s.spoilDestination).code = s.code := rfl
@[simp] theorem spoilDestination_mem : (s.spoilDestination).mem = s.mem.erase s.dstBase.toNat s.dstCap.toNat := rfl
@[simp] theorem spoilDestination_inbox : (s.spoilDestination).inbox = s.inbox := rfl
@[simp] theorem spoilDestination_replies : (s.spoilDestination).replies = s.replies := rfl

/-! ### reply -/

@[simp] theorem reply_cfg (r : Reply) : (s.reply r).cfg = s.cfg := rfl
@[simp] theorem reply_status (r : Reply) : (s.reply r).status = s.status := rfl
@[simp] theorem reply_srcBase (r : Reply) : (s.reply r).srcBase = s.srcBase := rfl
@[simp] theorem reply_srcLen (r : Reply) : (s.reply r).srcLen = s.srcLen := rfl
@[simp] theorem reply_dstBase (r : Reply) : (s.reply r).dstBase = s.dstBase := rfl
@[simp] theorem reply_dstCap (r : Reply) : (s.reply r).dstCap = s.dstCap := rfl
@[simp] theorem reply_dstLen (r : Reply) : (s.reply r).dstLen = s.dstLen := rfl
@[simp] theorem reply_padding (r : Reply) : (s.reply r).padding = s.padding := rfl
@[simp] theorem reply_root (r : Reply) : (s.reply r).root = s.root := rfl
@[simp] theorem reply_nodeCount (r : Reply) : (s.reply r).nodeCount = s.nodeCount := rfl
@[simp] theorem reply_leafCount (r : Reply) : (s.reply r).leafCount = s.leafCount := rfl
@[simp] theorem reply_hdrLen (r : Reply) : (s.reply r).hdrLen = s.hdrLen := rfl
@[simp] theorem reply_payloadOff (r : Reply) : (s.reply r).payloadOff = s.payloadOff := rfl
@[simp] theorem reply_payloadLen (r : Reply) : (s.reply r).payloadLen = s.payloadLen := rfl
@[simp] theorem reply_maxCodeLen (r : Reply) : (s.reply r).maxCodeLen = s.maxCodeLen := rfl
@[simp] theorem reply_freq (r : Reply) : (s.reply r).freq = s.freq := rfl
@[simp] theorem reply_node (r : Reply) : (s.reply r).node = s.node := rfl
@[simp] theorem reply_code (r : Reply) : (s.reply r).code = s.code := rfl
@[simp] theorem reply_mem (r : Reply) : (s.reply r).mem = s.mem := rfl
@[simp] theorem reply_inbox (r : Reply) : (s.reply r).inbox = s.inbox := rfl
@[simp] theorem reply_replies (r : Reply) : (s.reply r).replies = s.replies ++ [r] := rfl

variable (st : Status)

/-! ### storeTree -/

@[simp] theorem storeTree_cfg (l : List (Byte × Word)) : (s.storeTree l).cfg = s.cfg := rfl
@[simp] theorem storeTree_status (l : List (Byte × Word)) : (s.storeTree l).status = s.status.setTreeValid true := rfl
@[simp] theorem storeTree_srcBase (l : List (Byte × Word)) : (s.storeTree l).srcBase = s.srcBase := rfl
@[simp] theorem storeTree_srcLen (l : List (Byte × Word)) : (s.storeTree l).srcLen = s.srcLen := rfl
@[simp] theorem storeTree_dstBase (l : List (Byte × Word)) : (s.storeTree l).dstBase = s.dstBase := rfl
@[simp] theorem storeTree_dstCap (l : List (Byte × Word)) : (s.storeTree l).dstCap = s.dstCap := rfl
@[simp] theorem storeTree_dstLen (l : List (Byte × Word)) : (s.storeTree l).dstLen = s.dstLen := rfl
@[simp] theorem storeTree_padding (l : List (Byte × Word)) : (s.storeTree l).padding = s.padding := rfl
@[simp] theorem storeTree_root (l : List (Byte × Word)) : (s.storeTree l).root = BitVec.ofNat 9 (buildRoot l) := rfl
@[simp] theorem storeTree_nodeCount (l : List (Byte × Word)) :
    (s.storeTree l).nodeCount = BitVec.ofNat 10 (2 * l.length - 1) := rfl
@[simp] theorem storeTree_leafCount (l : List (Byte × Word)) :
    (s.storeTree l).leafCount = BitVec.ofNat 9 l.length := rfl
@[simp] theorem storeTree_hdrLen (l : List (Byte × Word)) : (s.storeTree l).hdrLen = s.hdrLen := rfl
@[simp] theorem storeTree_payloadOff (l : List (Byte × Word)) : (s.storeTree l).payloadOff = s.payloadOff := rfl
@[simp] theorem storeTree_payloadLen (l : List (Byte × Word)) : (s.storeTree l).payloadLen = s.payloadLen := rfl
@[simp] theorem storeTree_maxCodeLen (l : List (Byte × Word)) : (s.storeTree l).maxCodeLen = s.maxCodeLen := rfl
@[simp] theorem storeTree_freq (l : List (Byte × Word)) : (s.storeTree l).freq = s.freq := rfl
@[simp] theorem storeTree_node (l : List (Byte × Word)) : (s.storeTree l).node = s.node.store (buildArena l) := rfl
@[simp] theorem storeTree_code (l : List (Byte × Word)) : (s.storeTree l).code = s.code := rfl
@[simp] theorem storeTree_mem (l : List (Byte × Word)) : (s.storeTree l).mem = s.mem := rfl
@[simp] theorem storeTree_inbox (l : List (Byte × Word)) : (s.storeTree l).inbox = s.inbox := rfl
@[simp] theorem storeTree_replies (l : List (Byte × Word)) : (s.storeTree l).replies = s.replies := rfl

/-! ### storeCodes -/

@[simp] theorem storeCodes_cfg (c : Table Bits) : (s.storeCodes c).cfg = s.cfg := rfl
@[simp] theorem storeCodes_status (c : Table Bits) : (s.storeCodes c).status = s.status.setCodesValid true := rfl
@[simp] theorem storeCodes_srcBase (c : Table Bits) : (s.storeCodes c).srcBase = s.srcBase := rfl
@[simp] theorem storeCodes_srcLen (c : Table Bits) : (s.storeCodes c).srcLen = s.srcLen := rfl
@[simp] theorem storeCodes_dstBase (c : Table Bits) : (s.storeCodes c).dstBase = s.dstBase := rfl
@[simp] theorem storeCodes_dstCap (c : Table Bits) : (s.storeCodes c).dstCap = s.dstCap := rfl
@[simp] theorem storeCodes_dstLen (c : Table Bits) : (s.storeCodes c).dstLen = s.dstLen := rfl
@[simp] theorem storeCodes_padding (c : Table Bits) : (s.storeCodes c).padding = s.padding := rfl
@[simp] theorem storeCodes_root (c : Table Bits) : (s.storeCodes c).root = s.root := rfl
@[simp] theorem storeCodes_nodeCount (c : Table Bits) : (s.storeCodes c).nodeCount = s.nodeCount := rfl
@[simp] theorem storeCodes_leafCount (c : Table Bits) : (s.storeCodes c).leafCount = s.leafCount := rfl
@[simp] theorem storeCodes_hdrLen (c : Table Bits) : (s.storeCodes c).hdrLen = s.hdrLen := rfl
@[simp] theorem storeCodes_payloadOff (c : Table Bits) : (s.storeCodes c).payloadOff = s.payloadOff := rfl
@[simp] theorem storeCodes_payloadLen (c : Table Bits) : (s.storeCodes c).payloadLen = s.payloadLen := rfl
@[simp] theorem storeCodes_maxCodeLen (c : Table Bits) :
    (s.storeCodes c).maxCodeLen = BitVec.ofNat 8 (maxLength c) := rfl
@[simp] theorem storeCodes_freq (c : Table Bits) : (s.storeCodes c).freq = s.freq := rfl
@[simp] theorem storeCodes_node (c : Table Bits) : (s.storeCodes c).node = s.node := rfl
@[simp] theorem storeCodes_code (c : Table Bits) : (s.storeCodes c).code = c := rfl
@[simp] theorem storeCodes_mem (c : Table Bits) : (s.storeCodes c).mem = s.mem := rfl
@[simp] theorem storeCodes_inbox (c : Table Bits) : (s.storeCodes c).inbox = s.inbox := rfl
@[simp] theorem storeCodes_replies (c : Table Bits) : (s.storeCodes c).replies = s.replies := rfl

/-! ### storePayload -/

@[simp] theorem storePayload_cfg (b : Bits) : (s.storePayload b).cfg = s.cfg := rfl
@[simp] theorem storePayload_status (b : Bits) : (s.storePayload b).status = s.status := rfl
@[simp] theorem storePayload_srcBase (b : Bits) : (s.storePayload b).srcBase = s.srcBase := rfl
@[simp] theorem storePayload_srcLen (b : Bits) : (s.storePayload b).srcLen = s.srcLen := rfl
@[simp] theorem storePayload_dstBase (b : Bits) : (s.storePayload b).dstBase = s.dstBase := rfl
@[simp] theorem storePayload_dstCap (b : Bits) : (s.storePayload b).dstCap = s.dstCap := rfl
@[simp] theorem storePayload_dstLen (b : Bits) : (s.storePayload b).dstLen = BitVec.ofNat 32 (payloadOf b).length := rfl
@[simp] theorem storePayload_padding (b : Bits) : (s.storePayload b).padding = BitVec.ofNat 3 (paddingOf b) := rfl
@[simp] theorem storePayload_root (b : Bits) : (s.storePayload b).root = s.root := rfl
@[simp] theorem storePayload_nodeCount (b : Bits) : (s.storePayload b).nodeCount = s.nodeCount := rfl
@[simp] theorem storePayload_leafCount (b : Bits) : (s.storePayload b).leafCount = s.leafCount := rfl
@[simp] theorem storePayload_hdrLen (b : Bits) : (s.storePayload b).hdrLen = s.hdrLen := rfl
@[simp] theorem storePayload_payloadOff (b : Bits) : (s.storePayload b).payloadOff = s.payloadOff := rfl
@[simp] theorem storePayload_payloadLen (b : Bits) : (s.storePayload b).payloadLen = s.payloadLen := rfl
@[simp] theorem storePayload_maxCodeLen (b : Bits) : (s.storePayload b).maxCodeLen = s.maxCodeLen := rfl
@[simp] theorem storePayload_freq (b : Bits) : (s.storePayload b).freq = s.freq := rfl
@[simp] theorem storePayload_node (b : Bits) : (s.storePayload b).node = s.node := rfl
@[simp] theorem storePayload_code (b : Bits) : (s.storePayload b).code = s.code := rfl
@[simp] theorem storePayload_mem (b : Bits) :
    (s.storePayload b).mem = s.mem.writeBytes s.dstBase.toNat (payloadOf b) := rfl
@[simp] theorem storePayload_inbox (b : Bits) : (s.storePayload b).inbox = s.inbox := rfl
@[simp] theorem storePayload_replies (b : Bits) : (s.storePayload b).replies = s.replies := rfl

/-! ### storeSymbols -/

@[simp] theorem storeSymbols_cfg (out : List Byte) : (s.storeSymbols out).cfg = s.cfg := rfl
@[simp] theorem storeSymbols_status (out : List Byte) : (s.storeSymbols out).status = s.status := rfl
@[simp] theorem storeSymbols_srcBase (out : List Byte) : (s.storeSymbols out).srcBase = s.srcBase := rfl
@[simp] theorem storeSymbols_srcLen (out : List Byte) : (s.storeSymbols out).srcLen = s.srcLen := rfl
@[simp] theorem storeSymbols_dstBase (out : List Byte) : (s.storeSymbols out).dstBase = s.dstBase := rfl
@[simp] theorem storeSymbols_dstCap (out : List Byte) : (s.storeSymbols out).dstCap = s.dstCap := rfl
@[simp] theorem storeSymbols_dstLen (out : List Byte) : (s.storeSymbols out).dstLen = BitVec.ofNat 32 out.length := rfl
@[simp] theorem storeSymbols_padding (out : List Byte) : (s.storeSymbols out).padding = s.padding := rfl
@[simp] theorem storeSymbols_root (out : List Byte) : (s.storeSymbols out).root = s.root := rfl
@[simp] theorem storeSymbols_nodeCount (out : List Byte) : (s.storeSymbols out).nodeCount = s.nodeCount := rfl
@[simp] theorem storeSymbols_leafCount (out : List Byte) : (s.storeSymbols out).leafCount = s.leafCount := rfl
@[simp] theorem storeSymbols_hdrLen (out : List Byte) : (s.storeSymbols out).hdrLen = s.hdrLen := rfl
@[simp] theorem storeSymbols_payloadOff (out : List Byte) : (s.storeSymbols out).payloadOff = s.payloadOff := rfl
@[simp] theorem storeSymbols_payloadLen (out : List Byte) : (s.storeSymbols out).payloadLen = s.payloadLen := rfl
@[simp] theorem storeSymbols_maxCodeLen (out : List Byte) : (s.storeSymbols out).maxCodeLen = s.maxCodeLen := rfl
@[simp] theorem storeSymbols_freq (out : List Byte) : (s.storeSymbols out).freq = s.freq := rfl
@[simp] theorem storeSymbols_node (out : List Byte) : (s.storeSymbols out).node = s.node := rfl
@[simp] theorem storeSymbols_code (out : List Byte) : (s.storeSymbols out).code = s.code := rfl
@[simp] theorem storeSymbols_mem (out : List Byte) :
    (s.storeSymbols out).mem = s.mem.writeBytes s.dstBase.toNat out := rfl
@[simp] theorem storeSymbols_inbox (out : List Byte) : (s.storeSymbols out).inbox = s.inbox := rfl
@[simp] theorem storeSymbols_replies (out : List Byte) : (s.storeSymbols out).replies = s.replies := rfl

/-! ### storeContainer -/

@[simp] theorem storeContainer_cfg (h p : List Byte) : (s.storeContainer h p).cfg = s.cfg := rfl
@[simp] theorem storeContainer_status (h p : List Byte) : (s.storeContainer h p).status = s.status := rfl
@[simp] theorem storeContainer_srcBase (h p : List Byte) : (s.storeContainer h p).srcBase = s.srcBase := rfl
@[simp] theorem storeContainer_srcLen (h p : List Byte) : (s.storeContainer h p).srcLen = s.srcLen := rfl
@[simp] theorem storeContainer_dstBase (h p : List Byte) : (s.storeContainer h p).dstBase = s.dstBase := rfl
@[simp] theorem storeContainer_dstCap (h p : List Byte) : (s.storeContainer h p).dstCap = s.dstCap := rfl
@[simp] theorem storeContainer_dstLen (h p : List Byte) :
    (s.storeContainer h p).dstLen = BitVec.ofNat 32 (4 + h.length + p.length) := rfl
@[simp] theorem storeContainer_padding (h p : List Byte) : (s.storeContainer h p).padding = s.padding := rfl
@[simp] theorem storeContainer_root (h p : List Byte) : (s.storeContainer h p).root = s.root := rfl
@[simp] theorem storeContainer_nodeCount (h p : List Byte) : (s.storeContainer h p).nodeCount = s.nodeCount := rfl
@[simp] theorem storeContainer_leafCount (h p : List Byte) : (s.storeContainer h p).leafCount = s.leafCount := rfl
@[simp] theorem storeContainer_hdrLen (h p : List Byte) :
    (s.storeContainer h p).hdrLen = BitVec.ofNat 32 h.length := rfl
@[simp] theorem storeContainer_payloadOff (h p : List Byte) :
    (s.storeContainer h p).payloadOff = BitVec.ofNat 32 (4 + h.length) := rfl
@[simp] theorem storeContainer_payloadLen (h p : List Byte) :
    (s.storeContainer h p).payloadLen = BitVec.ofNat 32 p.length := rfl
@[simp] theorem storeContainer_maxCodeLen (h p : List Byte) : (s.storeContainer h p).maxCodeLen = s.maxCodeLen := rfl
@[simp] theorem storeContainer_freq (h p : List Byte) : (s.storeContainer h p).freq = s.freq := rfl
@[simp] theorem storeContainer_node (h p : List Byte) : (s.storeContainer h p).node = s.node := rfl
@[simp] theorem storeContainer_code (h p : List Byte) : (s.storeContainer h p).code = s.code := rfl
@[simp] theorem storeContainer_mem (h p : List Byte) :
    (s.storeContainer h p).mem = s.mem.writeBytes s.dstBase.toNat (containerOf h p) := rfl
@[simp] theorem storeContainer_inbox (h p : List Byte) : (s.storeContainer h p).inbox = s.inbox := rfl
@[simp] theorem storeContainer_replies (h p : List Byte) : (s.storeContainer h p).replies = s.replies := rfl

/-! ### loadArtifact -/

@[simp] theorem loadArtifact_cfg (l : List (Byte × Word)) (p : BitVec 3) (h n : Nat) :
    (s.loadArtifact l p h n).cfg = s.cfg := rfl
@[simp] theorem loadArtifact_status (l : List (Byte × Word)) (p : BitVec 3) (h n : Nat) :
    (s.loadArtifact l p h n).status = (s.status.setCodesValid false).setTreeValid false := rfl
@[simp] theorem loadArtifact_srcBase (l : List (Byte × Word)) (p : BitVec 3) (h n : Nat) :
    (s.loadArtifact l p h n).srcBase = s.srcBase := rfl
@[simp] theorem loadArtifact_srcLen (l : List (Byte × Word)) (p : BitVec 3) (h n : Nat) :
    (s.loadArtifact l p h n).srcLen = s.srcLen := rfl
@[simp] theorem loadArtifact_dstBase (l : List (Byte × Word)) (p : BitVec 3) (h n : Nat) :
    (s.loadArtifact l p h n).dstBase = s.dstBase := rfl
@[simp] theorem loadArtifact_dstCap (l : List (Byte × Word)) (p : BitVec 3) (h n : Nat) :
    (s.loadArtifact l p h n).dstCap = s.dstCap := rfl
@[simp] theorem loadArtifact_dstLen (l : List (Byte × Word)) (p : BitVec 3) (h n : Nat) :
    (s.loadArtifact l p h n).dstLen = s.dstLen := rfl
@[simp] theorem loadArtifact_padding (l : List (Byte × Word)) (p : BitVec 3) (h n : Nat) :
    (s.loadArtifact l p h n).padding = p := rfl
@[simp] theorem loadArtifact_root (l : List (Byte × Word)) (p : BitVec 3) (h n : Nat) :
    (s.loadArtifact l p h n).root = 0 := rfl
@[simp] theorem loadArtifact_nodeCount (l : List (Byte × Word)) (p : BitVec 3) (h n : Nat) :
    (s.loadArtifact l p h n).nodeCount = 0 := rfl
@[simp] theorem loadArtifact_leafCount (l : List (Byte × Word)) (p : BitVec 3) (h n : Nat) :
    (s.loadArtifact l p h n).leafCount = 0 := rfl
@[simp] theorem loadArtifact_hdrLen (l : List (Byte × Word)) (p : BitVec 3) (h n : Nat) :
    (s.loadArtifact l p h n).hdrLen = BitVec.ofNat 32 h := rfl
@[simp] theorem loadArtifact_payloadOff (l : List (Byte × Word)) (p : BitVec 3) (h n : Nat) :
    (s.loadArtifact l p h n).payloadOff = BitVec.ofNat 32 (4 + h) := rfl
@[simp] theorem loadArtifact_payloadLen (l : List (Byte × Word)) (p : BitVec 3) (h n : Nat) :
    (s.loadArtifact l p h n).payloadLen = BitVec.ofNat 32 (n - 4 - h) := rfl
@[simp] theorem loadArtifact_maxCodeLen (l : List (Byte × Word)) (p : BitVec 3) (h n : Nat) :
    (s.loadArtifact l p h n).maxCodeLen = 0 := rfl
@[simp] theorem loadArtifact_freq (l : List (Byte × Word)) (p : BitVec 3) (h n : Nat) :
    (s.loadArtifact l p h n).freq = tableOf l := rfl
@[simp] theorem loadArtifact_node (l : List (Byte × Word)) (p : BitVec 3) (h n : Nat) :
    (s.loadArtifact l p h n).node = s.node := rfl
@[simp] theorem loadArtifact_code (l : List (Byte × Word)) (p : BitVec 3) (h n : Nat) :
    (s.loadArtifact l p h n).code = noCodes := rfl
@[simp] theorem loadArtifact_mem (l : List (Byte × Word)) (p : BitVec 3) (h n : Nat) :
    (s.loadArtifact l p h n).mem = s.mem := rfl
@[simp] theorem loadArtifact_inbox (l : List (Byte × Word)) (p : BitVec 3) (h n : Nat) :
    (s.loadArtifact l p h n).inbox = s.inbox := rfl
@[simp] theorem loadArtifact_replies (l : List (Byte × Word)) (p : BitVec 3) (h n : Nat) :
    (s.loadArtifact l p h n).replies = s.replies := rfl

/-! ### Status.accept -/

@[simp] theorem status_accept_busy (op : BitVec 4) : (st.accept op).busy = st.busy := rfl
@[simp] theorem status_accept_done (op : BitVec 4) : (st.accept op).done = false := rfl
@[simp] theorem status_accept_err (op : BitVec 4) : (st.accept op).err = false := rfl
@[simp] theorem status_accept_treeValid (op : BitVec 4) : (st.accept op).treeValid = st.treeValid := rfl
@[simp] theorem status_accept_codesValid (op : BitVec 4) : (st.accept op).codesValid = st.codesValid := rfl
@[simp] theorem status_accept_drop (op : BitVec 4) : (st.accept op).drop = false := rfl
@[simp] theorem status_accept_errCode (op : BitVec 4) : (st.accept op).errCode = 0#4 := rfl
@[simp] theorem status_accept_lastOp (op : BitVec 4) : (st.accept op).lastOp = op := rfl

/-! ### Status.start -/

@[simp] theorem status_start_busy : (st.start).busy = true := rfl
@[simp] theorem status_start_done : (st.start).done = st.done := rfl
@[simp] theorem status_start_err : (st.start).err = st.err := rfl
@[simp] theorem status_start_treeValid : (st.start).treeValid = st.treeValid := rfl
@[simp] theorem status_start_codesValid : (st.start).codesValid = st.codesValid := rfl
@[simp] theorem status_start_drop : (st.start).drop = st.drop := rfl
@[simp] theorem status_start_errCode : (st.start).errCode = st.errCode := rfl
@[simp] theorem status_start_lastOp : (st.start).lastOp = st.lastOp := rfl

/-! ### Status.complete -/

@[simp] theorem status_complete_busy (e : Option Err) : (st.complete e).busy = false := rfl
@[simp] theorem status_complete_done (e : Option Err) : (st.complete e).done = true := rfl
@[simp] theorem status_complete_err (e : Option Err) : (st.complete e).err = e.isSome := rfl
@[simp] theorem status_complete_treeValid (e : Option Err) : (st.complete e).treeValid = st.treeValid := rfl
@[simp] theorem status_complete_codesValid (e : Option Err) : (st.complete e).codesValid = st.codesValid := rfl
@[simp] theorem status_complete_drop (e : Option Err) : (st.complete e).drop = st.drop := rfl
@[simp] theorem status_complete_errCode (e : Option Err) : (st.complete e).errCode = errCodeOf e := rfl
@[simp] theorem status_complete_lastOp (e : Option Err) : (st.complete e).lastOp = st.lastOp := rfl

/-! ### Status.markDrop -/

@[simp] theorem status_markDrop_busy : (st.markDrop).busy = st.busy := rfl
@[simp] theorem status_markDrop_done : (st.markDrop).done = st.done := rfl
@[simp] theorem status_markDrop_err : (st.markDrop).err = st.err := rfl
@[simp] theorem status_markDrop_treeValid : (st.markDrop).treeValid = st.treeValid := rfl
@[simp] theorem status_markDrop_codesValid : (st.markDrop).codesValid = st.codesValid := rfl
@[simp] theorem status_markDrop_drop : (st.markDrop).drop = true := rfl
@[simp] theorem status_markDrop_errCode : (st.markDrop).errCode = st.errCode := rfl
@[simp] theorem status_markDrop_lastOp : (st.markDrop).lastOp = st.lastOp := rfl

/-! ### Status.setTreeValid -/

@[simp] theorem status_setTreeValid_busy (b : Bool) : (st.setTreeValid b).busy = st.busy := rfl
@[simp] theorem status_setTreeValid_done (b : Bool) : (st.setTreeValid b).done = st.done := rfl
@[simp] theorem status_setTreeValid_err (b : Bool) : (st.setTreeValid b).err = st.err := rfl
@[simp] theorem status_setTreeValid_treeValid (b : Bool) : (st.setTreeValid b).treeValid = b := rfl
@[simp] theorem status_setTreeValid_codesValid (b : Bool) : (st.setTreeValid b).codesValid = st.codesValid := rfl
@[simp] theorem status_setTreeValid_drop (b : Bool) : (st.setTreeValid b).drop = st.drop := rfl
@[simp] theorem status_setTreeValid_errCode (b : Bool) : (st.setTreeValid b).errCode = st.errCode := rfl
@[simp] theorem status_setTreeValid_lastOp (b : Bool) : (st.setTreeValid b).lastOp = st.lastOp := rfl

/-! ### Status.setCodesValid -/

@[simp] theorem status_setCodesValid_busy (b : Bool) : (st.setCodesValid b).busy = st.busy := rfl
@[simp] theorem status_setCodesValid_done (b : Bool) : (st.setCodesValid b).done = st.done := rfl
@[simp] theorem status_setCodesValid_err (b : Bool) : (st.setCodesValid b).err = st.err := rfl
@[simp] theorem status_setCodesValid_treeValid (b : Bool) : (st.setCodesValid b).treeValid = st.treeValid := rfl
@[simp] theorem status_setCodesValid_codesValid (b : Bool) : (st.setCodesValid b).codesValid = b := rfl
@[simp] theorem status_setCodesValid_drop (b : Bool) : (st.setCodesValid b).drop = st.drop := rfl
@[simp] theorem status_setCodesValid_errCode (b : Bool) : (st.setCodesValid b).errCode = st.errCode := rfl
@[simp] theorem status_setCodesValid_lastOp (b : Bool) : (st.setCodesValid b).lastOp = st.lastOp := rfl

/-! ### failTransfer -/

@[simp] theorem failTransfer_cfg (e : Err) : (s.failTransfer e).cfg = s.cfg := by unfold State.failTransfer; cases e <;> rfl
@[simp] theorem failTransfer_status (e : Err) : (s.failTransfer e).status = s.status := by unfold State.failTransfer; cases e <;> rfl
@[simp] theorem failTransfer_srcBase (e : Err) : (s.failTransfer e).srcBase = s.srcBase := by unfold State.failTransfer; cases e <;> rfl
@[simp] theorem failTransfer_srcLen (e : Err) : (s.failTransfer e).srcLen = s.srcLen := by unfold State.failTransfer; cases e <;> rfl
@[simp] theorem failTransfer_dstBase (e : Err) : (s.failTransfer e).dstBase = s.dstBase := by unfold State.failTransfer; cases e <;> rfl
@[simp] theorem failTransfer_dstCap (e : Err) : (s.failTransfer e).dstCap = s.dstCap := by unfold State.failTransfer; cases e <;> rfl
@[simp] theorem failTransfer_dstLen (e : Err) : (s.failTransfer e).dstLen = 0 := by unfold State.failTransfer; cases e <;> rfl
@[simp] theorem failTransfer_padding (e : Err) : (s.failTransfer e).padding = s.padding := by unfold State.failTransfer; cases e <;> rfl
@[simp] theorem failTransfer_root (e : Err) : (s.failTransfer e).root = s.root := by unfold State.failTransfer; cases e <;> rfl
@[simp] theorem failTransfer_nodeCount (e : Err) : (s.failTransfer e).nodeCount = s.nodeCount := by unfold State.failTransfer; cases e <;> rfl
@[simp] theorem failTransfer_leafCount (e : Err) : (s.failTransfer e).leafCount = s.leafCount := by unfold State.failTransfer; cases e <;> rfl
@[simp] theorem failTransfer_hdrLen (e : Err) : (s.failTransfer e).hdrLen = s.hdrLen := by unfold State.failTransfer; cases e <;> rfl
@[simp] theorem failTransfer_payloadOff (e : Err) : (s.failTransfer e).payloadOff = s.payloadOff := by unfold State.failTransfer; cases e <;> rfl
@[simp] theorem failTransfer_payloadLen (e : Err) : (s.failTransfer e).payloadLen = s.payloadLen := by unfold State.failTransfer; cases e <;> rfl
@[simp] theorem failTransfer_maxCodeLen (e : Err) : (s.failTransfer e).maxCodeLen = s.maxCodeLen := by unfold State.failTransfer; cases e <;> rfl
@[simp] theorem failTransfer_freq (e : Err) : (s.failTransfer e).freq = s.freq := by unfold State.failTransfer; cases e <;> rfl
@[simp] theorem failTransfer_node (e : Err) : (s.failTransfer e).node = s.node := by unfold State.failTransfer; cases e <;> rfl
@[simp] theorem failTransfer_code (e : Err) : (s.failTransfer e).code = s.code := by unfold State.failTransfer; cases e <;> rfl
@[simp] theorem failTransfer_inbox (e : Err) : (s.failTransfer e).inbox = s.inbox := by unfold State.failTransfer; cases e <;> rfl
@[simp] theorem failTransfer_replies (e : Err) : (s.failTransfer e).replies = s.replies := by unfold State.failTransfer; cases e <;> rfl

/-- After a data error the destination holds no value, after any other error it is as before. -/
theorem failTransfer_mem (e : Err) : (s.failTransfer e).mem =
    if e.spoilsDestination then s.mem.erase s.dstBase.toNat s.dstCap.toNat else s.mem := by
  unfold State.failTransfer; cases e <;> rfl

/-! ### errCodeOf -/

/-- ERR and ERRCODE of a completion agree: the code is 0 exactly for success (10_state.md R21). -/
theorem errCodeOf_eq_zero_iff (e : Option Err) : errCodeOf e = 0#4 ↔ e = none := by
  cases e with
  | none => simp [errCodeOf]
  | some e => cases e <;> simp [errCodeOf, Err.code]

/-- ERRCODE 9 to 15 are never produced (60_exceptions.md R115). -/
theorem errCodeOf_le_eight (e : Option Err) : (errCodeOf e).toNat ≤ 8 := by
  cases e with
  | none => simp [errCodeOf]
  | some e => cases e <;> simp [errCodeOf, Err.code]

end Sys2Proof.Machine
end

