-- ==== Sys2Proof/Laws/Exec.lean ====
section
/-! SUPPORT. One inversion lemma per command rule: everything a command that answers a next state can have done. A
command either raises one of its errors, under that error's condition, or ends with NONE. -/

namespace Sys2Proof.Machine

/-- The state a command's error leaves (60_exceptions.md R116, R118). -/
def State.afterError (s : State) (i : Instr) (e : Err) : State := (s.errorEffects i e).complete (some e)

theorem raise_eq (s : State) (i : Instr) (e : Err) : s.raise i e = .next (s.afterError i e) := rfl

theorem finish_eq (s : State) : s.finish = .next (s.complete none) := rfl

/-- What BUILD does (R75). -/
theorem execBuild_cases {s t : State} (h : execBuild s = .next t) :
    (freqList s.freq = [] ∧ t = (s.invalidateTree).complete (some .emptyInput)) ∨
    (freqList s.freq ≠ [] ∧ t = ((s.invalidateTree).storeTree (freqList s.freq)).complete none) := by
  unfold execBuild at h
  by_cases hl : freqList s.freq = []
  · rw [if_pos (show freqList (s.invalidateTree).freq = [] from hl)] at h
    injection h with h
    exact .inl ⟨hl, h.symm⟩
  · rw [if_neg (show ¬ freqList (s.invalidateTree).freq = [] from hl)] at h
    injection h with h
    exact .inr ⟨hl, h.symm⟩

/-- What GENCODE does (R84). -/
theorem execGencode_cases {s t : State} (h : execGencode s = .next t) :
    (s.status.treeValid = false ∧ t = (s.invalidateCodes).complete (some .notReady)) ∨
    (s.status.treeValid = true ∧
      t = ((s.invalidateCodes).storeCodes (codeTable s.node s.root.toNat)).complete none) := by
  unfold execGencode at h
  cases hv : s.status.treeValid with
  | false =>
    refine .inl ⟨rfl, ?_⟩
    rw [if_neg (by simp [hv])] at h
    injection h with h
    exact h.symm
  | true =>
    refine .inr ⟨rfl, ?_⟩
    rw [if_pos (by simp [hv])] at h
    injection h with h
    exact h.symm

/-- What PACK does (R88). -/
theorem execPack_cases {s t : State} (h : execPack s = .next t) :
    (s.status.codesValid = false ∧ t = s.afterError .pack .notReady) ∨
    (s.status.codesValid = true ∧ s.regionsOk = false ∧ t = s.afterError .pack .range) ∨
    (s.status.codesValid = true ∧ s.regionsOk = true ∧ s.srcLen.toNat = 0 ∧ t = s.afterError .pack .emptyInput) ∨
    ∃ src, s.status.codesValid = true ∧ s.regionsOk = true ∧ s.srcLen.toNat ≠ 0 ∧ s.source = some src ∧
      ((codewordStream s.code src = none ∧ t = s.afterError .pack .unknownSymbol) ∨
       ∃ b, codewordStream s.code src = some b ∧
        ((s.dstCap.toNat < (payloadOf b).length ∧ t = s.afterError .pack .capacity) ∨
         ((payloadOf b).length ≤ s.dstCap.toNat ∧ t = (s.storePayload b).complete none))) := by
  simp only [execPack] at h
  split at h
  · exact .inl ⟨‹_›, by injection h with h; exact h.symm⟩
  have h1 : s.status.codesValid = true := Bool.eq_true_of_not_eq_false ‹_›
  split at h
  · exact .inr (.inl ⟨h1, ‹_›, by injection h with h; exact h.symm⟩)
  have h2 : s.regionsOk = true := Bool.eq_true_of_not_eq_false ‹_›
  split at h
  · exact .inr (.inr (.inl ⟨h1, h2, ‹_›, by injection h with h; exact h.symm⟩))
  split at h
  · cases h
  · rename_i src hsrc
    refine .inr (.inr (.inr ⟨src, h1, h2, ‹_›, hsrc, ?_⟩))
    split at h
    · exact .inl ⟨‹_›, by injection h with h; exact h.symm⟩
    · rename_i b hb
      refine .inr ⟨b, hb, ?_⟩
      split at h
      · exact .inl ⟨‹_›, by injection h with h; exact h.symm⟩
      · exact .inr ⟨by omega, by injection h with h; exact h.symm⟩

/-- What UNPACK does (R93). -/
theorem execUnpack_cases {s t : State} (h : execUnpack s = .next t) :
    (s.status.codesValid = false ∧ t = s.afterError .unpack .notReady) ∨
    (s.status.codesValid = true ∧ s.regionsOk = false ∧ t = s.afterError .unpack .range) ∨
    (s.status.codesValid = true ∧ s.regionsOk = true ∧ 8 * s.srcLen.toNat < s.padding.toNat ∧
      t = s.afterError .unpack .decode) ∨
    ∃ pay, s.status.codesValid = true ∧ s.regionsOk = true ∧ s.padding.toNat ≤ 8 * s.srcLen.toNat ∧
      s.source = some pay ∧
      ((decodeBits s.code [] (strippedBits pay s.padding.toNat) = none ∧ t = s.afterError .unpack .decode) ∨
       ∃ out, decodeBits s.code [] (strippedBits pay s.padding.toNat) = some out ∧
        ((s.dstCap.toNat < out.length ∧ t = s.afterError .unpack .capacity) ∨
         (out.length ≤ s.dstCap.toNat ∧ t = (s.storeSymbols out).complete none))) := by
  simp only [execUnpack] at h
  split at h
  · exact .inl ⟨‹_›, by injection h with h; exact h.symm⟩
  have h1 : s.status.codesValid = true := Bool.eq_true_of_not_eq_false ‹_›
  split at h
  · exact .inr (.inl ⟨h1, ‹_›, by injection h with h; exact h.symm⟩)
  have h2 : s.regionsOk = true := Bool.eq_true_of_not_eq_false ‹_›
  split at h
  · exact .inr (.inr (.inl ⟨h1, h2, ‹_›, by injection h with h; exact h.symm⟩))
  split at h
  · cases h
  · rename_i pay hpay
    refine .inr (.inr (.inr ⟨pay, h1, h2, by omega, hpay, ?_⟩))
    split at h
    · exact .inl ⟨‹_›, by injection h with h; exact h.symm⟩
    · rename_i out hout
      refine .inr ⟨out, hout, ?_⟩
      split at h
      · exact .inl ⟨‹_›, by injection h with h; exact h.symm⟩
      · exact .inr ⟨by omega, by injection h with h; exact h.symm⟩

/-- What SERIALIZE does (R98). -/
theorem execSerialize_cases {s t : State} (h : execSerialize s = .next t) :
    (s.regionsOk = false ∧ t = s.afterError .serialize .range) ∨
    (s.regionsOk = true ∧ freqList s.freq = [] ∧ t = s.afterError .serialize .emptyInput) ∨
    (s.regionsOk = true ∧ freqList s.freq ≠ [] ∧
      s.dstCap.toNat < 4 + (headerText (freqList s.freq) s.padding).length + s.srcLen.toNat ∧
      t = s.afterError .serialize .capacity) ∨
    ∃ pay, s.regionsOk = true ∧ freqList s.freq ≠ [] ∧
      4 + (headerText (freqList s.freq) s.padding).length + s.srcLen.toNat ≤ s.dstCap.toNat ∧
      s.source = some pay ∧
      t = (s.storeContainer (headerText (freqList s.freq) s.padding) pay).complete none := by
  simp only [execSerialize] at h
  split at h
  · exact .inl ⟨‹_›, by injection h with h; exact h.symm⟩
  have h1 : s.regionsOk = true := Bool.eq_true_of_not_eq_false ‹_›
  split at h
  · exact .inr (.inl ⟨h1, ‹_›, by injection h with h; exact h.symm⟩)
  have h2 : freqList s.freq ≠ [] := ‹_›
  split at h
  · exact .inr (.inr (.inl ⟨h1, h2, ‹_›, by injection h with h; exact h.symm⟩))
  split at h
  · cases h
  · rename_i pay hpay
    exact .inr (.inr (.inr ⟨pay, h1, h2, by omega, hpay, by injection h with h; exact h.symm⟩))

/-- What DESERIALIZE does (R99). -/
theorem execDeserialize_cases {s t : State} (h : execDeserialize s = .next t) :
    (s.srcOk = false ∧ t = s.afterError .deserialize .range) ∨
    (s.srcOk = true ∧ s.srcLen.toNat < 4 ∧ t = s.afterError .deserialize .format) ∨
    ∃ c, s.srcOk = true ∧ 4 ≤ s.srcLen.toNat ∧ s.source = some c ∧
      ((s.srcLen.toNat - 4 < headerLength c ∧ t = s.afterError .deserialize .format) ∨
       (headerLength c ≤ s.srcLen.toNat - 4 ∧ parseHeader ((c.drop 4).take (headerLength c)) = none ∧
         t = s.afterError .deserialize .format) ∨
       ∃ l p, headerLength c ≤ s.srcLen.toNat - 4 ∧ parseHeader ((c.drop 4).take (headerLength c)) = some (l, p) ∧
         t = (s.loadArtifact l p (headerLength c) s.srcLen.toNat).complete none) := by
  simp only [execDeserialize] at h
  split at h
  · exact .inl ⟨‹_›, by injection h with h; exact h.symm⟩
  have h1 : s.srcOk = true := Bool.eq_true_of_not_eq_false ‹_›
  split at h
  · exact .inr (.inl ⟨h1, ‹_›, by injection h with h; exact h.symm⟩)
  split at h
  · cases h
  · rename_i c hc
    refine .inr (.inr ⟨c, h1, by omega, hc, ?_⟩)
    split at h
    · exact .inl ⟨by omega, by injection h with h; exact h.symm⟩
    split at h
    · exact .inr (.inl ⟨by omega, ‹_›, by injection h with h; exact h.symm⟩)
    · rename_i l p hl
      exact .inr (.inr ⟨l, p, by omega, hl, by injection h with h; exact h.symm⟩)

/-- STATUS after a completion, in one record (R109). -/
theorem Status.complete_eq_completed (st : Status) (e : Option Err) :
    st.complete e = completed st st.treeValid st.codesValid (errCodeOf e) := by
  simp only [Status.complete, completed]
  congr 1
  cases e with
  | none => rfl
  | some e => cases e <;> rfl

/-- What an error of PACK or UNPACK leaves (R118): DST_LEN 0, STATUS completed, and of DMEM every byte but, after a data
error, those of the destination. -/
theorem afterError_transfer (s : State) (e : Err) (i : Instr) (hi : i = .pack ∨ i = .unpack) :
    s.afterError i e = { s with
      status := completed s.status s.status.treeValid s.status.codesValid e.code
      dstLen := 0
      mem := (s.afterError i e).mem } ∧
    ∀ a, ((s.afterError i e).mem).read a =
      if e.spoilsDestination = true ∧ s.dstBase.toNat ≤ a ∧ a < s.dstBase.toNat + s.dstCap.toNat then none
      else s.mem.read a := by
  constructor
  · rcases hi with rfl | rfl <;> cases e <;> rfl
  · intro a
    rcases hi with rfl | rfl <;>
      simp only [State.afterError, State.errorEffects, complete_mem, failTransfer_mem] <;> split <;>
      simp [*, MemoryLaws.read_erase]

/-- What an error of SERIALIZE leaves (R118). -/
theorem afterError_serialize (s : State) (e : Err) : s.afterError .serialize e = { s with
    status := completed s.status s.status.treeValid s.status.codesValid e.code
    dstLen := 0, hdrLen := 0, payloadOff := 0, payloadLen := 0 } := by cases e <;> rfl

/-- What an error of DESERIALIZE leaves (R118). -/
theorem afterError_deserialize (s : State) (e : Err) : s.afterError .deserialize e = { s with
    status := completed s.status s.status.treeValid s.status.codesValid e.code
    hdrLen := 0, payloadOff := 0, payloadLen := 0 } := by cases e <;> rfl

/-- A command answers a next state, or meets a source byte that holds no value (R50). -/
theorem exec_outcome (i : Instr) (s : State) :
    (∃ t, exec i s = .next t) ∨ (exec i s = .fault .uninitRead ∧ s.source = none) := by
  cases hs : s.source with
  | none =>
    cases i <;> simp only [exec, execBuild, execGencode, execPack, execUnpack, execSerialize, execDeserialize, hs,
      raise_eq, finish_eq]
    all_goals repeat' split
    all_goals simp
  | some v =>
    left
    cases i <;> simp only [exec, execBuild, execGencode, execPack, execUnpack, execSerialize, execDeserialize, hs,
      raise_eq, finish_eq]
    all_goals repeat' split
    all_goals simp

end Sys2Proof.Machine
end

