-- ==== Sys2Proof/Laws/Header.lean ====
section
/-! SUPPORT. The laws of the decimal spelling (00_scope.md R11) and of the header grammar (30_encoding.md R64): each
production of the parser reads exactly the text its writer writes. -/

namespace Sys2Proof.Machine

namespace HeaderLaws

/-! ### Decimal -/

/-- Any fuel above the number gives the same digits. -/
theorem decDigits_fuel : ∀ (f n : Nat), n < f → decDigits f n = dec n := by
  have key : ∀ (n f g : Nat), n < f → n < g → decDigits f n = decDigits g n := by
    intro n
    induction n using Nat.strong_induction_on with
    | _ n ih =>
      intro f g hf hg
      obtain ⟨f, rfl⟩ : ∃ k, f = k + 1 := ⟨f - 1, by omega⟩
      obtain ⟨g, rfl⟩ : ∃ k, g = k + 1 := ⟨g - 1, by omega⟩
      simp only [decDigits]
      split
      · rfl
      · rw [ih (n / 10) (by omega) f g (by omega) (by omega)]
  exact fun f n h => key n f (n + 1) h (by omega)

theorem dec_small (n : Nat) (h : n < 10) : dec n = [digit n] := by simp [dec, decDigits, h]

theorem dec_step (n : Nat) (h : 10 ≤ n) : dec n = dec (n / 10) ++ [digit (n % 10)] := by
  rw [dec, decDigits, if_neg (by omega), decDigits_fuel _ _ (by omega)]

theorem digit_toNat (n : Nat) (h : n < 10) : (digit n).toNat = 0x30 + n := by
  simp [digit]; omega

theorem isDigit_digit (n : Nat) (h : n < 10) : isDigit (digit n) = true := by
  simp [isDigit, digit_toNat n h]; omega

/-- A digit character is the digit of its value. -/
theorem digit_of_isDigit (c : Byte) (h : isDigit c = true) : digit (c.toNat - 0x30) = c ∧ c.toNat - 0x30 < 10 := by
  simp only [isDigit, Bool.and_eq_true, decide_eq_true_eq] at h
  refine ⟨BitVec.eq_of_toNat_eq ?_, by omega⟩
  rw [digit_toNat _ (by omega)]; omega

/-- Reading digits runs over a first stretch and goes on with its value. -/
theorem takeDigits_append (ds h : List Byte) : ∀ v w : Nat, takeDigits v ds = (w, []) →
    takeDigits v (ds ++ h) = takeDigits w h := by
  induction ds with
  | nil => intro v w hv; simp [takeDigits] at hv; simp [hv]
  | cons c ds ih =>
    intro v w hv
    simp only [takeDigits] at hv
    split at hv
    · simpa [takeDigits, ‹isDigit c = true›] using ih _ _ hv
    · simp at hv

/-- The shape of a decimal spelling: a first digit, non-zero for a non-zero number, whose rest reads as the number. -/
theorem dec_shape : ∀ n : Nat, ∃ c ds, dec n = c :: ds ∧ isDigit c = true ∧ takeDigits (c.toNat - 0x30) ds = (n, []) ∧
    (n ≠ 0 → c ≠ 0x30#8) ∧ (n = 0 → c = 0x30#8 ∧ ds = []) := by
  intro n
  induction n using Nat.strong_induction_on with
  | _ n ih =>
    by_cases h : n < 10
    · refine ⟨digit n, [], dec_small n h, isDigit_digit n h, ?_, ?_, ?_⟩
      · simp [takeDigits, digit_toNat n h]
      · intro hn he
        have := congrArg BitVec.toNat he
        rw [digit_toNat n h] at this
        simp at this; omega
      · rintro rfl; exact ⟨rfl, rfl⟩
    · obtain ⟨c, ds, h1, h2, h3, h4, -⟩ := ih (n / 10) (by omega)
      refine ⟨c, ds ++ [digit (n % 10)], by rw [dec_step n (by omega), h1]; rfl, h2, ?_, ?_, by omega⟩
      · rw [takeDigits_append _ _ _ _ h3, takeDigits, if_pos (isDigit_digit _ (by omega)), takeDigits,
          digit_toNat _ (by omega)]
        congr 1; omega
      · intro _; exact h4 (by omega)

/-- Whether a text goes on with a digit. -/
def digitFirst : List Byte → Bool
  | [] => false
  | c :: _ => isDigit c

theorem takeDigits_stop (n : Nat) (h : List Byte) (hh : digitFirst h = false) : takeDigits n h = (n, h) := by
  cases h with
  | nil => rfl
  | cons c h => simp only [digitFirst] at hh; simp [takeDigits, hh]

/-- The production `dec` reads a spelling that no digit follows. -/
theorem parseDec_dec (n : Nat) (h : List Byte) (hh : digitFirst h = false) : parseDec (dec n ++ h) = some (n, h) := by
  obtain ⟨c, ds, h1, h2, h3, h4, h5⟩ := dec_shape n
  rw [h1, List.cons_append, parseDec]
  by_cases hn : n = 0
  · obtain ⟨rfl, rfl⟩ := h5 hn
    simp [hn]
  · rw [if_neg (h4 hn), if_pos h2, takeDigits_append _ _ _ _ h3, takeDigits_stop _ _ hh]

/-- Digits read behind a non-zero value spell its continuation. -/
theorem takeDigits_spells (g : List Byte) : ∀ (v n : Nat) (h : List Byte), 1 ≤ v → takeDigits v g = (n, h) →
    ∃ ds, g = ds ++ h ∧ dec n = dec v ++ ds := by
  induction g with
  | nil =>
    intro v n h _ ht
    simp only [takeDigits, Prod.mk.injEq] at ht
    obtain ⟨rfl, rfl⟩ := ht
    exact ⟨[], by simp⟩
  | cons c g ih =>
    intro v n h hv ht
    simp only [takeDigits] at ht
    split at ht
    · rename_i hc
      obtain ⟨ds, rfl, h2⟩ := ih _ _ _ (by omega) ht
      obtain ⟨hd, hlt⟩ := digit_of_isDigit c hc
      refine ⟨c :: ds, by simp, ?_⟩
      rw [h2, dec_step (10 * v + (c.toNat - 0x30)) (by omega),
        show (10 * v + (c.toNat - 0x30)) / 10 = v by omega,
        show (10 * v + (c.toNat - 0x30)) % 10 = c.toNat - 0x30 by omega, hd]
      simp
    · simp only [Prod.mk.injEq] at ht
      obtain ⟨rfl, rfl⟩ := ht
      exact ⟨[], by simp⟩

/-- What the production `dec` reads is the spelling of its value. -/
theorem parseDec_spells (g h : List Byte) (n : Nat) (hp : parseDec g = some (n, h)) : g = dec n ++ h := by
  cases g with
  | nil => simp [parseDec] at hp
  | cons c g =>
    rw [parseDec] at hp
    split at hp
    · simp only [Option.some.injEq, Prod.mk.injEq] at hp
      obtain ⟨rfl, rfl⟩ := hp
      subst_vars; rfl
    · split at hp
      · rename_i hz hc
        obtain ⟨hd, hlt⟩ := digit_of_isDigit c hc
        have hnz : 1 ≤ c.toNat - 0x30 := by
          by_contra hlt'
          refine hz (BitVec.eq_of_toNat_eq ?_)
          simp only [isDigit, Bool.and_eq_true, decide_eq_true_eq] at hc
          simp; omega
        obtain ⟨ds, rfl, h2⟩ := takeDigits_spells g _ n h hnz (by simpa using hp)
        rw [h2, dec_small _ hlt, hd]; rfl
      · cases hp

/-! ### Literals -/

theorem expect_append (p h : List Byte) : expect p (p ++ h) = some h := by
  induction p with
  | nil => simp [expect]
  | cons c p ih => simpa [expect] using ih

theorem expect_eq_some (p : List Byte) : ∀ g h : List Byte, expect p g = some h ↔ g = p ++ h := by
  induction p with
  | nil => intro g h; simp [expect]
  | cons c p ih =>
    intro g h
    cases g with
    | nil => simp [expect]
    | cons d g =>
      simp only [expect, List.cons_append, List.cons.injEq]
      split
      · subst_vars; simp [ih]
      · simp only [reduceCtorEq, false_iff, not_and]
        rintro rfl; contradiction

/-! ### Entries -/

/-- An entry's text from its two values (R64). -/
def entrySpelled (e : Nat × Nat) : List Byte := 0x5B#8 :: (dec e.1 ++ 0x2C#8 :: (dec e.2 ++ [0x5D#8]))

/-- The entries' text from their values. -/
def entriesSpelled : List (Nat × Nat) → List Byte
  | [] => []
  | [e] => entrySpelled e
  | e :: l => entrySpelled e ++ 0x2C#8 :: entriesSpelled l

/-- The production `entry` reads exactly an entry's text. -/
theorem parseEntry_eq_some (g h : List Byte) (e : Nat × Nat) :
    parseEntry g = some (e, h) ↔ g = entrySpelled e ++ h := by
  constructor
  · intro hp
    unfold parseEntry at hp
    split at hp; · cases hp
    rename_i h1 e1
    split at hp; · cases hp
    rename_i sym h2 e2
    split at hp; · cases hp
    rename_i h3 e3
    split at hp; · cases hp
    rename_i count h4 e4
    split at hp; · cases hp
    rename_i h5 e5
    simp only [Option.some.injEq, Prod.mk.injEq] at hp
    obtain ⟨rfl, rfl⟩ := hp
    rw [expect_eq_some] at e1 e3 e5
    have e2 := parseDec_spells _ _ _ e2
    have e4 := parseDec_spells _ _ _ e4
    subst e1 e2 e3 e4 e5
    simp [entrySpelled]
  · rintro rfl
    obtain ⟨s, c⟩ := e
    have h1 : expect [0x5B#8] (entrySpelled (s, c) ++ h) = some (dec s ++ 0x2C#8 :: (dec c ++ 0x5D#8 :: h)) := by
      rw [expect_eq_some]; simp [entrySpelled]
    have h2 := parseDec_dec s (0x2C#8 :: (dec c ++ 0x5D#8 :: h)) (by rfl)
    have h3 : expect [0x2C#8] (0x2C#8 :: (dec c ++ 0x5D#8 :: h)) = some (dec c ++ 0x5D#8 :: h) := by
      rw [expect_eq_some]; rfl
    have h4 := parseDec_dec c (0x5D#8 :: h) (by rfl)
    have h5 : expect [0x5D#8] (0x5D#8 :: h) = some h := by rw [expect_eq_some]; rfl
    simp [parseEntry, h1, h2, h3, h4, h5]

/-- The production `entries` reads a non-empty list's text that no comma follows, given fuel for its entries. -/
theorem parseEntries_spelled (l : List (Nat × Nat)) : ∀ (fuel : Nat) (h : List Byte), l ≠ [] → l.length ≤ fuel →
    expect [0x2C#8] h = none → parseEntries fuel (entriesSpelled l ++ h) = some (l, h) := by
  induction l with
  | nil => intro _ _ h; exact absurd rfl h
  | cons e l ih =>
    intro fuel h _ hf hh
    obtain ⟨fuel, rfl⟩ : ∃ k, fuel = k + 1 := ⟨fuel - 1, by simp at hf; omega⟩
    cases l with
    | nil => simp [parseEntries, entriesSpelled, (parseEntry_eq_some _ h e).2 rfl, hh]
    | cons e' l =>
      have h1 : entriesSpelled (e :: e' :: l) ++ h = entrySpelled e ++ (0x2C#8 :: (entriesSpelled (e' :: l) ++ h)) := by
        simp [entriesSpelled]
      have h2 : expect [0x2C#8] (0x2C#8 :: (entriesSpelled (e' :: l) ++ h)) = some (entriesSpelled (e' :: l) ++ h) := by
        rw [expect_eq_some]; rfl
      rw [h1, parseEntries, (parseEntry_eq_some _ _ e).2 rfl]
      simp only [h2, ih fuel h (by simp) (by simpa using hf) hh]

/-- What the production `entries` reads is the text of the list it returns. -/
theorem parseEntries_spells (fuel : Nat) : ∀ (g h : List Byte) (l : List (Nat × Nat)),
    parseEntries fuel g = some (l, h) → g = entriesSpelled l ++ h ∧ l ≠ [] := by
  induction fuel with
  | zero => intro g h l hp; simp [parseEntries] at hp
  | succ fuel ih =>
    intro g h l hp
    rw [parseEntries] at hp
    split at hp; · cases hp
    rename_i e h1 he
    have he := (parseEntry_eq_some _ _ _).1 he
    split at hp
    · simp only [Option.some.injEq, Prod.mk.injEq] at hp
      obtain ⟨rfl, rfl⟩ := hp
      exact ⟨by simpa [entriesSpelled] using he, by simp⟩
    · rename_i h2 hc
      split at hp; · cases hp
      rename_i l' h3 hl
      simp only [Option.some.injEq, Prod.mk.injEq] at hp
      obtain ⟨rfl, rfl⟩ := hp
      obtain ⟨rfl, hne⟩ := ih _ _ _ hl
      rw [expect_eq_some] at hc
      subst hc he
      cases l' with
      | nil => exact absurd rfl hne
      | cons e' l' => exact ⟨by simp [entriesSpelled], by simp⟩

/-- Every entry's text holds a byte, so a list's text is no shorter than the list. -/
theorem length_le_entriesSpelled (l : List (Nat × Nat)) : l.length ≤ (entriesSpelled l).length := by
  induction l with
  | nil => simp
  | cons e l ih =>
    cases l with
    | nil => simp [entriesSpelled, entrySpelled]
    | cons e' l => simp only [entriesSpelled, List.length_append, List.length_cons] at ih ⊢; omega

/-! ### Padding and values -/

theorem parsePad_eq_some (g h : List Byte) (p : BitVec 3) : parsePad g = some (p, h) ↔ g = dec p.toNat ++ h := by
  have hp := p.isLt
  rw [dec_small _ (by omega)]
  cases g with
  | nil => simp [parsePad]
  | cons c g =>
    simp only [parsePad, List.singleton_append, List.cons.injEq]
    split
    · rename_i hc
      simp only [Option.some.injEq, Prod.mk.injEq]
      refine and_congr_left fun _ => ⟨?_, ?_⟩
      · rintro rfl
        refine BitVec.eq_of_toNat_eq ?_
        rw [digit_toNat _ (by simp; omega)]
        simp; omega
      · rintro rfl
        refine BitVec.eq_of_toNat_eq ?_
        rw [digit_toNat _ (by omega)]
        simp
    · rename_i hc
      simp only [reduceCtorEq, false_iff, not_and]
      rintro rfl
      rw [digit_toNat _ (by omega)] at hc
      omega

/-- Conditions 2 to 4 of R97, said for all entries at once. -/
theorem entriesValid_iff (l : List (Nat × Nat)) : entriesValid l = true ↔
    (∀ e ∈ l, e.1 ≤ 255 ∧ 1 ≤ e.2 ∧ e.2 ≤ 4294967295) ∧ l.Pairwise fun e f => e.1 < f.1 := by
  induction l with
  | nil => simp [entriesValid]
  | cons e l ih =>
    obtain ⟨s, c⟩ := e
    cases l with
    | nil => simp [entriesValid, and_assoc]
    | cons e' l =>
      obtain ⟨s', c'⟩ := e'
      simp only [entriesValid, Bool.and_eq_true, decide_eq_true_eq, ih]
      constructor
      · rintro ⟨⟨⟨⟨h1, h2⟩, h3⟩, h4⟩, h5, h6⟩
        refine ⟨fun e he => ?_, List.pairwise_cons.2 ⟨fun e he => ?_, h6⟩⟩
        · rcases List.mem_cons.1 he with rfl | he
          · exact ⟨h1, h2, h3⟩
          · exact h5 e he
        · rcases List.mem_cons.1 he with rfl | he
          · exact h4
          · exact Nat.lt_trans h4 ((List.pairwise_cons.1 h6).1 e he)
      · rintro ⟨h1, h2⟩
        obtain ⟨h3, h4⟩ := List.pairwise_cons.1 h2
        obtain ⟨a, b, d⟩ := h1 (s, c) (List.mem_cons_self ..)
        exact ⟨⟨⟨⟨a, b⟩, d⟩, h3 (s', c') (List.mem_cons_self ..)⟩, fun e he => h1 e (List.mem_cons_of_mem _ he), h4⟩

/-- The values of an entry list. -/
def values (l : List (Byte × Word)) : List (Nat × Nat) := l.map fun e => (e.1.toNat, e.2.toNat)

theorem entriesSpelled_values (l : List (Byte × Word)) : entriesSpelled (values l) = entriesText l := by
  induction l with
  | nil => rfl
  | cons e l ih =>
    cases l with
    | nil => rfl
    | cons e' l =>
      simp only [values, List.map_cons, entriesSpelled, entriesText] at ih ⊢
      rw [ih]; rfl

theorem ofNat_values (l : List (Byte × Word)) :
    (values l).map (fun e => (BitVec.ofNat 8 e.1, BitVec.ofNat 32 e.2)) = l := by
  simp [values, Function.comp_def]

/-- Valid values come from words. -/
theorem values_ofNat (l : List (Nat × Nat)) (h : ∀ e ∈ l, e.1 ≤ 255 ∧ 1 ≤ e.2 ∧ e.2 ≤ 4294967295) :
    values (l.map fun e => (BitVec.ofNat 8 e.1, BitVec.ofNat 32 e.2)) = l := by
  simp only [values, List.map_map]
  conv_rhs => rw [← List.map_id l]
  refine List.map_congr_left fun e he => ?_
  obtain ⟨h1, h2, h3⟩ := h e he
  simp only [Function.comp, BitVec.toNat_ofNat, id]
  rw [Nat.mod_eq_of_lt (by omega), Nat.mod_eq_of_lt (by omega)]

end HeaderLaws

end Sys2Proof.Machine
end

