-- ==== Sys2Proof/Laws/Registers.lean ====
section
/-! SUPPORT. The register map as laws: words as numbers (R21, R32), the bits of a number read from a bit string (R34,
R44), and where the map places CMD and the words a write ignores (R18, R104). -/

namespace Sys2Proof.Machine.RegLaws

open Sys2Proof Sys2Proof.Machine

/-- A concatenation as a number. -/
theorem append_toNat {n m : Nat} (x : BitVec n) (y : BitVec m) : (x ++ y).toNat = x.toNat * 2 ^ m + y.toNat := by
  rw [BitVec.toNat_append, ← Nat.shiftLeft_add_eq_or_of_lt y.isLt, Nat.shiftLeft_eq]

/-- The STATUS word as a number (R21). -/
theorem statusWord_toNat (st : Status) : st.word.toNat =
    st.busy.toNat + 2 * st.done.toNat + 4 * st.err.toNat + 8 * st.treeValid.toNat + 16 * st.codesValid.toNat +
      32 * st.drop.toNat + 256 * st.errCode.toNat + 4096 * st.lastOp.toNat := by
  simp only [Status.word, append_toNat, BitVec.toNat_ofBool, BitVec.toNat_ofNat]
  omega

/-- A bit of a word from its number. -/
theorem getLsbD_of_div {w : Nat} (v : BitVec w) (k : Nat) (b : Bool) (h : v.toNat / 2 ^ k % 2 = b.toNat) :
    v.getLsbD k = b := by
  rw [BitVec.getLsbD, Nat.testBit_eq_decide_div_mod_eq, h]; cases b <;> rfl

/-! ### Bit strings as numbers -/

theorem natOfBits_foldl (b : Bits) : ∀ n, b.foldl (fun n x => 2 * n + x.toNat) n = n * 2 ^ b.length + natOfBits b := by
  induction b with
  | nil => intro n; simp [natOfBits]
  | cons x b ih =>
    intro n
    have h1 := ih (2 * 0 + x.toNat)
    rw [List.foldl_cons, ih]
    conv_rhs => rw [natOfBits, List.foldl_cons, h1]
    simp [pow_succ]; ring

theorem natOfBits_cons (x : Bool) (b : Bits) : natOfBits (x :: b) = x.toNat * 2 ^ b.length + natOfBits b := by
  rw [natOfBits, List.foldl_cons, natOfBits_foldl]; simp

theorem natOfBits_lt (b : Bits) : natOfBits b < 2 ^ b.length := by
  induction b with
  | nil => simp [natOfBits]
  | cons x b ih => rw [natOfBits_cons, List.length_cons, pow_succ]; cases x <;> simp <;> omega

/-- The first bit of the string is the number's most significant one. -/
theorem natOfBits_testBit (b : Bits) : ∀ j, j < b.length →
    (natOfBits b).testBit (b.length - 1 - j) = b.getD j false := by
  induction b with
  | nil => intro j h; simp at h
  | cons x b ih =>
    intro j hj
    rw [natOfBits_cons, mul_comm, Nat.testBit_two_pow_mul_add _ (natOfBits_lt b)]
    cases j with
    | zero => simp; cases x <;> rfl
    | succ j =>
      simp only [List.length_cons] at hj ⊢
      rw [if_pos (by omega), show b.length + 1 - 1 - (j + 1) = b.length - 1 - j by omega, ih j (by omega)]
      simp

/-! ### The map -/

theorem regOfWord_cmd (k : Nat) (h : regOfWord k = .cmd) : k = 1 := by
  rcases k with _|_|_|_|_|_|_|_|_|_|_|_|_|_|_|_|k <;> first | rfl | cases h

/-- CMD stands at offset 4 alone. -/
theorem regLoc_cmd (o : Nat) (h4 : o % 4 = 0) : regLoc o = .cmd ↔ o = 4 := by
  refine ⟨fun h => ?_, fun h => by rw [h]; rfl⟩
  by_cases h1 : o < 0x400
  · rw [regLoc, if_pos h1] at h
    have := regOfWord_cmd _ h
    omega
  rw [regLoc, if_neg h1] at h
  by_cases h2 : o < 0x800
  · rw [if_pos h2] at h; cases h
  rw [if_neg h2] at h
  by_cases h3 : o < 0xC00
  · rw [if_pos h3] at h; cases h
  rw [if_neg h3] at h
  by_cases h5 : o < 0x1000
  · rw [if_pos h5] at h; cases h
  rw [if_neg h5] at h
  by_cases h6 : o < 0x3000
  · rw [if_pos h6] at h; cases h
  rw [if_neg h6] at h
  by_cases h7 : o < 0x4FF0
  · rw [if_pos h7] at h
    generalize (o - 0x3000) / 16 = a at h
    generalize (o - 0x3000) % 16 / 4 = b at h
    rcases b with _|_|_|b <;> cases h
  · rw [if_neg h7] at h; cases h

/-- A write at or above 0x800 is ignored (R104): CODE, NODE and the reserved words. -/
theorem regWriteIdle_high (s : State) (v : Word) (o : Nat) (h : 0x800 ≤ o) : s.regWriteIdle v (regLoc o) = s := by
  rw [regLoc, if_neg (by omega), if_neg (by omega)]
  by_cases h3 : o < 0xC00
  · rw [if_pos h3]; rfl
  rw [if_neg h3]
  by_cases h5 : o < 0x1000
  · rw [if_pos h5]; rfl
  rw [if_neg h5]
  by_cases h6 : o < 0x3000
  · rw [if_pos h6]; rfl
  rw [if_neg h6]
  by_cases h7 : o < 0x4FF0
  · rw [if_pos h7]
    generalize (o - 0x3000) / 16 = a
    generalize (o - 0x3000) % 16 / 4 = b
    rcases b with _|_|_|b <;> rfl
  · rw [if_neg h7]; rfl

/-- FREQ's words. -/
theorem regLoc_freq (x : Byte) : regLoc (0x400 + 4 * x.toNat) = .freq x := by
  have := x.isLt
  rw [regLoc, if_neg (by omega), if_pos (by omega)]; simp

end Sys2Proof.Machine.RegLaws
end

