-- ==== Sys2Proof/Laws/HostSequence.lean ====
section
/-! SUPPORT. The lines of the program notation (30_encoding.md R67), each with what it does to an idle block, and the
frequency analysis (45_host_interface.md R110). -/

namespace Sys2Proof.Machine.HostLaws

open Sys2Proof Sys2Proof.Machine

/-! ### Moves in a row -/

theorem runMoves_append {a : List Move} {s t : State} (h : runMoves a s = .next t) (b : List Move) :
    runMoves (a ++ b) s = runMoves b t := by
  induction a generalizing s with
  | nil => injection h with h; rw [← h]; rfl
  | cons m a ih =>
    rw [runMoves] at h
    rw [List.cons_append, runMoves]
    split at h
    · exact ih h
    · cases h
    · cases h

theorem stage_next {ms : List Move} {s t : State} (h : runMoves ms s = .next t) (he : t.status.err = false)
    (k : State → SeqResult) : stage ms k s = k t := by
  rw [stage, h]; simp [he]

/-! ### Lines -/

theorem lineWr_idle (o : Nat) (v : Word) (s : State) (h4 : o % 4 = 0) (h8 : o < 0x8000) (hb : s.status.busy = false) :
    runMoves (lineWr o v) s = .next (s.regWriteIdle v (regLoc o)) := by
  have : regAccessLegal 32 o = true := by simp [regAccessLegal, h4, h8]
  simp [lineWr, runMoves, perform, hostAccess, this, State.regWrite, hb]

theorem lineRd_legal (o : Nat) (s : State) (h4 : o % 4 = 0) (h8 : o < 0x8000) :
    runMoves (lineRd o) s = .next (s.reply (.word (s.readReg (regLoc o)))) := by
  have : regAccessLegal 32 o = true := by simp [regAccessLegal, h4, h8]
  simp [lineRd, runMoves, perform, hostAccess, this]

theorem readWord_legal (o : Nat) (s : State) (k : Word → State → SeqResult) (h4 : o % 4 = 0) (h8 : o < 0x8000) :
    readWord o k s = k (s.readReg (regLoc o)) (s.reply (.word (s.readReg (regLoc o)))) := by
  rw [readWord, lineRd_legal o s h4 h8]
  simp [lastWord]

/-- The four operand registers written. -/
theorem loadRegions_idle (a b c d : Word) (s : State) (hb : s.status.busy = false) :
    runMoves (loadRegions a b c d) s = .next ((((s.setSrcBase a).setSrcLen b).setDstBase c).setDstCap d) := by
  have h1 : runMoves (lineWr offSrcBase a) s = .next (s.setSrcBase a) := lineWr_idle _ _ _ rfl (by decide) hb
  have h2 : runMoves (lineWr offSrcLen b) (s.setSrcBase a) = .next ((s.setSrcBase a).setSrcLen b) :=
    lineWr_idle _ _ _ rfl (by decide) hb
  have h3 : runMoves (lineWr offDstBase c) ((s.setSrcBase a).setSrcLen b) =
      .next (((s.setSrcBase a).setSrcLen b).setDstBase c) := lineWr_idle _ _ _ rfl (by decide) hb
  rw [loadRegions, List.append_assoc, List.append_assoc, runMoves_append h1, runMoves_append h2, runMoves_append h3]
  exact lineWr_idle _ _ _ rfl (by decide) hb

/-- The state in which the engine finds the command whose word an idle CMD has just accepted (R108). -/
def started (s : State) (i : Instr) : State := s.setStatus (s.status.accept (opcode i)).start

/-- `CMD <mnemonic> ; WAIT` on an idle block: the command, and a STATUS read of what it leaves. -/
theorem lineRun_idle (i : Instr) {s t : State} (hb : s.status.busy = false) (he : exec i (started s i) = .next t) :
    runMoves (lineRun i) s = .next (t.reply (.word t.status.word)) := by
  have hw : runMoves (lineCmd i) s = .next (started s i) := by
    rw [lineCmd, lineCmdRaw, lineWr_idle offCmd _ s rfl (by decide) hb]
    cases i <;> rfl
  rw [lineRun, runMoves_append hw, lineWait, List.replicate_zero, List.flatten_nil, List.nil_append, runMoves]
  have hp : perform .engine (started s i) = exec i (started s i) := by
    cases i <;> rfl
  rw [hp, he]
  exact lineRd_legal offStatus t rfl (by decide)

/-- `DMR` of bytes that all hold a value. -/
theorem lineDmr_idle (v : List Byte) : ∀ (a : Nat) (s : State), s.status.busy = false → a + v.length ≤ s.cfg.dmemSize →
    s.mem.readBytes a v.length = some v →
    runMoves (lineDmr a v.length) s = .next (s.setReplies (s.replies ++ v.map .byte)) := by
  induction v with
  | nil => intro a s _ _ _; simp [lineDmr, runMoves, State.setReplies]
  | cons b v ih =>
    intro a s hb hsz hr
    rw [List.length_cons] at hsz hr ⊢
    rw [Memory.readBytes] at hr
    split at hr
    · cases hr
    · rename_i c hc
      obtain ⟨w, hw, he⟩ := Option.map_eq_some_iff.1 hr
      injection he with h1 h2
      subst h1 h2
      have hp : perform (.host (.dmemRead a)) s = .next (s.reply (.byte c)) := by
        simp only [perform, hostAccess, State.dmemFault]
        rw [if_neg (by omega), if_neg (by simp [hb])]
        simp [hc]
      rw [lineDmr, runMoves, hp]
      refine (ih (a + 1) (s.reply (.byte c)) hb (by simp; omega) hw).trans ?_
      simp [State.reply, State.setReplies]

theorem lastBytes_append (s : State) (v : List Byte) :
    lastBytes (s.setReplies (s.replies ++ v.map .byte)) v.length = v := by
  simp [lastBytes, List.filterMap_map]

/-! ### FREQ loaded (R110) -/

theorem writes_idle (l : List (Byte × Word)) : ∀ s : State, s.status.busy = false →
    ∃ t, runMoves (l.flatMap fun p => lineWrf p.1 p.2) s = .next t ∧ t.freq = s.freq.putAll l ∧
      t.status.busy = false ∧ t.mem = s.mem ∧ t.cfg = s.cfg := by
  induction l with
  | nil => intro s hb; exact ⟨s, rfl, rfl, hb, rfl, rfl⟩
  | cons p l ih =>
    intro s hb
    have hx := p.1.isLt
    have hw : runMoves (lineWrf p.1 p.2) s = .next (s.hostFreqWrite p.1 p.2) := by
      rw [lineWrf, offFreq, lineWr_idle _ _ _ (by omega) (by omega) hb, RegLaws.regLoc_freq]; rfl
    obtain ⟨t, h1, h2, h3, h4, h5⟩ := ih (s.hostFreqWrite p.1 p.2) hb
    refine ⟨t, ?_, h2, h3, h4, h5⟩
    rw [List.flatMap_cons, runMoves_append hw, h1]

theorem putAll_pairs (f g : Table Word) : g.putAll f.pairs = f := by
  refine TableLaws.ext _ _ fun x => ?_
  refine TableLaws.at_putAll_of_mem _ _ _ _ ?_ ((TableLaws.mem_pairs f x _).2 rfl)
  rw [List.Nodup, List.pairwise_map]
  exact (TableLaws.pairs_pairwise f).imp fun h he => absurd (congrArg BitVec.toNat he) (by omega)

/-! ### Analyze (R110) -/

theorem foldl_countSymbol (input : List Byte) : ∀ (f : Table Word) (x : Byte), (f.at x).toNat + input.length < 2 ^ 32 →
    ((input.foldl countSymbol f).at x).toNat = (f.at x).toNat + input.count x := by
  induction input with
  | nil => intros; simp
  | cons y input ih =>
    intro f x h
    rw [List.length_cons] at h
    have h1 : ((countSymbol f y).at x).toNat = (f.at x).toNat + if y = x then 1 else 0 := by
      rw [countSymbol, TableLaws.at_put]
      split
      · subst_vars; rw [BitVec.toNat_add]; simp; omega
      · simp
    rw [List.foldl_cons, ih _ _ (by rw [h1]; split <;> omega), h1, List.count_cons]
    by_cases hy : y = x
    · simp [hy]; omega
    · simp [hy]

end Sys2Proof.Machine.HostLaws
end

