-- ==== Sys2Proof/Laws/Invariant.lean ====
section
/-! SUPPORT. The parts of the invariant, each with what keeps it. -/

namespace Sys2Proof.Machine.InvLaws

open Sys2Proof Sys2Proof.Machine

/-- STATUS is legal after every completion (R21, R109). -/
theorem legal_complete (st : Status) (e : Option Err) : (st.complete e).Legal := by
  constructor
  · simp [Status.complete]
  · simp only [Status.complete]
    rw [ne_eq, errCodeOf_eq_zero_iff]; cases e <;> simp
  · exact errCodeOf_le_eight e
  · simp [Status.complete]

/-- The tree stays current where nothing it speaks of changes. -/
theorem tree_congr {s t : State} (h : s.TreeCurrent) (h1 : t.status.treeValid = s.status.treeValid)
    (h2 : t.freq = s.freq) (h3 : t.leafCount = s.leafCount) (h4 : t.nodeCount = s.nodeCount) (h5 : t.root = s.root)
    (h6 : t.node = s.node) : t.TreeCurrent := by
  constructor
  · rw [h1, h2]; exact h.nonempty
  · rw [h1, h2, h3]; exact h.leafCount
  · rw [h1, h2, h4]; exact h.nodeCount
  · rw [h1, h2, h5]; exact h.root
  · rw [h1, h2, h4, h6]; exact h.records
  · rw [h1, h3, h4, h5]; exact h.invalid

/-- The codes stay current where nothing they speak of changes. -/
theorem codes_congr {s t : State} (h : s.CodesCurrent) (h1 : t.status.treeValid = s.status.treeValid)
    (h2 : t.status.codesValid = s.status.codesValid) (h3 : t.code = s.code) (h4 : t.maxCodeLen = s.maxCodeLen)
    (h5 : t.root = s.root) (h6 : t.node = s.node) : t.CodesCurrent := by
  constructor
  · rw [h1, h2]; exact h.tree
  · rw [h2, h3, h6, h5]; exact h.table
  · rw [h2, h3, h4]; exact h.maxLen
  · rw [h2, h3, h4]; exact h.invalid

/-- An invalidated tree is as R36 leaves it. -/
theorem tree_invalid {t : State} (h1 : t.status.treeValid = false) (h3 : t.leafCount = 0)
    (h4 : t.nodeCount = 0) (h5 : t.root = 0) : t.TreeCurrent := by
  constructor <;> simp_all

/-- Invalidated codes are as R36 leaves them. -/
theorem codes_invalid {t : State} (h1 : t.status.codesValid = false) (h3 : t.code = noCodes)
    (h4 : t.maxCodeLen = 0) : t.CodesCurrent := by
  constructor <;> simp_all

/-- What BUILD stores is current (R75). -/
theorem storeTree_current (s : State) (hne : freqList s.freq ≠ []) :
    ((s.storeTree (freqList s.freq))).TreeCurrent := by
  have hle := TableLaws.freqList_length_le s.freq
  have hpos := List.length_pos_iff.2 hne
  obtain ⟨-, -, hlen⟩ := BuildLaws.buildTree_spec _ hne hle
  have hnc : ((s.storeTree (freqList s.freq))).nodeCount.toNat = 2 * (freqList s.freq).length - 1 := by
    simp [State.storeTree]; omega
  constructor
  · intro _; exact hne
  · intro _; simp [State.storeTree]; omega
  · intro _; exact hnc
  · intro _; simp [State.storeTree, BuildLaws.buildRoot_eq _ hne hle]; omega
  · intro _ i hi
    rw [hnc] at hi
    show (s.node.store _).at i = _
    rw [TableLaws.at_store _ _ _ (by omega), if_pos (by omega)]
    rfl
  · simp [State.storeTree]

end Sys2Proof.Machine.InvLaws
end

