-- ==== Sys2Proof/Laws/Paths.lean ====
section
/-! SUPPORT. The shape of an arena BUILD made (40_tree_builder.md R77), the paths in it, and what the walk of GENCODE
collects (41_code_table.md R79–R83). -/

namespace Sys2Proof.Machine

/-- The child of a record: right for a 1 bit, left for a 0 bit. -/
def childOf (v : Arena) (i : Nat) (b : Bool) : Nat := if b then (v.at i).right.toNat else (v.at i).left.toNat

/-- The shape of an arena with `n` leaves (R77), the leaves' symbols distinct. -/
structure Shaped (v : Arena) (n : Nat) : Prop where
  leaf : ∀ i, i < n → (v.at i).tag = false
  inner : ∀ i, n ≤ i → i < 2 * n - 1 → (v.at i).tag = true
  down : ∀ i, n ≤ i → i < 2 * n - 1 → ∀ b, childOf v i b < i
  distinct : ∀ i, n ≤ i → i < 2 * n - 1 → childOf v i false ≠ childOf v i true
  once : ∀ i j, n ≤ i → i < j → j < 2 * n - 1 → ∀ b c, childOf v i b ≠ childOf v j c
  syms : ∀ i j, i < n → j < n → (v.at i).sym = (v.at j).sym → i = j

namespace PathLaws

/-- An arena that holds what BUILD computes has that shape. -/
theorem shaped_of_records (v : Arena) (f : Table Word) (hne : freqList f ≠ [])
    (h : ∀ i, i < 2 * (freqList f).length - 1 → v.at i = nodeOf (buildArena (freqList f)) i) :
    Shaped v (freqList f).length := by
  have hl := TableLaws.freqList_length_le f
  have hpos := List.length_pos_iff.2 hne
  have hm := fun i h1 h2 => BuildLaws.buildArena_merged (freqList f) hne hl i h1 h2
  have hleaf := fun k hk => BuildLaws.buildArena_leaf (freqList f) hne hl k hk
  have hc : ∀ i, i < 2 * (freqList f).length - 1 → ∀ b,
      childOf v i b = if b then (nodeOf (buildArena (freqList f)) i).right.toNat
        else (nodeOf (buildArena (freqList f)) i).left.toNat := fun i hi b => by rw [childOf, h i hi]
  refine ⟨fun i hi => ?_, fun i h1 h2 => ?_, fun i h1 h2 b => ?_, fun i h1 h2 => ?_, fun i j h1 h2 h3 b c => ?_,
    fun i j hi hj he => ?_⟩
  · rw [h i (by omega), hleaf i hi]; rfl
  · rw [h i h2]; exact (hm i h1 h2).tag
  · rw [hc i h2]
    cases b
    · exact (hm i h1 h2).left_pool.1
    · exact (hm i h1 h2).right_pool.1
  · rw [hc i h2, hc i h2]; exact (hm i h1 h2).distinct
  · rw [hc i (by omega), hc j h3]
    have hl := (hm j (by omega) h3).left_pool.2 i h1 h2
    have hr := (hm j (by omega) h3).right_pool.2 i h1 h2
    cases b <;> cases c <;> simp_all
  · rw [h i (by omega), h j (by omega), hleaf i hi, hleaf j hj] at he
    have hp := TableLaws.freqList_pairwise f
    rw [List.pairwise_iff_getElem] at hp
    have he' : (freqList f)[i].1 = (freqList f)[j].1 := he
    rcases Nat.lt_trichotomy i j with hij | hij | hij
    · have := hp i j hi hj hij; rw [he'] at this; omega
    · exact hij
    · have := hp j i hj hi hij; rw [he'] at this; omega

/-! ### Following a path -/

theorem follow_nil (v : Arena) (i : Nat) : follow v i [] = some i := rfl

theorem follow_cons (v : Arena) (i : Nat) (b : Bool) (p : Bits) :
    follow v i (b :: p) = if (v.at i).tag then follow v (childOf v i b) p else none := rfl

theorem follow_append (v : Arena) (p q : Bits) : ∀ i, follow v i (p ++ q) = (follow v i p).bind fun k => follow v k q := by
  induction p with
  | nil => intro i; rfl
  | cons b p ih =>
    intro i
    rw [List.cons_append, follow_cons, follow_cons]
    split
    · exact ih _
    · rfl

variable {v : Arena} {n : Nat}

theorem tag_iff (h : Shaped v n) (i : Nat) (hi : i < 2 * n - 1) : (v.at i).tag = true ↔ n ≤ i := by
  constructor
  · intro ht
    by_contra hc
    rw [h.leaf i (by omega)] at ht; cases ht
  · intro hn; exact h.inner i hn hi

/-- A path leads down: to the record itself when it is empty, else to a smaller index; and it is no longer than the
internal nodes it can pass. -/
theorem follow_bounds (h : Shaped v n) (p : Bits) : ∀ i k, i < 2 * n - 1 → follow v i p = some k →
    k ≤ i ∧ (p ≠ [] → k < i ∧ n + p.length ≤ i + 1) := by
  induction p with
  | nil =>
    intro i k _ hf
    rw [follow_nil, Option.some.injEq] at hf
    exact ⟨by omega, fun h => absurd rfl h⟩
  | cons b p ih =>
    intro i k hi hf
    rw [follow_cons] at hf
    split at hf
    · rename_i ht
      have hn := (tag_iff h i hi).1 ht
      have hd := h.down i hn hi b
      obtain ⟨h1, h2⟩ := ih _ k (by omega) hf
      refine ⟨by omega, fun _ => ⟨by omega, ?_⟩⟩
      by_cases hp : p = []
      · subst hp; simp; omega
      · have := (h2 hp).2; simp only [List.length_cons]; omega
    · cases hf

/-- A record is reached from another by one path at most. -/
theorem follow_unique (h : Shaped v n) (i : Nat) (hi : i < 2 * n - 1) : ∀ (p q : Bits) (k : Nat),
    follow v i p = some k → follow v i q = some k → p = q := by
  intro p
  induction p using List.reverseRecOn with
  | nil =>
    intro q k h1 h2
    by_contra hq
    have := ((follow_bounds h q i k hi h2).2 (fun he => hq he.symm)).1
    rw [follow_nil, Option.some.injEq] at h1
    omega
  | append_singleton p b ih =>
    intro q k h1 h2
    rcases List.eq_nil_or_concat q with rfl | ⟨q, c, rfl⟩
    · have := ((follow_bounds h _ i k hi h1).2 (by simp)).1
      rw [follow_nil, Option.some.injEq] at h2
      omega
    · rw [List.concat_eq_append] at h2 ⊢
      have step : ∀ (r : Bits) (d : Bool), follow v i (r ++ [d]) = some k →
          ∃ j, follow v i r = some j ∧ n ≤ j ∧ j < 2 * n - 1 ∧ childOf v j d = k := by
        intro r d hr
        rw [follow_append] at hr
        obtain ⟨j, hj, hjd⟩ := Option.bind_eq_some_iff.1 hr
        have hji := (follow_bounds h r i j hi hj).1
        rw [follow_cons] at hjd
        split at hjd
        · exact ⟨j, hj, (tag_iff h j (by omega)).1 ‹_›, by omega, by simpa [follow_nil] using hjd⟩
        · cases hjd
      obtain ⟨j, hj, j1, j2, hjk⟩ := step p b h1
      obtain ⟨m, hm, m1, m2, hmk⟩ := step q c h2
      have hjm : j = m := by
        rcases Nat.lt_trichotomy j m with hlt | he | hlt
        · exact absurd (hjk.trans hmk.symm) (h.once j m j1 hlt m2 b c)
        · exact he
        · exact absurd (hmk.trans hjk.symm) (h.once m j m1 hlt j2 c b)
      subst hjm
      have hbc : b = c := by
        have hd := h.distinct j j1 j2
        cases b <;> cases c <;> simp_all
      rw [ih q j hj hm, hbc]

/-- From every record some leaf can be reached. -/
theorem exists_leaf_below (h : Shaped v n) : ∀ i, i < 2 * n - 1 → ∃ q k, follow v i q = some k ∧ k < n ∧
    (n ≤ i → q ≠ []) := by
  intro i
  induction i using Nat.strong_induction_on with
  | _ i ih =>
    intro hi
    by_cases hn : n ≤ i
    · have hd := h.down i hn hi false
      obtain ⟨q, k, h1, h2, -⟩ := ih _ hd (by omega)
      refine ⟨false :: q, k, ?_, h2, by simp⟩
      rw [follow_cons, if_pos (h.inner i hn hi)]; exact h1
    · exact ⟨[], i, rfl, by omega, fun h => absurd h hn⟩

/-! ### The walk (R79) -/

/-- The walk collects exactly the leaves below a record, each with its path. -/
theorem mem_walk (h : Shaped v n) : ∀ (fuel i : Nat) (p : Bits) (x : Byte) (r : Bits), i < fuel → i < 2 * n - 1 →
    ((x, r) ∈ walk v fuel i p ↔ ∃ q k, r = p ++ q ∧ follow v i q = some k ∧ k < n ∧ (v.at k).sym = x) := by
  intro fuel
  induction fuel with
  | zero => intro i p x r hi; omega
  | succ fuel ih =>
    intro i p x r hi hin
    rw [walk]
    by_cases ht : (v.at i).tag = true
    · have hn := (tag_iff h i hin).1 ht
      have hl := h.down i hn hin false
      have hr := h.down i hn hin true
      rw [if_pos ht, List.mem_append]
      have h1 := ih (v.at i).left.toNat (p ++ [false]) x r (by simp only [childOf] at hl; simp at hl; omega)
        (by simp only [childOf] at hl; simp at hl; omega)
      have h2 := ih (v.at i).right.toNat (p ++ [true]) x r (by simp only [childOf] at hr; simp at hr; omega)
        (by simp only [childOf] at hr; simp at hr; omega)
      rw [h1, h2]
      constructor
      · rintro (⟨q, k, rfl, hf, hk, hs⟩ | ⟨q, k, rfl, hf, hk, hs⟩)
        · exact ⟨false :: q, k, by simp, by rw [follow_cons, if_pos ht]; exact hf, hk, hs⟩
        · exact ⟨true :: q, k, by simp, by rw [follow_cons, if_pos ht]; exact hf, hk, hs⟩
      · rintro ⟨q, k, rfl, hf, hk, hs⟩
        cases q with
        | nil => rw [follow_nil, Option.some.injEq] at hf; omega
        | cons b q =>
          rw [follow_cons, if_pos ht] at hf
          cases b
          · exact .inl ⟨q, k, by simp, hf, hk, hs⟩
          · exact .inr ⟨q, k, by simp, hf, hk, hs⟩
    · have hn : i < n := by
        by_contra hc; exact ht (h.inner i (by omega) hin)
      rw [if_neg ht, List.mem_singleton, Prod.mk.injEq]
      constructor
      · rintro ⟨rfl, rfl⟩; exact ⟨[], i, by simp, rfl, hn, rfl⟩
      · rintro ⟨q, k, rfl, hf, hk, hs⟩
        cases q with
        | nil =>
          rw [follow_nil, Option.some.injEq] at hf
          subst hf
          exact ⟨hs.symm, by simp⟩
        | cons b q => rw [follow_cons, if_neg ht] at hf; cases hf

/-- Every path the walk collects extends the path it was given. -/
theorem walk_prefix (v : Arena) : ∀ (fuel i : Nat) (p : Bits) (e : Byte × Bits), e ∈ walk v fuel i p → p <+: e.2 := by
  intro fuel
  induction fuel with
  | zero => intro i p e he; simp [walk] at he
  | succ fuel ih =>
    intro i p e he
    rw [walk] at he
    split at he
    · rcases List.mem_append.1 he with he | he
      · exact (List.prefix_append p [false]).trans (ih _ _ _ he)
      · exact (List.prefix_append p [true]).trans (ih _ _ _ he)
    · rw [List.mem_singleton] at he; subst he; exact List.prefix_rfl

/-- The walk collects nothing twice. -/
theorem walk_nodup (v : Arena) : ∀ (fuel i : Nat) (p : Bits), (walk v fuel i p).Nodup := by
  intro fuel
  induction fuel with
  | zero => intro i p; simp [walk]
  | succ fuel ih =>
    intro i p
    rw [walk]
    split
    · rw [List.nodup_append]
      refine ⟨ih _ _, ih _ _, fun a ha b hb hab => ?_⟩
      subst hab
      obtain ⟨r, hr⟩ := walk_prefix v _ _ _ _ ha
      obtain ⟨s, hs⟩ := walk_prefix v _ _ _ _ hb
      rw [← hr, List.append_assoc, List.append_assoc] at hs
      simpa using List.append_cancel_left hs
    · simp

/-- The walk's paths fill the space of bit strings below the path it was given (R83). -/
theorem walk_kraft (h : Shaped v n) (d : Nat) : ∀ (fuel i : Nat) (p : Bits), i < fuel → i < 2 * n - 1 →
    (∀ e ∈ walk v fuel i p, e.2.length ≤ d) →
    ((walk v fuel i p).map fun e => 2 ^ (d - e.2.length)).sum = 2 ^ (d - p.length) := by
  intro fuel
  induction fuel with
  | zero => intro i p hi; omega
  | succ fuel ih =>
    intro i p hi hin hd
    rw [walk] at hd ⊢
    by_cases ht : (v.at i).tag = true
    · have hn := (tag_iff h i hin).1 ht
      have hl : (v.at i).left.toNat < i := by simpa [childOf] using h.down i hn hin false
      have hr : (v.at i).right.toNat < i := by simpa [childOf] using h.down i hn hin true
      rw [if_pos ht] at hd ⊢
      have hlen : p.length + 1 ≤ d := by
        obtain ⟨q, k, hf, hk, -⟩ := exists_leaf_below h (v.at i).left.toNat (by omega)
        have := hd ((v.at k).sym, p ++ [false] ++ q) (List.mem_append_left _
          ((mem_walk h fuel _ (p ++ [false]) _ _ (by omega) (by omega)).2 ⟨q, k, rfl, hf, hk, rfl⟩))
        simp at this; omega
      rw [List.map_append, List.sum_append,
        ih _ (p ++ [false]) (by omega) (by omega) fun e he => hd e (List.mem_append_left _ he),
        ih _ (p ++ [true]) (by omega) (by omega) fun e he => hd e (List.mem_append_right _ he)]
      simp only [List.length_append, List.length_cons, List.length_nil, Nat.zero_add]
      rw [show d - p.length = (d - (p.length + 1)) + 1 by omega, Nat.pow_succ]; omega
    · rw [if_neg ht]; simp

/-! ### The code table -/

/-- An entry after `putAll` of a list in which every pair with its symbol has the same value. -/
theorem at_putAll_agree {α : Type} (l : List (Byte × α)) : ∀ (t : Table α) (x : Byte) (y : α), (x, y) ∈ l →
    (∀ z, (x, z) ∈ l → z = y) → (t.putAll l).at x = y := by
  induction l with
  | nil => intro _ _ _ h; simp at h
  | cons e l ih =>
    intro t x y hm hall
    by_cases hin : ∃ z, (x, z) ∈ l
    · obtain ⟨z, hz⟩ := hin
      have hzy := hall z (List.mem_cons_of_mem _ hz)
      subst hzy
      exact ih (t.put e.1 e.2) x z hz fun w hw => hall w (List.mem_cons_of_mem _ hw)
    · have := TableLaws.at_putAll_of_not_mem l (t.put e.1 e.2) x
        fun q hq hqx => hin ⟨q.2, by rw [← hqx]; exact hq⟩
      simp only [Table.putAll, List.foldl_cons] at this ⊢
      rcases List.mem_cons.1 hm with he | hm
      · subst he; rw [this, TableLaws.at_put, if_pos rfl]
      · exact absurd ⟨y, hm⟩ hin

/-- In a shaped arena of two leaves or more, the codeword of a symbol is the path from the root to its leaf (R79). -/
theorem codeTable_iff (h : Shaped v n) (hn : 2 ≤ n) (hm : n ≤ 256) (x : Byte) (p : Bits) :
    ((codeTable v (2 * n - 2)).at x = p ∧ p ≠ []) ↔
      ∃ k, follow v (2 * n - 2) p = some k ∧ k < n ∧ (v.at k).sym = x := by
  have hroot : (v.at (2 * n - 2)).tag = true := h.inner _ (by omega) (by omega)
  have hw := fun r => mem_walk h maxNodes (2 * n - 2) [] x r (by simp only [maxNodes]; omega) (by omega)
  simp only [List.nil_append] at hw
  have huniq : ∀ r s, (x, r) ∈ walk v maxNodes (2 * n - 2) [] → (x, s) ∈ walk v maxNodes (2 * n - 2) [] → r = s := by
    intro r s hr hs
    obtain ⟨q, k, rfl, hq, hk, hks⟩ := (hw r).1 hr
    obtain ⟨q', k', rfl, hq', hk', hks'⟩ := (hw s).1 hs
    have := h.syms k k' hk hk' (hks.trans hks'.symm)
    subst this
    exact follow_unique h _ (by omega) _ _ _ hq hq'
  have hct : codeTable v (2 * n - 2) = noCodes.putAll (walk v maxNodes (2 * n - 2) []) := by
    rw [codeTable, codewords, if_pos hroot]
  rw [hct]
  constructor
  · rintro ⟨hp, hne⟩
    by_cases hin : ∃ r, (x, r) ∈ walk v maxNodes (2 * n - 2) []
    · obtain ⟨r, hr⟩ := hin
      rw [at_putAll_agree _ _ x r hr fun z hz => huniq z r hz hr] at hp
      subst hp
      obtain ⟨q, k, rfl, hq, hk, hks⟩ := (hw r).1 hr
      exact ⟨k, hq, hk, hks⟩
    · rw [TableLaws.at_putAll_of_not_mem _ _ _ fun e he hex => hin ⟨e.2, by rw [← hex]; exact he⟩,
        TableLaws.at_noCodes] at hp
      exact absurd hp.symm hne
  · rintro ⟨k, hf, hk, hks⟩
    have hr := (hw p).2 ⟨p, k, rfl, hf, hk, hks⟩
    refine ⟨at_putAll_agree _ _ x p hr fun z hz => huniq z p hz hr, ?_⟩
    rintro rfl
    rw [follow_nil, Option.some.injEq] at hf
    omega

/-- With one leaf the only codeword is "0" (R80). -/
theorem codeTable_leaf (v : Arena) (root : Nat) (h : (v.at root).tag = false) (x : Byte) :
    (codeTable v root).at x = if x = (v.at root).sym then [false] else [] := by
  rw [codeTable, codewords, if_neg (by simp [h])]
  simp only [Table.putAll, List.foldl_cons, List.foldl_nil, TableLaws.at_put, TableLaws.at_noCodes]
  simp only [eq_comm]

/-- Every symbol of a leaf gets a codeword, and no other symbol does (R84). -/
theorem codeTable_ne_nil (h : Shaped v n) (hn : 2 ≤ n) (hm : n ≤ 256) (hreach : ∀ k, k < n →
    ∃ p, follow v (2 * n - 2) p = some k) (x : Byte) :
    (codeTable v (2 * n - 2)).at x ≠ [] ↔ ∃ k, k < n ∧ (v.at k).sym = x := by
  constructor
  · intro hne
    obtain ⟨k, -, hk, hs⟩ := (codeTable_iff h hn hm x _).1 ⟨rfl, hne⟩
    exact ⟨k, hk, hs⟩
  · rintro ⟨k, hk, hs⟩
    obtain ⟨p, hp⟩ := hreach k hk
    obtain ⟨h1, h2⟩ := (codeTable_iff h hn hm x p).2 ⟨k, hp, hk, hs⟩
    rw [h1]; exact h2

/-- Every record is reached from the root when every record but the root has a parent (R77). -/
theorem reachable (h : Shaped v n) (hn : 1 ≤ n)
    (hpar : ∀ k, k < 2 * n - 2 → ∃ i b, n ≤ i ∧ i < 2 * n - 1 ∧ childOf v i b = k) :
    ∀ m k, 2 * n - 2 - k = m → k < 2 * n - 1 → ∃ p, follow v (2 * n - 2) p = some k := by
  intro m
  induction m using Nat.strong_induction_on with
  | _ m ih =>
    intro k hm hk
    by_cases hr : k = 2 * n - 2
    · exact ⟨[], by rw [follow_nil, hr]⟩
    · obtain ⟨i, b, h1, h2, h3⟩ := hpar k (by omega)
      have hd := h.down i h1 h2 b
      obtain ⟨p, hp⟩ := ih (2 * n - 2 - i) (by omega) i rfl h2
      refine ⟨p ++ [b], ?_⟩
      rw [follow_append, hp, Option.bind_some, follow_cons, if_pos (h.inner i h1 h2), h3, follow_nil]

/-- The codewords of a shaped arena are prefix-free (R82). -/
theorem codeTable_prefixFree (h : Shaped v n) (hn : 2 ≤ n) (hm : n ≤ 256) :
    prefixFree (codeTable v (2 * n - 2)) := by
  intro a b hab ha hb hp
  obtain ⟨k, hk, hkn, hka⟩ := (codeTable_iff h hn hm a _).1 ⟨rfl, ha⟩
  obtain ⟨j, hj, hjn, hjb⟩ := (codeTable_iff h hn hm b _).1 ⟨rfl, hb⟩
  obtain ⟨r, hr⟩ := hp
  rw [← hr, follow_append, hk, Option.bind_some] at hj
  cases r with
  | nil =>
    rw [follow_nil, Option.some.injEq] at hj
    exact hab (by rw [← hka, ← hjb, hj])
  | cons c r =>
    rw [follow_cons, h.leaf k hkn] at hj
    simp at hj

/-- No codeword is longer than `n - 1` bits (R81). -/
theorem codeTable_length (h : Shaped v n) (hn : 2 ≤ n) (hm : n ≤ 256) (x : Byte) :
    ((codeTable v (2 * n - 2)).at x).length ≤ n - 1 := by
  by_cases hx : (codeTable v (2 * n - 2)).at x = []
  · rw [hx]; simp
  · obtain ⟨k, hk, hkn, -⟩ := (codeTable_iff h hn hm x _).1 ⟨rfl, hx⟩
    have := ((follow_bounds h _ _ _ (by omega) hk).2 hx).2
    omega

/-- The Kraft sum of a table is the sum over any list without repeats of its non-empty entries (R83). -/
theorem kraftSum_eq (c : Table Bits) (l : List (Byte × Bits)) (hnd : l.Nodup)
    (hl : ∀ x p, (x, p) ∈ l ↔ c.at x = p ∧ p ≠ []) : kraftSum c = (l.map fun e => 2 ^ (255 - e.2.length)).sum := by
  have hperm : (c.pairs.filter fun e => e.2 != []).Perm l := by
    refine (List.perm_ext_iff_of_nodup ?_ hnd).2 fun e => ?_
    · refine List.Nodup.filter _ ?_
      exact (TableLaws.pairs_pairwise c).imp fun hlt he => by rw [he] at hlt; omega
    · obtain ⟨x, p⟩ := e
      rw [hl, List.mem_filter, TableLaws.mem_pairs]
      simp
  rw [← (hperm.map fun e => 2 ^ (255 - e.2.length)).sum_eq]
  have hlist : c.toList = c.pairs.map Prod.snd := by
    refine List.ext_getElem (by simp [Table.pairs]) fun i h1 h2 => ?_
    simp [Table.pairs]
  rw [kraftSum, hlist, List.map_map]
  generalize c.pairs = q
  induction q with
  | nil => rfl
  | cons e q ih =>
    rw [List.map_cons, List.sum_cons, ih, List.filter_cons]
    by_cases he : e.2 = [] <;> simp [he]

/-- The code of a shaped arena of two leaves or more is complete: its Kraft sum is 1 (R83). -/
theorem codeTable_kraft (h : Shaped v n) (hn : 2 ≤ n) (hm : n ≤ 256) :
    kraftSum (codeTable v (2 * n - 2)) = 2 ^ 255 := by
  have hw := fun x r => mem_walk h maxNodes (2 * n - 2) [] x r (by simp only [maxNodes]; omega) (by omega)
  simp only [List.nil_append] at hw
  have hmem : ∀ x p, (x, p) ∈ walk v maxNodes (2 * n - 2) [] ↔
      (codeTable v (2 * n - 2)).at x = p ∧ p ≠ [] := by
    intro x p
    rw [hw, codeTable_iff h hn hm]
    constructor
    · rintro ⟨q, k, rfl, hq⟩; exact ⟨k, hq⟩
    · rintro ⟨k, hq⟩; exact ⟨p, k, rfl, hq⟩
  rw [kraftSum_eq _ _ (walk_nodup ..) hmem,
    walk_kraft h 255 _ _ _ (by simp only [maxNodes]; omega) (by omega)]
  · simp
  · rintro ⟨x, p⟩ he
    have := codeTable_length h hn hm x
    rw [((hmem x p).1 he).1] at this
    simp only; omega

/-- Every bit string is a stream of codewords and then a proper prefix of one (R83). -/
theorem codeTable_decompose (h : Shaped v n) (hn : 2 ≤ n) (hm : n ≤ 256) : ∀ (m : Nat) (p : Bits), p.length = m →
    ∃ out b r, codewordStream (codeTable v (2 * n - 2)) out = some b ∧ p = b ++ r ∧
      ∃ x, r <+: (codeTable v (2 * n - 2)).at x ∧ r.length < ((codeTable v (2 * n - 2)).at x).length := by
  -- from a record, a bit string leads to a leaf at some point or ends inside the tree
  have key : ∀ (p : Bits) (i : Nat), i < 2 * n - 1 →
      (∃ q s k, p = q ++ s ∧ follow v i q = some k ∧ k < n) ∨ (∃ k, follow v i p = some k ∧ n ≤ k ∧ k < 2 * n - 1) := by
    intro p
    induction p with
    | nil =>
      intro i hi
      by_cases hn' : n ≤ i
      · exact .inr ⟨i, rfl, hn', hi⟩
      · exact .inl ⟨[], [], i, rfl, rfl, by omega⟩
    | cons b p ih =>
      intro i hi
      by_cases hn' : n ≤ i
      · have ht := h.inner i hn' hi
        have hd := h.down i hn' hi b
        rcases ih (childOf v i b) (by omega) with ⟨q, s, k, rfl, hq, hk⟩ | ⟨k, hk⟩
        · exact .inl ⟨b :: q, s, k, rfl, by rw [follow_cons, if_pos ht]; exact hq, hk⟩
        · exact .inr ⟨k, by rw [follow_cons, if_pos ht]; exact hk⟩
      · exact .inl ⟨[], b :: p, i, rfl, rfl, by omega⟩
  intro m
  induction m using Nat.strong_induction_on with
  | _ m ih =>
    intro p hp
    rcases key p (2 * n - 2) (by omega) with ⟨q, s, k, rfl, hq, hk⟩ | ⟨k, hk, hkn, hk2⟩
    · obtain ⟨hc, hqne⟩ := (codeTable_iff h hn hm _ q).2 ⟨k, hq, hk, rfl⟩
      have hlen := List.length_pos_iff.2 hqne
      obtain ⟨out, b, r, h1, rfl, h3⟩ := ih s.length (by simp at hp; omega) s rfl
      refine ⟨(v.at k).sym :: out, q ++ b, r, ?_, by simp, h3⟩
      rw [codewordStream, hc, if_neg hqne, h1]; rfl
    · obtain ⟨q, j, hq, hj, hqne⟩ := exists_leaf_below h k hk2
      have hpq : follow v (2 * n - 2) (p ++ q) = some j := by rw [follow_append, hk]; exact hq
      obtain ⟨hc, -⟩ := (codeTable_iff h hn hm _ (p ++ q)).2 ⟨j, hpq, hj, rfl⟩
      refine ⟨[], [], p, rfl, rfl, (v.at j).sym, ?_⟩
      rw [hc]
      have := List.length_pos_iff.2 (hqne hkn)
      exact ⟨List.prefix_append .., by simp; omega⟩

/-! ### Two arenas with the same records (R76) -/

theorem walk_congr (h : Shaped v n) (v' : Arena) (hv : ∀ i, i < 2 * n - 1 → v.at i = v'.at i) :
    ∀ (fuel i : Nat) (p : Bits), i < 2 * n - 1 → walk v fuel i p = walk v' fuel i p := by
  intro fuel
  induction fuel with
  | zero => intros; rfl
  | succ fuel ih =>
    intro i p hi
    rw [walk, walk, ← hv i hi]
    split
    · have ht := (tag_iff h i hi).1 ‹_›
      have h1 : (v.at i).left.toNat < i := h.down i ht hi false
      have h2 : (v.at i).right.toNat < i := h.down i ht hi true
      rw [ih _ _ (by omega), ih _ _ (by omega)]
    · rfl

/-- The code table depends on the records below the root alone. -/
theorem codeTable_congr (h : Shaped v n) (hn : 1 ≤ n) (v' : Arena) (hv : ∀ i, i < 2 * n - 1 → v.at i = v'.at i) :
    codeTable v (2 * n - 2) = codeTable v' (2 * n - 2) := by
  rw [codeTable, codeTable, codewords, codewords, ← hv _ (by omega), walk_congr h v' hv _ _ _ (by omega)]

/-! ### The largest length (R84) -/

theorem foldl_max_length (l : List Bits) : ∀ n, n ≤ l.foldl (fun n b => max n b.length) n ∧
    (∀ b ∈ l, b.length ≤ l.foldl (fun n b => max n b.length) n) ∧
    (l.foldl (fun n b => max n b.length) n = n ∨ ∃ b ∈ l, b.length = l.foldl (fun n b => max n b.length) n) := by
  induction l with
  | nil => simp
  | cons b l ih =>
    intro n
    obtain ⟨h1, h2, h3⟩ := ih (max n b.length)
    rw [List.foldl_cons]
    refine ⟨by omega, fun c hc => ?_, ?_⟩
    · rcases List.mem_cons.1 hc with rfl | hc
      · omega
      · exact h2 c hc
    · rcases h3 with h3 | ⟨c, hc, h3⟩
      · rw [h3]
        rcases Nat.le_total n b.length with h | h
        · exact .inr ⟨b, by simp, by omega⟩
        · exact .inl (by omega)
      · exact .inr ⟨c, List.mem_cons_of_mem _ hc, h3⟩

/-- No codeword is longer than the largest length. -/
theorem length_le_maxLength (c : Table Bits) (x : Byte) : (c.at x).length ≤ maxLength c :=
  (foldl_max_length c.toList 0).2.1 _ (by simp [Table.at])

/-- Some codeword has the largest length. -/
theorem exists_maxLength (c : Table Bits) : ∃ x, (c.at x).length = maxLength c := by
  rcases (foldl_max_length c.toList 0).2.2 with h | ⟨b, hb, h⟩
  · refine ⟨0, ?_⟩
    have := length_le_maxLength c 0
    rw [maxLength, h] at *; omega
  · obtain ⟨i, hi, rfl⟩ := List.mem_iff_getElem.1 hb
    refine ⟨BitVec.ofNat 8 i, ?_⟩
    have hi' : i < 256 := by simpa using hi
    rw [maxLength, ← h]
    simp [Table.at, Nat.mod_eq_of_lt hi']

end PathLaws

end Sys2Proof.Machine
end

