-- ==== Sys2Proof/Laws/PerInstr.lean ====
section
/-! SUPPORT. Facts about every instruction as syntax, one lemma per constructor. -/

namespace Sys2Proof.Laws.Encoding

open Sys2Proof

/-- A command is well-formed, its word has RSVD = 0 and its own opcode in OP, that opcode names it and no other command
(30_encoding.md R58, R59), and its four bytes are taken whole, the rest handed back (R43, R62). -/
def Statement (i : Instr) : Prop :=
  i.wellFormed = true ∧ rsvdField (encode i) = 0#28 ∧ opField (encode i) = opcode i ∧
    legalCommandWord (encode i) = true ∧ (∀ j : Instr, opcode j = opcode i → j = i) ∧
    ∀ rest, (decodeBytes (bytesOfWord (encode i) ++ rest)).toOption = some (i, rest)

theorem build : Statement .build := by
  refine ⟨rfl, by decide, by decide, by decide, fun j => ?_, fun rest => rfl⟩
  cases j <;> decide

theorem gencode : Statement .gencode := by
  refine ⟨rfl, by decide, by decide, by decide, fun j => ?_, fun rest => rfl⟩
  cases j <;> decide

theorem pack : Statement .pack := by
  refine ⟨rfl, by decide, by decide, by decide, fun j => ?_, fun rest => rfl⟩
  cases j <;> decide

theorem unpack : Statement .unpack := by
  refine ⟨rfl, by decide, by decide, by decide, fun j => ?_, fun rest => rfl⟩
  cases j <;> decide

theorem serialize : Statement .serialize := by
  refine ⟨rfl, by decide, by decide, by decide, fun j => ?_, fun rest => rfl⟩
  cases j <;> decide

theorem deserialize : Statement .deserialize := by
  refine ⟨rfl, by decide, by decide, by decide, fun j => ?_, fun rest => rfl⟩
  cases j <;> decide

end Sys2Proof.Laws.Encoding
end

