-- ==== Sys2Proof/Laws/Step.lean ====
section
/-! SUPPORT. What a step can do, said once: a host access, the engine's turn, a whole step. And what the invariants
give: the shape of the current tree. -/

namespace Sys2Proof.Machine

/-- A register write changes the state in one of these ways (45_host_interface.md R104–R106, R108). -/
theorem regWrite_cases (s : State) (l : RegLoc) (v : Word) :
    (s.status.busy = true ∧ l = .cmd ∧ s.regWrite l v = s.setStatus s.status.markDrop) ∨
    (s.regWrite l v = s) ∨
    (s.status.busy = false ∧
      (s.regWrite l v = s.acceptCommand v ∨ s.regWrite l v = s.setSrcBase v ∨ s.regWrite l v = s.setSrcLen v ∨
        s.regWrite l v = s.setDstBase v ∨ s.regWrite l v = s.setDstCap v ∨
        s.regWrite l v = s.setPadding (v.extractLsb' 0 3) ∨ ∃ x, s.regWrite l v = s.hostFreqWrite x v)) := by
  unfold State.regWrite
  by_cases hb : s.status.busy = true
  · rw [if_pos hb]
    unfold State.regWriteBusy
    split
    · exact .inl ⟨hb, ‹_›, rfl⟩
    · exact .inr (.inl rfl)
  · rw [if_neg hb]
    have hb' : s.status.busy = false := by simpa using hb
    cases l with
    | cmd => exact .inr (.inr ⟨hb', .inl rfl⟩)
    | srcBase => exact .inr (.inr ⟨hb', .inr (.inl rfl)⟩)
    | srcLen => exact .inr (.inr ⟨hb', .inr (.inr (.inl rfl))⟩)
    | dstBase => exact .inr (.inr ⟨hb', .inr (.inr (.inr (.inl rfl)))⟩)
    | dstCap => exact .inr (.inr ⟨hb', .inr (.inr (.inr (.inr (.inl rfl))))⟩)
    | padding => exact .inr (.inr ⟨hb', .inr (.inr (.inr (.inr (.inr (.inl rfl)))))⟩)
    | freq x => exact .inr (.inr ⟨hb', .inr (.inr (.inr (.inr (.inr (.inr ⟨x, rfl⟩)))))⟩)
    | _ => exact .inr (.inl rfl)

/-- A host access that answers a next state did one of these (R103, R104, R107, R127). -/
theorem hostAccess_cases {h : HostAccess} {s t : State} (hs : hostAccess h s = .next t) :
    (∃ r, t = s.reply r) ∨ (∃ l v, t = s.regWrite l v) ∨
    (∃ a b, a < s.cfg.dmemSize ∧ t = s.setMem (s.mem.write a b)) ∨ t = s.applyReset := by
  cases h with
  | regRead bits o =>
    simp only [hostAccess] at hs
    split at hs
    · injection hs with hs; exact .inl ⟨_, hs.symm⟩
    · cases hs
  | regWrite bits o v =>
    simp only [hostAccess] at hs
    split at hs
    · injection hs with hs; exact .inr (.inl ⟨_, _, hs.symm⟩)
    · cases hs
  | dmemRead a =>
    simp only [hostAccess] at hs
    split at hs
    · cases hs
    · split at hs
      · injection hs with hs; exact .inl ⟨_, hs.symm⟩
      · cases hs
  | dmemWrite a b =>
    simp only [hostAccess] at hs
    split at hs
    · cases hs
    · rename_i hf
      injection hs with hs
      refine .inr (.inr (.inl ⟨a, b, ?_, hs.symm⟩))
      unfold State.dmemFault at hf
      split at hf
      · cases hf
      · omega
  | reset => injection hs with hs; exact .inr (.inr (.inr hs.symm))

/-- The engine's turn (R109). -/
theorem engineTurn_cases {s t : State} (hs : engineTurn s = .next t) :
    (s.status.busy = false ∧ t = s) ∨ ∃ i, s.status.busy = true ∧ s.pendingInstr = some i ∧ exec i s = .next t := by
  unfold engineTurn at hs
  split at hs
  · split at hs
    · exact .inr ⟨_, ‹_›, ‹_›, hs⟩
    · cases hs
  · injection hs with hs; exact .inl ⟨Bool.eq_false_of_not_eq_true ‹_›, hs.symm⟩

/-- A whole step: the host's access or the engine's turn, the move taken off the inbox. -/
theorem step_cases {s t : State} (hs : step s = .next t) :
    (∃ h ms, s.inbox = .host h :: ms ∧ hostAccess h (s.setInbox ms) = .next t) ∨
    (s.inbox = [] ∧ engineTurn s = .next t) ∨
    (∃ ms, s.inbox = .engine :: ms ∧ engineTurn (s.setInbox ms) = .next t) := by
  unfold step at hs
  split at hs
  · exact .inr (.inl ⟨‹_›, hs⟩)
  · rename_i m ms hm
    cases m with
    | host h => exact .inl ⟨h, ms, hm, hs⟩
    | engine => exact .inr (.inr ⟨ms, hm, hs⟩)

/-! ### The decoder's parts -/

/-- The opcodes are the only ones the map names (30_encoding.md R59). -/
theorem ofOpcode_eq_some (op : BitVec 4) (i : Instr) : ofOpcode op = some i ↔ op = opcode i := by
  revert op; cases i <;> decide

/-- Decoding and encoding agree (R59, R60), field by field: RSVD is 0 and OP is the command's. -/
theorem decode_eq_ok (v : Word) (i : Instr) : decode v = .ok i ↔ rsvdField v = 0#28 ∧ opField v = opcode i := by
  unfold decode
  by_cases hr : rsvdField v = 0#28
  · rw [if_neg (by simp [hr])]
    cases ho : ofOpcode (opField v) with
    | some j =>
      simp only [Except.ok.injEq, hr, true_and]
      rw [← ofOpcode_eq_some, ho, Option.some.injEq]
    | none =>
      simp only [reduceCtorEq, hr, true_and, false_iff]
      rw [← ofOpcode_eq_some, ho]; simp
  · rw [if_pos hr]; simp [hr]

/-! ### What the invariants give -/

/-- With TREE_VALID = 1 the arena has the shape of R77, and the root is its last record (R25, R72). -/
theorem State.TreeCurrent.shaped {s : State} (h : s.TreeCurrent) (hv : s.status.treeValid = true) :
    Shaped s.node s.leafCount.toNat ∧ 1 ≤ s.leafCount.toNat ∧ s.leafCount.toNat ≤ 256 ∧
      s.nodeCount.toNat = 2 * s.leafCount.toNat - 1 ∧ s.root.toNat = 2 * s.leafCount.toNat - 2 := by
  have hl := h.leafCount hv
  have hn := h.nodeCount hv
  have hne := h.nonempty hv
  rw [hl]
  refine ⟨PathLaws.shaped_of_records _ _ hne fun i hi => h.records hv i (by omega),
    List.length_pos_iff.2 hne, TableLaws.freqList_length_le _, hn, h.root hv⟩

/-- The symbols of the leaves are exactly the symbols with a count (R68). -/
theorem State.TreeCurrent.leaf_symbols {s : State} (h : s.TreeCurrent) (hv : s.status.treeValid = true) (x : Byte) :
    (∃ k, k < s.leafCount.toNat ∧ (s.node.at k).sym = x) ↔ s.freq.at x ≠ 0#32 := by
  have hl := h.leafCount hv
  have hn := h.nodeCount hv
  have hne := h.nonempty hv
  have hle := TableLaws.freqList_length_le s.freq
  have hsym : ∀ k (hk : k < (freqList s.freq).length), (s.node.at k).sym = (freqList s.freq)[k].1 := fun k hk => by
    rw [h.records hv k (by omega), BuildLaws.buildArena_leaf _ hne hle k hk]; rfl
  rw [hl]
  constructor
  · rintro ⟨k, hk, rfl⟩
    rw [hsym k hk]
    have hm : ((freqList s.freq)[k].1, (freqList s.freq)[k].2) ∈ freqList s.freq := List.getElem_mem hk
    obtain ⟨h1, h2⟩ := (TableLaws.mem_freqList s.freq _ _).1 hm
    exact fun hz => h2 (h1.symm.trans hz)
  · intro hx
    obtain ⟨k, hk, he⟩ := List.mem_iff_getElem.1 ((TableLaws.mem_freqList s.freq x _).2 ⟨rfl, hx⟩)
    exact ⟨k, hk, by rw [hsym k hk, he]⟩

/-- Every record of a current tree is reached from the root. -/
theorem State.TreeCurrent.reachable {s : State} (h : s.TreeCurrent) (hv : s.status.treeValid = true) (k : Nat)
    (hk : k < s.nodeCount.toNat) : ∃ p, follow s.node s.root.toNat p = some k := by
  obtain ⟨hs, h1, h2, hn, hr⟩ := h.shaped hv
  have hl := h.leafCount hv
  have hne := h.nonempty hv
  have hle := TableLaws.freqList_length_le s.freq
  rw [hr]
  refine PathLaws.reachable hs h1 (fun j hj => ?_) _ k rfl (by omega)
  obtain ⟨i, i1, i2, hc⟩ := BuildLaws.buildArena_has_parent _ hne hle j (by omega)
  have hrec := h.records hv i (by omega)
  rcases hc with hc | hc
  · exact ⟨i, false, by omega, by omega, by rw [childOf, hrec]; exact hc⟩
  · exact ⟨i, true, by omega, by omega, by rw [childOf, hrec]; exact hc⟩

end Sys2Proof.Machine
end

