-- ==== Sys2Proof/Tests/Slice0.lean ====
section
/-! SUPPORT. Tests. Expected values come from 95_test_vectors.md and from the encodings of 30_encoding.md; each names its
source. Then, for every statement with hypotheses, a theorem `test_met_…` that meets them. -/

namespace Sys2Proof.Tests

open Sys2Proof Sys2Proof.Machine

-- One evaluation at a time: many at once exhaust the memory limit with their thread stacks.
set_option Elab.async false

/-! ### Well-formedness and decoding (30_encoding.md R58–R60) -/

/-- Every command is well-formed: there is no operand field to be wrong. -/
theorem test_wellFormed : ∀ i ∈ [Instr.build, .gencode, .pack, .unpack, .serialize, .deserialize], i.wellFormed = true := by
  decide

/-- Ill-formed words, one per check of R60: OP below the map, OP above it, RSVD not 0 (at each end of the field). -/
theorem test_illFormed : legalCommandWord 0x00000000#32 = false ∧ legalCommandWord 0x00000007#32 = false ∧
    legalCommandWord 0x0000000F#32 = false ∧ legalCommandWord 0x00000011#32 = false ∧
    legalCommandWord 0x80000001#32 = false := by decide

/-- Each rejected by name. -/
theorem test_rejects : (decode 0x00000000#32).toOption = none ∧ (decode 0x00000007#32).toOption = none ∧
    (decode 0x80000001#32).toOption = none ∧ (decodeBytes [0x01, 0x00, 0x00]).toOption = none := by decide

/-- The words of R59's pattern column, bit by bit, most significant first: 28 zeros, then OP. -/
theorem test_decode_build : (decode 0b00000000000000000000000000000001#32).toOption = some .build := by decide
theorem test_decode_gencode : (decode 0b00000000000000000000000000000010#32).toOption = some .gencode := by decide
theorem test_decode_pack : (decode 0b00000000000000000000000000000011#32).toOption = some .pack := by decide
theorem test_decode_unpack : (decode 0b00000000000000000000000000000100#32).toOption = some .unpack := by decide
theorem test_decode_serialize : (decode 0b00000000000000000000000000000101#32).toOption = some .serialize := by decide
theorem test_decode_deserialize : (decode 0b00000000000000000000000000000110#32).toOption = some .deserialize := by
  decide

/-- A row of the opcode table, and one that is longer than a command. -/
theorem test_decodeTableWord : decodeTableWord 32 6 = some .deserialize ∧ decodeTableWord 32 7 = none ∧
    decodeTableWord 64 1 = none := by decide

/-! ### States -/

/-- FREQ of "aaaabbbccd" (vector B1.1). -/
def sampleFreq : Table Word := (((noCounts.put 0x61 4).put 0x62 3).put 0x63 2).put 0x64 1

/-- "aaaabbbccd". -/
def text : List Byte := [0x61, 0x61, 0x61, 0x61, 0x62, 0x62, 0x62, 0x63, 0x63, 0x64]

/-- The next state of an outcome; of one that has none, the state given. -/
def after (o : Outcome) (s : State) : State :=
  match o with
  | .next t => t
  | .fault _ => s
  | .refused _ => s

/-- Whether an outcome is a next state. -/
def isNext : Outcome → Bool
  | .next _ => true
  | .fault _ => false
  | .refused _ => false

/-- What a next state shows; nothing of a fault or a refusal. -/
def seen {α : Type} (f : State → α) : Outcome → Option α
  | .next t => some (f t)
  | .fault _ => none
  | .refused _ => none

theorem eq_after {o : Outcome} (h : isNext o = true) (s : State) : o = .next (after o s) := by
  cases o with
  | next t => rfl
  | fault f => cases h
  | refused r => cases h

def regions (s : State) (src srcLen dst dstCap : Word) : State :=
  (((s.setSrcBase src).setSrcLen srcLen).setDstBase dst).setDstCap dstCap

def loaded : State := State.reset.setFreq sampleFreq
def built : State := after (exec .build loaded) loaded
def coded : State := after (exec .gencode built) built
def ready : State := regions (coded.setMem (Memory.writeBytes [] 0x100 text)) 0x100 10 0x200 0x40
def packed : State := after (exec .pack ready) ready
def toUnpack : State := regions packed 0x200 3 0x300 0x40
def toSerialize : State := regions packed 0x200 3 0x400 0x80
def written : State := after (exec .serialize toSerialize) toSerialize
def toParse : State := regions written 0x400 63 0 0

/-- One symbol, "aaaa" (vector B1.2). -/
def loadedOne : State := State.reset.setFreq (noCounts.put 0x61 4)
def builtOne : State := after (exec .build loadedOne) loadedOne
def codedOne : State := after (exec .gencode builtOne) builtOne

theorem exec_loaded : exec .build loaded = .next built := eq_after (by decide +kernel) _
theorem exec_built : exec .gencode built = .next coded := eq_after (by decide +kernel) _
theorem exec_ready : exec .pack ready = .next packed := eq_after (by decide +kernel) _
theorem exec_toSerialize : exec .serialize toSerialize = .next written := eq_after (by decide +kernel) _
theorem exec_loadedOne : exec .build loadedOne = .next builtOne := eq_after (by decide +kernel) _
theorem exec_builtOne : exec .gencode builtOne = .next codedOne := eq_after (by decide +kernel) _

/-! ### The commands, at most two vectors each -/

/-- B1.1: the three internal nodes, ROOT, NODE_COUNT, LEAF_COUNT, STATUS 0x0000100A (acceptance sets LASTOP: 0 here). -/
theorem test_build : seen (fun t => ((t.node.at 4, t.node.at 5, t.node.at 6), t.root, t.nodeCount, t.leafCount,
      t.status.treeValid)) (exec .build loaded) =
    some ((⟨true, 0, 3, 3, 2⟩, ⟨true, 0, 6, 1, 4⟩, ⟨true, 0, 10, 0, 5⟩), 6, 7, 4, true) := by decide +kernel

/-- B1.E: FREQ all 0. -/
theorem test_build_empty : seen (fun t => (t.status.errCode, t.status.err, t.status.done, t.nodeCount))
    (exec .build State.reset) = some (1, true, true, 0) := by decide +kernel

/-- B2.1: a = "0", b = "10", d = "110", c = "111", MAX_CODE_LEN = 3. -/
theorem test_gencode : seen (fun t => (t.code.at 0x61, t.code.at 0x62, t.code.at 0x64, t.code.at 0x63, t.maxCodeLen))
      (exec .gencode built) =
    some ([false], [true, false], [true, true, false], [true, true, true], 3) := by decide +kernel

/-- B2.2: one leaf gets the code "0". -/
theorem test_gencode_single : seen (fun t => (t.code.at 0x61, t.maxCodeLen)) (exec .gencode builtOne) =
    some ([false], 1) := by decide +kernel

/-- B3.1: payload 0A BF C0, DST_LEN 3, PADDING 5. -/
theorem test_pack : seen (fun t => (t.mem.readBytes 0x200 3, t.dstLen, t.padding)) (exec .pack ready) =
    some (some [0x0A, 0xBF, 0xC0], 3, 5) := by decide +kernel

/-- B3.U's rule: an unknown symbol leaves DST_LEN 0 and the destination without a value, error 4. -/
theorem test_pack_unknown : seen (fun t => (t.status.errCode, t.dstLen, t.mem.read 0x200, t.mem.read 0x100))
      (exec .pack (ready.setMem (Memory.writeBytes (Memory.writeBytes [] 0x200 [0xEE]) 0x100 (text.take 9 ++ [0x7A])))) =
    some (4, 0, none, some 0x61) := by decide +kernel

/-- B4.1: the payload of B3.1 gives the text back. -/
theorem test_unpack : seen (fun t => (t.mem.readBytes 0x300 10, t.dstLen, t.padding)) (exec .unpack toUnpack) =
    some (some text, 10, 5) := by decide +kernel

/-- B4.7: payload C0 with PADDING 6 ends mid-codeword. -/
theorem test_unpack_decode : seen (fun t => (t.status.errCode, t.dstLen))
      (exec .unpack (((regions toUnpack 0x210 1 0x300 0x40).setMem (Memory.writeBytes [] 0x210 [0xC0])).setPadding 6)) =
    some (3, 0) := by decide +kernel

/-- The example of R98: 38 00 00 00, the header's first bytes, and the payload at 4 + 56. -/
theorem test_serialize : seen (fun t => (t.mem.readBytes 0x400 6, t.mem.readBytes 0x43C 3, t.dstLen, t.hdrLen,
      t.payloadOff, t.payloadLen)) (exec .serialize toSerialize) =
    some (some [0x38, 0, 0, 0, 0x7B, 0x22], some [0x0A, 0xBF, 0xC0], 63, 56, 60, 3) := by decide +kernel

/-- R98: one byte of capacity too few is CAPACITY, and no byte is written. -/
theorem test_serialize_capacity : seen (fun t => (t.status.errCode, t.dstLen, t.mem.read 0x400))
    (exec .serialize (toSerialize.setDstCap 62)) = some (6, 0, none) := by decide +kernel

/-- The example of R99: FREQ, PADDING, HDR_LEN, PAYLOAD_OFF, PAYLOAD_LEN. -/
theorem test_deserialize : seen (fun t => (freqList t.freq, t.padding, t.hdrLen, t.payloadOff, t.payloadLen))
      (exec .deserialize ((toParse.setFreq noCounts).setPadding 0)) =
    some ([(0x61, 4), (0x62, 3), (0x63, 2), (0x64, 1)], 5, 56, 60, 3) := by decide +kernel

/-- R102: 59 bytes of that container are fewer than 4 + H. -/
theorem test_deserialize_truncated : seen (fun t => (t.status.errCode, t.hdrLen, t.freq.at 0x61))
    (exec .deserialize (toParse.setSrcLen 59)) = some (2, 0, 4) := by decide +kernel

/-! ### Registers, STATUS, reset -/

/-- The readback of B1.1, records 4 and 6. -/
theorem test_node_readback : built.readReg (.nodeInfo 4) = 0x00000001 ∧ built.readReg (.nodeWlo 6) = 0x0000000A ∧
    built.readReg (.nodeKids 4) = 0x00020003 ∧ built.readReg (.nodeInfo 3) = 0x00006400 ∧
    built.readReg (.nodeInfo 7) = 0 := by decide +kernel

/-- B2.1: CODE_BITS of d and c. -/
theorem test_code_readback : coded.readReg (.codeBits 0x64 0) = 0xC0000000 ∧
    coded.readReg (.codeBits 0x63 0) = 0xE0000000 ∧ coded.readReg (.codeLen 0x64) = 3 := by decide +kernel

/-- The places of R18's map at their ends. -/
theorem test_register_map : regLoc 0x03C = .maxCodeLen ∧ regLoc 0x040 = .reserved ∧ regLoc 0x3FC = .reserved ∧
    regLoc 0x400 = .freq 0 ∧ regLoc 0x7FC = .freq 255 ∧ regLoc 0x800 = .codeLen 0 ∧ regLoc 0xBFC = .codeLen 255 ∧
    regLoc 0xC00 = .reserved ∧ regLoc 0x1000 = .codeBits 0 0 ∧ regLoc 0x2FFC = .codeBits 255 7 ∧
    regLoc 0x3000 = .nodeInfo 0 ∧ regLoc 0x4FEC = .nodeKids 510 ∧ regLoc 0x4FF0 = .reserved ∧
    regLoc 0x7FFC = .reserved := by decide +kernel

/-- The STATUS word of 95_test_vectors.md section 0: 0x0000301A. -/
theorem test_status_word : Status.word ⟨false, true, false, true, true, false, 0, 3⟩ = 0x0000301A := by decide

/-! ### The hypotheses of the statements, met -/

def idle (ms : List Move) : State := State.reset.setInbox ms

def pending (s : State) (i : Instr) (ms : List Move) : State := (HostLaws.started s i).setInbox ms

theorem inv_reset : State.reset.Inv := by
  refine ⟨by decide, rfl, rfl, ?_, InvLaws.tree_invalid rfl rfl rfl rfl, InvLaws.codes_invalid rfl rfl rfl⟩
  constructor <;> simp [State.reset, Status.reset]

theorem inv_built : built.Inv := by
  rcases execBuild_cases (show execBuild loaded = .next built from exec_loaded) with ⟨h, _⟩ | ⟨hne, h⟩
  · exact absurd h (by decide +kernel)
  · rw [h]
    exact ⟨by decide, rfl, rfl, InvLaws.legal_complete _ _,
      InvLaws.tree_congr (InvLaws.storeTree_current loaded.invalidateTree hne) rfl rfl rfl rfl rfl rfl,
      InvLaws.codes_invalid rfl rfl rfl⟩

theorem inv_builtOne : builtOne.Inv := by
  rcases execBuild_cases (show execBuild loadedOne = .next builtOne from exec_loadedOne) with ⟨h, _⟩ | ⟨hne, h⟩
  · exact absurd h (by decide +kernel)
  · rw [h]
    exact ⟨by decide, rfl, rfl, InvLaws.legal_complete _ _,
      InvLaws.tree_congr (InvLaws.storeTree_current loadedOne.invalidateTree hne) rfl rfl rfl rfl rfl rfl,
      InvLaws.codes_invalid rfl rfl rfl⟩

theorem built_valid : built.status.treeValid = true := by decide +kernel

theorem inv_coded : coded.Inv := by
  obtain ⟨h1, h2, h3, h4, h5, h6⟩ := inv_built
  rcases execGencode_cases (show execGencode built = .next coded from exec_built) with ⟨h, _⟩ | ⟨hv, h⟩
  · rw [built_valid] at h; cases h
  · rw [h]
    refine ⟨h1, h2, h3, InvLaws.legal_complete _ _, InvLaws.tree_congr h5 rfl rfl rfl rfl rfl rfl, ?_⟩
    constructor
    · intro _; exact hv
    · intro _; simp
    · intro _; simp
    · intro h; simp at h

theorem inv_ready : ready.Inv := by
  obtain ⟨h1, -, -, h4, h5, h6⟩ := inv_coded
  exact ⟨h1, by decide +kernel, by decide +kernel, h4, InvLaws.tree_congr h5 rfl rfl rfl rfl rfl rfl,
    InvLaws.codes_congr h6 rfl rfl rfl rfl rfl rfl⟩

theorem inv_pending (i : Instr) : (pending ready i []).Inv := by
  obtain ⟨h1, h2, h3, -, h5, h6⟩ := inv_ready
  refine ⟨h1, h2, h3, ?_, InvLaws.tree_congr h5 rfl rfl rfl rfl rfl rfl, InvLaws.codes_congr h6 rfl rfl rfl rfl rfl rfl⟩
  refine ⟨fun _ => ⟨rfl, rfl, rfl⟩, by simp [pending, HostLaws.started, Status.start, Status.accept],
    by simp [pending, HostLaws.started, Status.start, Status.accept], fun _ => ⟨i, ?_⟩⟩
  cases i <;> rfl

theorem prefixFree_ready : prefixFree ready.code := by
  obtain ⟨hs, -, h3, -, hr⟩ := inv_coded.tree.shaped (by decide +kernel)
  show prefixFree coded.code
  rw [inv_coded.codes.table (by decide +kernel), hr]
  exact PathLaws.codeTable_prefixFree hs (by decide +kernel) h3

/-- DecodeInvertsEncode: a well-formed instruction, and a word that decodes to it. -/
theorem test_met_DecodeInvertsEncode : Instr.deserialize.wellFormed = true ∧ decode 0x00000006#32 = .ok .deserialize :=
  ⟨rfl, rfl⟩

/-- OpcodeMapDecodes: the reserved opcodes at both ends. -/
theorem test_met_OpcodeMapDecodes : 7 ≤ (7#4).toNat ∧ 7 ≤ (15#4).toNat := by decide

/-- StepRunsThePendingCommand: a pending command with each inbox, and an idle block with each. -/
theorem test_met_StepRunsThePendingCommand :
    ((pending State.reset .pack []).status.busy = true ∧
      ofOpcode (pending State.reset .pack []).status.lastOp = some .pack ∧ (pending State.reset .pack []).inbox = [] ∧
      (pending State.reset .pack [.engine]).inbox = .engine :: []) ∧
    ((idle []).status.busy = false ∧ (idle []).inbox = [] ∧ (idle [.engine]).inbox = .engine :: []) :=
  ⟨⟨rfl, rfl, rfl, rfl⟩, rfl, rfl, rfl⟩

/-- AcceptedWordRunsItsCommand. -/
theorem test_met_AcceptedWordRunsItsCommand : ∃ (s : State) (v : Word) (i : Instr) (ms : List Move),
    s.status.busy = false ∧ decode v = .ok i ∧ s.inbox = .host (.regWrite 32 0x004 v) :: .engine :: ms :=
  ⟨idle [.host (.regWrite 32 0x004 1#32), .engine], 1#32, .build, [], rfl, rfl, rfl⟩

/-- FetchWordRunsItsCommand: both inboxes. -/
theorem test_met_FetchWordRunsItsCommand : (idle []).inbox = [] ∧ (idle [.engine]).inbox = .engine :: [] := ⟨rfl, rfl⟩

/-- CommandWriteIsAccepted: a legal word, the illegal words at the ends of each field, and BUSY either way. -/
theorem test_met_CommandWriteIsAccepted : (∀ v ∈ [1#32, 6#32, 0#32, 7#32, 0x11#32, 0x80000001#32],
      (idle [.host (.regWrite 32 0x004 v)]).inbox = .host (.regWrite 32 0x004 v) :: []) ∧
    (idle []).status.busy = false ∧
    (pending State.reset .build [.host (.regWrite 32 0x004 1#32)]).inbox = .host (.regWrite 32 0x004 1#32) :: [] ∧
    (pending State.reset .build []).status.busy = true := ⟨fun _ _ => rfl, rfl, rfl, rfl⟩

/-- IllegalRegisterAccessFaults: each reason at its boundary, read and written. -/
theorem test_met_IllegalRegisterAccessFaults :
    ((31 ≠ 32 ∨ 0 % 4 ≠ 0 ∨ 0x8000 ≤ 0) ∧ (32 ≠ 32 ∨ 0x7FFF % 4 ≠ 0 ∨ 0x8000 ≤ 0x7FFF) ∧
      (32 ≠ 32 ∨ 0x8000 % 4 ≠ 0 ∨ 0x8000 ≤ 0x8000)) ∧
    (idle [.host (.regRead 32 0x8000)]).inbox = .host (.regRead 32 0x8000) :: [] ∧
    (idle [.host (.regWrite 16 4 1)]).inbox = .host (.regWrite 16 4 1) :: [] :=
  ⟨by decide, rfl, rfl⟩

/-- RegisterReadReturnsTheMappedWord: the ends of each clause's range are legal offsets of that clause. -/
theorem test_met_RegisterReadReturnsTheMappedWord :
    (∀ o ∈ [0x000, 0x03C, 0x040, 0x3FC, 0x400, 0x7FC, 0x800, 0xBFC, 0xC00, 0xFFC, 0x1000, 0x2FFC, 0x3000, 0x4FEC, 0x4FF0,
      0x7FFC], o % 4 = 0 ∧ o < 0x8000) ∧
    0x7FC = 0x400 + 4 * (255#8).toNat ∧ 0xBFC = 0x800 + 4 * (255#8).toNat ∧
    0x2FFC = 0x1000 + 32 * (255#8).toNat + 4 * 7 ∧ 0x4FEC = 0x300C + 16 * 510 ∧
    (idle [.host (.regRead 32 0x7FFC)]).inbox = .host (.regRead 32 0x7FFC) :: [] :=
  ⟨by decide, rfl, rfl, rfl, rfl, rfl⟩

/-- NodeReadbackWords: the last record of B1.1 can be read, the one behind it cannot. -/
theorem test_met_NodeReadbackWords : built.status.treeValid = true ∧ 6 < built.nodeCount.toNat ∧
    ¬ (built.status.treeValid = true ∧ 7 < built.nodeCount.toNat) := by decide +kernel

/-- CodeReadbackBits: the code of d, at both ends of its words. -/
theorem test_met_CodeReadbackBits : (coded.code.at 0x64).length ≤ 255 ∧ 0 < 256 ∧ 255 < 256 := by decide +kernel

/-- RegisterWriteWhileIdle: an ignored offset at each end of the last clause's ranges. -/
theorem test_met_RegisterWriteWhileIdle :
    (∀ o ∈ [0x00C, 0x010, 0x014, 0x018, 0x020, 0x000, 0x3FC, 0x800, 0x7FFC], o % 4 = 0 ∧ o < 0x8000) ∧
    (∀ o ∈ [0x000, 0x3FC, 0x800, 0x7FFC], o ≠ 0x004 ∧ o ≠ 0x00C ∧ o ≠ 0x010 ∧ o ≠ 0x014 ∧ o ≠ 0x018 ∧ o ≠ 0x020 ∧
      (o < 0x400 ∨ 0x800 ≤ o)) ∧
    (idle []).status.busy = false ∧ (idle [.host (.regWrite 32 0x020 9)]).inbox = .host (.regWrite 32 0x020 9) :: [] :=
  ⟨by decide, by decide, rfl, rfl⟩

/-- RegisterWriteWhileBusy: CMD and another register. -/
theorem test_met_RegisterWriteWhileBusy : (pending State.reset .build []).status.busy = true ∧
    (pending State.reset .build [.host (.regWrite 32 0x004 2)]).inbox = .host (.regWrite 32 0x004 2) :: [] ∧
    (pending State.reset .build [.host (.regWrite 32 0x400 2)]).inbox = .host (.regWrite 32 0x400 2) :: [] :=
  ⟨rfl, rfl, rfl⟩

/-- FreqWriteInvalidates: the first and the last symbol. -/
theorem test_met_FreqWriteInvalidates : (idle []).status.busy = false ∧
    (idle [.host (.regWrite 32 (0x400 + 4 * (0#8).toNat) 1)]).inbox = .host (.regWrite 32 0x400 1) :: [] ∧
    (idle [.host (.regWrite 32 (0x400 + 4 * (255#8).toNat) 1)]).inbox = .host (.regWrite 32 0x7FC 1) :: [] :=
  ⟨rfl, rfl, rfl⟩

/-- DmemAccessOutcomes: at DMEM_SIZE; the first and last byte of an active region and the byte behind it. -/
theorem test_met_DmemAccessOutcomes :
    (idle [.host (.dmemRead 65536)]).cfg.dmemSize ≤ 65536 ∧
    (let s := pending ready .deserialize [.host (.dmemRead 0x109)]
     0x109 < s.cfg.dmemSize ∧ s.status.busy = true ∧ s.status.lastOp = 6#4 ∧ s.srcBase.toNat ≤ 0x100 ∧
       s.srcBase.toNat ≤ 0x109 ∧ 0x109 < s.srcBase.toNat + s.srcLen.toNat ∧
       ¬ 0x10A < s.srcBase.toNat + s.srcLen.toNat) ∧
    (let s := pending ready .pack [.host (.dmemWrite 0x23F 1)]
     s.status.busy = true ∧ s.status.lastOp = 3#4 ∧ s.dstBase.toNat ≤ 0x23F ∧
       0x23F < s.dstBase.toNat + s.dstCap.toNat ∧ ¬ 0x240 < s.dstBase.toNat + s.dstCap.toNat ∧
       s.inbox = .host (.dmemWrite 0x23F 1) :: []) := by decide +kernel

/-- ResetInputAbortsAndKeepsMemory: idle, and with a PACK to abort. -/
theorem test_met_ResetInputAbortsAndKeepsMemory : (idle [.host .reset]).inbox = .host .reset :: [] ∧
    (pending ready .pack [.host .reset]).inbox = .host .reset :: [] ∧
    (pending ready .pack [.host .reset]).status.busy = true ∧
    (pending ready .pack [.host .reset]).status.lastOp = 3#4 := ⟨rfl, rfl, rfl, rfl⟩

/-- StepKeepsInvariants: a safe state with a command pending, and its step. -/
theorem test_met_StepKeepsInvariants : ∃ s t : State, s.Inv ∧ step s = .next t :=
  ⟨pending ready .pack [], _, inv_pending .pack,
    eq_after (o := step (pending ready .pack [])) (by decide +kernel) State.reset⟩

/-- CompletionStatus, CommandsKeepOperandRegisters and the frames: every command answers a next state somewhere. -/
theorem test_met_commands_answer : ∀ i : Instr, ∃ s t : State, exec i s = .next t := by
  intro i
  cases i with
  | build => exact ⟨_, _, exec_loaded⟩
  | gencode => exact ⟨_, _, exec_built⟩
  | pack => exact ⟨_, _, exec_ready⟩
  | unpack => exact ⟨toUnpack, _, eq_after (by decide +kernel) toUnpack⟩
  | serialize => exact ⟨_, _, exec_toSerialize⟩
  | deserialize => exact ⟨toParse, _, eq_after (by decide +kernel) toParse⟩

/-- PendingCommandCompletes. -/
theorem test_met_PendingCommandCompletes : (pending ready .pack []).Inv ∧ (pending ready .pack []).status.busy = true ∧
    (pending ready .pack []).inbox = [] := ⟨inv_pending .pack, rfl, rfl⟩

/-- CommandReadOfUnwrittenByte: a source nothing has written, with each command's right-hand side met. -/
theorem test_met_CommandReadOfUnwrittenByte :
    (let s := regions coded 0x500 4 0x600 0x80
     s.source = none ∧ s.status.codesValid = true ∧ s.regionsOk = true ∧ s.srcLen.toNat ≠ 0 ∧
       s.padding.toNat ≤ 8 * s.srcLen.toNat ∧ freqList s.freq ≠ [] ∧
       4 + (headerText (freqList s.freq) s.padding).length + s.srcLen.toNat ≤ s.dstCap.toNat ∧ s.srcOk = true ∧
       4 ≤ s.srcLen.toNat) := by decide +kernel

/-- BuildCompletes; the leaf and node clauses at their ends. -/
theorem test_met_BuildCompletes : freqList loaded.freq ≠ [] ∧ (freqList loaded.freq).length = 4 ∧ 3 < 4 ∧
    6 < 2 * 4 - 1 ∧ 2 * 4 - 1 ≤ 7 := by decide +kernel

/-- BuildOfEmptyTableFails. -/
theorem test_met_BuildOfEmptyTableFails : ∀ x, State.reset.freq.at x = 0 := TableLaws.at_noCounts

/-- BuildMergesTheTwoSmallest, WeightsAreExact, BuiltArenaIsATree: the first and the last internal node of B1.1. -/
theorem test_met_BuildMergesTheTwoSmallest : exec .build loaded = .next built ∧ built.status.treeValid = true ∧
    built.leafCount.toNat ≤ 4 ∧ 6 < built.nodeCount.toNat :=
  ⟨exec_loaded, by decide +kernel, by decide +kernel, by decide +kernel⟩

/-- BuildOfOneSymbol. -/
theorem test_met_BuildOfOneSymbol : (4 : Word) ≠ 0 ∧ ∀ y, loadedOne.freq.at y = if y = 0x61 then 4 else 0 := by
  refine ⟨by decide, fun y => ?_⟩
  show (noCounts.put 0x61 4).at y = _
  rw [TableLaws.at_put, TableLaws.at_noCounts]
  by_cases h : y = 0x61
  · simp [h]
  · rw [if_neg h, if_neg (Ne.symm h)]

/-- BuildDependsOnFreqAlone: two states that differ elsewhere. -/
theorem test_met_BuildDependsOnFreqAlone : ∃ s s' t t' : State, s ≠ s' ∧ s.freq = s'.freq ∧ exec .build s = .next t ∧
    exec .build s' = .next t' :=
  ⟨loaded, built, _, _, fun h => by have := congrArg State.nodeCount h; revert this; decide +kernel, by decide +kernel,
    exec_loaded, eq_after (o := exec .build built) (by decide +kernel) built⟩

/-- GencodeCompletes. -/
theorem test_met_GencodeCompletes : built.status.treeValid = true := built_valid

/-- GencodeWithoutTreeFails. -/
theorem test_met_GencodeWithoutTreeFails : State.reset.status.treeValid = false := rfl

/-- CodewordsAreRootToLeafPaths, CodewordLengths, GeneratedCodesArePrefixFree, GeneratedCodesAreComplete: four leaves. -/
theorem test_met_CodewordsAreRootToLeafPaths : built.Inv ∧ exec .gencode built = .next coded ∧
    built.status.treeValid = true ∧ coded.status.codesValid = true ∧ 2 ≤ built.leafCount.toNat :=
  ⟨inv_built, exec_built, built_valid, by decide +kernel, by decide +kernel⟩

/-- CodewordLengths and GeneratedCodesAreComplete: one leaf, and a bit string that holds a 1. -/
theorem test_met_GeneratedCodesAreComplete_one : builtOne.Inv ∧ exec .gencode builtOne = .next codedOne ∧
    builtOne.status.treeValid = true ∧ codedOne.status.codesValid = true ∧ builtOne.leafCount.toNat = 1 ∧
    true ∈ [false, true] :=
  ⟨inv_builtOne, exec_builtOne, by decide +kernel, by decide +kernel, by decide +kernel, by decide⟩

/-- CodewordLengths: a path to a leaf and its depth. -/
theorem test_met_CodewordLengths_path : follow built.node built.root.toNat [true, true, false] = some 3 ∧
    (built.node.at 3).tag = false := by decide +kernel

/-- GeneratedCodesArePrefixFree: a safe state with valid codes. -/
theorem test_met_GeneratedCodesArePrefixFree : coded.Inv ∧ coded.status.codesValid = true :=
  ⟨inv_coded, by decide +kernel⟩

/-- SingleLeafGetsTheCodewordZero. -/
theorem test_met_SingleLeafGetsTheCodewordZero : builtOne.status.treeValid = true ∧
    (builtOne.node.at builtOne.root.toNat).tag = false := by decide +kernel

/-- The codeword stream of "aaaabbbccd" (vector B3.1). -/
def stream : Bits := [false, false, false, false, true, false, true, false, true, false, true, true, true, true, true, true,
  true, true, false]

/-- PackCompletes, with the capacity just enough, and one byte short for PackErrors' CAPACITY. -/
theorem test_met_PackCompletes :
    (let s := ready.setDstCap 3
     s.status.codesValid = true ∧ s.regionsOk = true ∧ s.source = some text ∧ text ≠ [] ∧
       codewordStream s.code text = some stream ∧ (stream.length + 7) / 8 ≤ s.dstCap.toNat ∧
       (ready.setDstCap 2).dstCap.toNat < (stream.length + 7) / 8) := by decide +kernel

/-- PackErrors: the condition of each clause. -/
theorem test_met_PackErrors : built.status.codesValid = false ∧
    (let s := ready.setSrcBase 0xFFFFFFFF; s.status.codesValid = true ∧ s.regionsOk = false) ∧
    (let s := ready.setSrcLen 0; s.status.codesValid = true ∧ s.regionsOk = true ∧ s.srcLen = 0) ∧
    (let s := ready.setMem (Memory.writeBytes [] 0x100 (text.take 9 ++ [0x7A]))
     s.status.codesValid = true ∧ s.regionsOk = true ∧ s.source = some (text.take 9 ++ [0x7A]) ∧
       text.take 9 ++ [0x7A] ≠ [] ∧ ∃ x ∈ text.take 9 ++ [0x7A], s.code.at x = []) := by decide +kernel

/-- PayloadOfStream: a covered symbol, and the last bit of the last byte. -/
theorem test_met_PayloadOfStream : (∀ x ∈ text, coded.code.at x ≠ []) ∧ 2 < (payloadOf stream).length ∧ 7 < 8 := by
  decide +kernel

/-- PackedSizes. -/
theorem test_met_PackedSizes : ready.Inv ∧ ready.source = some text ∧ exec .pack ready = .next packed ∧
    packed.status.err = false := ⟨inv_ready, by decide +kernel, exec_ready, by decide +kernel⟩

theorem toUnpack_stream : toUnpack.status.codesValid = true ∧ toUnpack.regionsOk = true ∧
    toUnpack.padding.toNat ≤ 8 * toUnpack.srcLen.toNat ∧ toUnpack.source = some [0x0A, 0xBF, 0xC0] ∧
    codewordStream toUnpack.code text =
      some ((bitsOfBytes [0x0A, 0xBF, 0xC0]).take (8 * toUnpack.srcLen.toNat - toUnpack.padding.toNat)) := by
  decide +kernel

theorem prefixFree_toUnpack : prefixFree toUnpack.code := by
  have h : toUnpack.code = ready.code := by decide +kernel
  rw [h]; exact prefixFree_ready

/-- UnpackCompletes, with the capacity just enough; UnpackErrors' CAPACITY, one byte short. -/
theorem test_met_UnpackCompletes :
    (let s := toUnpack.setDstCap 10
     s.status.codesValid = true ∧ s.regionsOk = true ∧ s.padding.toNat ≤ 8 * s.srcLen.toNat ∧
       s.source = some [0x0A, 0xBF, 0xC0] ∧ prefixFree s.code ∧
       codewordStream s.code text =
         some ((bitsOfBytes [0x0A, 0xBF, 0xC0]).take (8 * s.srcLen.toNat - s.padding.toNat)) ∧
       text.length ≤ s.dstCap.toNat ∧ (toUnpack.setDstCap 9).dstCap.toNat < text.length) :=
  ⟨by decide +kernel, by decide +kernel, by decide +kernel, by decide +kernel, prefixFree_toUnpack,
    toUnpack_stream.2.2.2.2, by decide +kernel, by decide +kernel⟩

/-- UnpackErrors: the condition of each clause before the walk. -/
theorem test_met_UnpackErrors : built.status.codesValid = false ∧
    (let s := toUnpack.setSrcBase 0xFFFFFFFF; s.status.codesValid = true ∧ s.regionsOk = false) ∧
    (let s := (toUnpack.setSrcLen 0).setPadding 1
     s.status.codesValid = true ∧ s.regionsOk = true ∧ 8 * s.srcLen.toNat < s.padding.toNat) := by decide +kernel

/-- UnpackErrors, the walk's DECODE: the bits "11" (vector B4.7) are the codewords of no symbols. -/
theorem test_met_UnpackErrors_decode :
    (let s := ((regions toUnpack 0x210 1 0x300 0x40).setMem (Memory.writeBytes [] 0x210 [0xC0])).setPadding 6
     s.status.codesValid = true ∧ s.regionsOk = true ∧ s.padding.toNat ≤ 8 * s.srcLen.toNat ∧ s.source = some [0xC0] ∧
       prefixFree s.code ∧
       ∀ out, codewordStream s.code out ≠ some ((bitsOfBytes [0xC0]).take (8 * s.srcLen.toNat - s.padding.toNat))) := by
  refine ⟨by decide +kernel, by decide +kernel, by decide +kernel, by decide +kernel, prefixFree_toUnpack, ?_⟩
  intro out h
  have hd := BitLaws.decodeBits_complete toUnpack.code prefixFree_toUnpack [true, true] [] out h (.inl rfl)
  have hn : decodeBits toUnpack.code [] [true, true] = none := by decide +kernel
  rw [hn] at hd; cases hd

/-- UnpackRestoresWhatPackPacked. -/
theorem test_met_UnpackRestoresWhatPackPacked : prefixFree ready.code ∧ ready.source = some text ∧
    exec .pack ready = .next packed ∧ packed.status.err = false ∧ toUnpack.status.codesValid = true ∧
    toUnpack.code = packed.code ∧ toUnpack.padding = packed.padding ∧ toUnpack.cfg = packed.cfg ∧
    toUnpack.mem = packed.mem ∧ toUnpack.srcBase = packed.dstBase ∧ toUnpack.srcLen = packed.dstLen ∧
    toUnpack.regionsOk = true ∧ text.length ≤ toUnpack.dstCap.toNat :=
  ⟨prefixFree_ready, by decide +kernel, exec_ready, by decide +kernel, by decide +kernel, rfl, rfl, rfl, rfl,
    by decide +kernel, by decide +kernel, by decide +kernel, by decide +kernel⟩

/-- SerializeCompletes, with the capacity just enough. -/
theorem test_met_SerializeCompletes :
    (let s := toSerialize.setDstCap 63
     s.regionsOk = true ∧ freqList s.freq ≠ [] ∧ s.source = some [0x0A, 0xBF, 0xC0] ∧
       4 + (headerText (freqList s.freq) s.padding).length + 3 ≤ s.dstCap.toNat) := by decide +kernel

/-- SerializeErrors: the condition of each clause. -/
theorem test_met_SerializeErrors : (toSerialize.setSrcBase 0xFFFFFFFF).regionsOk = false ∧
    State.reset.regionsOk = true ∧ (∀ x, State.reset.freq.at x = 0) ∧
    (let s := toSerialize.setDstCap 62
     s.regionsOk = true ∧ freqList s.freq ≠ [] ∧
       s.dstCap.toNat < 4 + (headerText (freqList s.freq) s.padding).length + s.srcLen.toNat) :=
  ⟨by decide +kernel, by decide +kernel, TableLaws.at_noCounts, by decide +kernel⟩

/-- The container of the example of R98, as it stands in DMEM. -/
def container : List Byte := (toParse.source).getD []

/-- DeserializeCompletes. -/
theorem test_met_DeserializeCompletes : toParse.srcOk = true ∧ toParse.source = some container ∧ 4 ≤ container.length ∧
    4 + headerLength container ≤ container.length ∧
    parseHeader ((container.drop 4).take (headerLength container)) =
      some ([(0x61, 4), (0x62, 3), (0x63, 2), (0x64, 1)], 5) := by decide +kernel

/-- DeserializeErrors: the condition of each clause. -/
theorem test_met_DeserializeErrors : (toParse.setSrcBase 0xFFFFFFFF).srcOk = false ∧
    (let s := toParse.setSrcLen 3; s.srcOk = true ∧ s.srcLen.toNat < 4) ∧
    (let s := toParse.setSrcLen 59
     s.srcOk = true ∧ s.source = some (container.take 59) ∧ 4 ≤ (container.take 59).length ∧
       (container.take 59).length < 4 + headerLength (container.take 59)) ∧
    (let s := toParse.setMem (Memory.writeBytes [] 0x400 ([0, 0, 0, 0] ++ container.drop 4))
     s.srcOk = true ∧ s.source = some ([0, 0, 0, 0] ++ container.drop 4) ∧
       parseHeader ((([0, 0, 0, 0] ++ container.drop 4).drop 4).take
         (headerLength ([0, 0, 0, 0] ++ container.drop 4))) = none) := by decide +kernel

/-- ParseHeaderInvertsHeaderText: the right-hand side holds of the sample's list, and fails out of order. -/
theorem test_met_ParseHeaderInvertsHeaderText :
    ([(0x61, 4), (0x62, 3)] : List (Byte × Word)) ≠ [] ∧
    ([(0x61, 4), (0x62, 3)] : List (Byte × Word)).Pairwise (fun e f => e.1.toNat < f.1.toNat) ∧
    (∀ e ∈ ([(0x61, 4), (0x62, 3)] : List (Byte × Word)), e.2 ≠ 0) ∧
    parseHeader (headerText [(0x62, 3), (0x61, 4)] 5) = none :=
  ⟨by simp, by simp, by simp, by decide +kernel⟩

/-- HeaderTextLength: a list, a table that is not empty, and the table of 256 largest counts. -/
theorem test_met_HeaderTextLength : ([(0x61, 4)] : List (Byte × Word)) ≠ [] ∧ freqList sampleFreq ≠ [] ∧
    ∀ x, Table.at (Vector.replicate 256 0xFFFFFFFF#32 : Table Word) x = 0xFFFFFFFF#32 :=
  ⟨by decide, by decide +kernel, fun x => by simp [Table.at]⟩

/-- DeserializeRestoresWhatSerializeWrote; TruncatedContainerIsRefused with one byte of the header missing. -/
theorem test_met_DeserializeRestoresWhatSerializeWrote : exec .serialize toSerialize = .next written ∧
    written.status.err = false ∧ toParse.cfg = written.cfg ∧ toParse.mem = written.mem ∧
    toParse.srcBase = written.dstBase ∧ toParse.srcLen = written.dstLen ∧
    (toParse.setSrcLen 59).srcLen.toNat < 4 + written.hdrLen.toNat :=
  ⟨exec_toSerialize, by decide +kernel, rfl, rfl, by decide +kernel, by decide +kernel, by decide +kernel⟩

/-- AnalyzeCountsSymbols. -/
theorem test_met_AnalyzeCountsSymbols : analyze text = some sampleFreq ∧ text.length < 2 ^ 32 ∧
    State.reset.status.busy = false := by decide +kernel

/-- DecompressRestoresWhatCompressCompressed: the text at 0x100, every region just large enough. -/
theorem test_met_DecompressRestoresWhatCompressCompressed :
    (let s := State.reset.setMem (Memory.writeBytes [] 0x100 text)
     s.cfg.legal ∧ s.status.busy = false ∧ text ≠ [] ∧
       s.mem.readBytes (0x100#32).toNat (10#32).toNat = some text ∧
       (0x100#32).toNat + (10#32).toNat ≤ s.cfg.dmemSize ∧ (0x200#32).toNat + (320#32).toNat ≤ s.cfg.dmemSize ∧
       (0x1000#32).toNat + (4593#32).toNat ≤ s.cfg.dmemSize ∧ (0x4000#32).toNat + (10#32).toNat ≤ s.cfg.dmemSize ∧
       32 * (10#32).toNat ≤ (320#32).toNat ∧ 4273 + 32 * (10#32).toNat ≤ (4593#32).toNat ∧
       (10#32).toNat ≤ (10#32).toNat) ∧
    disjointRegions 0x100 10 0x200 320 ∧ disjointRegions 0x100 10 0x1000 4593 ∧ disjointRegions 0x200 320 0x1000 4593 ∧
    disjointRegions 0x1000 4593 0x4000 10 := by
  refine ⟨by decide +kernel, ?_, ?_, ?_, ?_⟩ <;> intro x <;> simp <;> omega

end Sys2Proof.Tests
end

section
/-! PROOFS. The state of the block: how a command that answers can end, what keeps the invariants, and the readback
words of STATUS, the arena and the codes (10_state.md). -/

namespace Sys2Proof.Machine

/-! ### How a command ends -/

/-- What a command has invalidated before it can raise an error: the first line of BUILD and of GENCODE (R75, R84). -/
def State.beforeError (s : State) : Instr → State
  | .build => s.invalidateTree
  | .gencode => s.invalidateCodes
  | _ => s

/-- The states a command that answers can end in: with one of its errors, or with NONE and what it stores. The premises
on success are the checks the command has made. -/
inductive Ends (s : State) : Instr → State → Prop
  | error (i : Instr) (e : Err) : Ends s i ((s.beforeError i).afterError i e)
  | build (hne : freqList s.freq ≠ []) : Ends s .build ((s.invalidateTree.storeTree (freqList s.freq)).complete none)
  | gencode (hv : s.status.treeValid = true) :
      Ends s .gencode ((s.invalidateCodes.storeCodes (codeTable s.node s.root.toNat)).complete none)
  | pack (b : Bits) (hok : s.regionsOk = true) (hlen : (payloadOf b).length ≤ s.dstCap.toNat) :
      Ends s .pack ((s.storePayload b).complete none)
  | unpack (out : List Byte) (hok : s.regionsOk = true) (hlen : out.length ≤ s.dstCap.toNat) :
      Ends s .unpack ((s.storeSymbols out).complete none)
  | serialize (hdr pay : List Byte) (hok : s.regionsOk = true)
      (hlen : (containerOf hdr pay).length ≤ s.dstCap.toNat) :
      Ends s .serialize ((s.storeContainer hdr pay).complete none)
  | deserialize (l : List (Byte × Word)) (p : BitVec 3) (hdr total : Nat) :
      Ends s .deserialize ((s.loadArtifact l p hdr total).complete none)

theorem containerOf_length (hdr pay : List Byte) : (containerOf hdr pay).length = 4 + hdr.length + pay.length := by
  simp [containerOf, le32]; omega

/-- A source that could be read has SRC_LEN bytes (R42). -/
theorem source_length {s : State} {v : List Byte} (h : s.source = some v) : v.length = s.srcLen.toNat :=
  MemoryLaws.readBytes_length _ _ _ _ h

/-- Every command that answers ends in one of the states of `Ends`. -/
theorem exec_ends {i : Instr} {s t : State} (h : exec i s = .next t) : Ends s i t := by
  cases i with
  | build =>
    obtain ⟨-, rfl⟩ | ⟨hne, rfl⟩ := execBuild_cases h
    · exact .error .build .emptyInput
    · exact .build hne
  | gencode =>
    obtain ⟨-, rfl⟩ | ⟨hv, rfl⟩ := execGencode_cases h
    · exact .error .gencode .notReady
    · exact .gencode hv
  | pack =>
    obtain ⟨-, rfl⟩ | ⟨-, -, rfl⟩ | ⟨-, -, -, rfl⟩ |
      ⟨src, -, hok, -, -, ⟨-, rfl⟩ | ⟨b, -, ⟨-, rfl⟩ | ⟨hlen, rfl⟩⟩⟩ := execPack_cases h
    · exact .error .pack .notReady
    · exact .error .pack .range
    · exact .error .pack .emptyInput
    · exact .error .pack .unknownSymbol
    · exact .error .pack .capacity
    · exact .pack b hok hlen
  | unpack =>
    obtain ⟨-, rfl⟩ | ⟨-, -, rfl⟩ | ⟨-, -, -, rfl⟩ |
      ⟨pay, -, hok, -, -, ⟨-, rfl⟩ | ⟨out, -, ⟨-, rfl⟩ | ⟨hlen, rfl⟩⟩⟩ := execUnpack_cases h
    · exact .error .unpack .notReady
    · exact .error .unpack .range
    · exact .error .unpack .decode
    · exact .error .unpack .decode
    · exact .error .unpack .capacity
    · exact .unpack out hok hlen
  | serialize =>
    obtain ⟨-, rfl⟩ | ⟨-, -, rfl⟩ | ⟨-, -, -, rfl⟩ | ⟨pay, hok, -, hlen, hpay, rfl⟩ := execSerialize_cases h
    · exact .error .serialize .range
    · exact .error .serialize .emptyInput
    · exact .error .serialize .capacity
    · exact .serialize _ pay hok (by rw [containerOf_length, source_length hpay]; exact hlen)
  | deserialize =>
    obtain ⟨-, rfl⟩ | ⟨-, -, rfl⟩ | ⟨c, -, -, -, ⟨-, rfl⟩ | ⟨-, -, rfl⟩ | ⟨l, p, -, -, rfl⟩⟩ := execDeserialize_cases h
    · exact .error .deserialize .range
    · exact .error .deserialize .format
    · exact .error .deserialize .format
    · exact .error .deserialize .format
    · exact .deserialize l p _ _

/-- What an error leaves unchanged, whichever command raises it: all but STATUS, DST_LEN, DMEM, the container registers
and, by invalidation, the extent of the tree and the codes (R36, R118). -/
theorem error_frame (s : State) (i : Instr) (e : Err) : (s.beforeError i).afterError i e =
    let t := (s.beforeError i).afterError i e
    { s with
      status := t.status, dstLen := t.dstLen, mem := t.mem
      hdrLen := t.hdrLen, payloadOff := t.payloadOff, payloadLen := t.payloadLen
      root := t.root, nodeCount := t.nodeCount, leafCount := t.leafCount
      code := t.code, maxCodeLen := t.maxCodeLen } := by
  cases i <;> cases e <;> rfl

/-- An error writes DST_LEN only where the command has a destination (R23, R118). -/
theorem writer_of_error_dstLen_ne {s : State} {i : Instr} {e : Err}
    (h : ((s.beforeError i).afterError i e).dstLen ≠ s.dstLen) : i = .pack ∨ i = .unpack ∨ i = .serialize := by
  cases i with
  | build | gencode | deserialize => exact absurd rfl h
  | pack => exact .inl rfl
  | unpack => exact .inr (.inl rfl)
  | serialize => exact .inr (.inr rfl)

/-! ### What keeps the invariants -/

/-- The two states agree on everything `State.Inv` speaks of. -/
structure State.AgreesOnInv (s t : State) : Prop where
  cfg : t.cfg = s.cfg
  mem : t.mem = s.mem
  status : t.status = s.status
  freq : t.freq = s.freq
  node : t.node = s.node
  root : t.root = s.root
  nodeCount : t.nodeCount = s.nodeCount
  leafCount : t.leafCount = s.leafCount
  code : t.code = s.code
  maxCodeLen : t.maxCodeLen = s.maxCodeLen

/-- The invariants do not see the operand registers, the container registers, the inbox and the replies. -/
theorem State.Inv.of_agrees {s t : State} (h : s.Inv)
    (ha : s.AgreesOnInv t := by constructor <;> rfl) : t.Inv where
  config := ha.cfg ▸ h.config
  mem_wf := ha.mem ▸ h.mem_wf
  mem_below := by rw [ha.mem, ha.cfg]; exact h.mem_below
  status := ha.status ▸ h.status
  tree := InvLaws.tree_congr h.tree (by rw [ha.status]) ha.freq ha.leafCount ha.nodeCount ha.root ha.node
  codes := InvLaws.codes_congr h.codes (by rw [ha.status]) (by rw [ha.status]) ha.code ha.maxCodeLen ha.root ha.node

/-- Another STATUS that is legal and has the same valid bits keeps the invariants. -/
theorem State.Inv.setStatus {s : State} (h : s.Inv) {st : Status} (hl : st.Legal)
    (ht : st.treeValid = s.status.treeValid) (hc : st.codesValid = s.status.codesValid) : (s.setStatus st).Inv where
  config := h.config
  mem_wf := h.mem_wf
  mem_below := h.mem_below
  status := hl
  tree := InvLaws.tree_congr h.tree ht rfl rfl rfl rfl rfl
  codes := InvLaws.codes_congr h.codes ht hc rfl rfl rfl rfl

/-- Another DMEM in canonical form and below the bound keeps the invariants. -/
theorem State.Inv.setMem {s : State} (h : s.Inv) {m : Memory} (hw : m.wf = true)
    (hb : m.below s.cfg.dmemSize = true) : (s.setMem m).Inv where
  config := h.config
  mem_wf := hw
  mem_below := hb
  status := h.status
  tree := InvLaws.tree_congr h.tree rfl rfl rfl rfl rfl rfl
  codes := InvLaws.codes_congr h.codes rfl rfl rfl rfl rfl rfl

theorem State.Inv.complete {s : State} (h : s.Inv) (e : Option Err) : (s.complete e).Inv :=
  h.setStatus (InvLaws.legal_complete ..) rfl rfl

theorem legal_setTreeValid {st : Status} (h : st.Legal) (b : Bool) : (st.setTreeValid b).Legal :=
  ⟨h.busy_clear, h.err_iff, h.errCode_le, h.busy_command⟩

theorem legal_setCodesValid {st : Status} (h : st.Legal) (b : Bool) : (st.setCodesValid b).Legal :=
  ⟨h.busy_clear, h.err_iff, h.errCode_le, h.busy_command⟩

/-- Invalidation restores the invariants of tree and codes whatever FREQ and the arena hold (R36). -/
theorem inv_invalidateTree {s : State} (hcfg : s.cfg.legal) (hw : s.mem.wf = true)
    (hb : s.mem.below s.cfg.dmemSize = true) (hl : s.status.Legal) : s.invalidateTree.Inv where
  config := hcfg
  mem_wf := hw
  mem_below := hb
  status := legal_setTreeValid (legal_setCodesValid hl false) false
  tree := InvLaws.tree_invalid rfl rfl rfl rfl
  codes := InvLaws.codes_invalid rfl rfl rfl

theorem State.Inv.invalidateTree {s : State} (h : s.Inv) : s.invalidateTree.Inv :=
  inv_invalidateTree h.config h.mem_wf h.mem_below h.status

/-- A new FREQ keeps the invariants when the tree is invalidated with it (R35, R36). -/
theorem State.Inv.setFreq_invalidateTree {s : State} (h : s.Inv) (f : Table Word) : (s.setFreq f).invalidateTree.Inv :=
  inv_invalidateTree h.config h.mem_wf h.mem_below h.status

theorem State.Inv.invalidateCodes {s : State} (h : s.Inv) : s.invalidateCodes.Inv where
  config := h.config
  mem_wf := h.mem_wf
  mem_below := h.mem_below
  status := legal_setCodesValid h.status false
  tree := InvLaws.tree_congr h.tree rfl rfl rfl rfl rfl rfl
  codes := InvLaws.codes_invalid rfl rfl rfl

/-- BUILD's last lines keep the invariants: the codes have been invalidated before them (R35, R75). -/
theorem State.Inv.storeTree {s : State} (h : s.Inv) (hne : freqList s.freq ≠ []) :
    (s.invalidateTree.storeTree (freqList s.freq)).Inv where
  config := h.config
  mem_wf := h.mem_wf
  mem_below := h.mem_below
  status := legal_setTreeValid h.invalidateTree.status true
  tree := InvLaws.storeTree_current s.invalidateTree hne
  codes := InvLaws.codes_invalid rfl rfl rfl

/-- GENCODE's last lines keep the invariants when the tree is valid (R35, R84). -/
theorem State.Inv.storeCodes {s : State} (h : s.Inv) (hv : s.status.treeValid = true) :
    (s.storeCodes (codeTable s.node s.root.toNat)).Inv where
  config := h.config
  mem_wf := h.mem_wf
  mem_below := h.mem_below
  status := legal_setCodesValid h.status true
  tree := InvLaws.tree_congr h.tree rfl rfl rfl rfl rfl rfl
  codes := ⟨fun _ => hv, fun _ => rfl, fun _ => rfl, fun hc => by cases hc⟩

/-- Regions that pass their check lie in DMEM (R48). -/
theorem destination_in_dmem {s : State} (hok : s.regionsOk = true) :
    s.dstBase.toNat + s.dstCap.toNat ≤ s.cfg.dmemSize := by
  simp only [State.regionsOk, State.dstOk, inRange, Bool.and_eq_true, decide_eq_true_eq] at hok
  exact hok.1.2

/-- Bytes that fit the destination keep the invariants (R42, R49). -/
theorem State.Inv.writeDestination {s : State} (h : s.Inv) (hok : s.regionsOk = true) {v : List Byte}
    (hv : v.length ≤ s.dstCap.toNat) : (s.writeDestination v).Inv :=
  have hd := destination_in_dmem hok
  h.setMem (MemoryLaws.wf_writeBytes _ _ _ h.mem_wf) (MemoryLaws.below_writeBytes _ _ _ _ (by omega) h.mem_below)

theorem State.Inv.eraseMem {s : State} (h : s.Inv) (base len : Nat) : (s.setMem (s.mem.erase base len)).Inv :=
  h.setMem (MemoryLaws.wf_erase _ _ _ h.mem_wf) (MemoryLaws.below_erase _ _ _ _ h.mem_below)

theorem State.Inv.failTransfer {s : State} (h : s.Inv) (e : Err) : (s.failTransfer e).Inv := by
  have hd : (s.setDstLen 0).Inv := h.of_agrees
  unfold State.failTransfer
  split
  · exact hd.eraseMem _ _
  · exact hd

/-- An error keeps the invariants, whichever command raises it (R118). -/
theorem State.Inv.afterError {s : State} (h : s.Inv) (i : Instr) (e : Err) : (s.afterError i e).Inv := by
  refine State.Inv.complete ?_ _
  cases i with
  | build => exact h
  | gencode => exact h
  | pack => exact h.failTransfer e
  | unpack => exact h.failTransfer e
  | serialize => exact h.of_agrees
  | deserialize => exact h.of_agrees

theorem State.Inv.beforeError {s : State} (h : s.Inv) (i : Instr) : (s.beforeError i).Inv := by
  cases i with
  | build => exact h.invalidateTree
  | gencode => exact h.invalidateCodes
  | _ => exact h

/-- Every command that answers keeps the invariants. -/
theorem exec_keeps_inv {i : Instr} {s t : State} (h : s.Inv) (he : exec i s = .next t) : t.Inv := by
  cases exec_ends he with
  | error i e => exact (h.beforeError i).afterError i e
  | build hne => exact (h.storeTree hne).complete none
  | gencode hv => exact (h.invalidateCodes.storeCodes hv).complete none
  | pack b hok hlen =>
    exact State.Inv.complete (h.writeDestination hok hlen).of_agrees none
  | unpack out hok hlen =>
    exact State.Inv.complete (h.writeDestination hok hlen).of_agrees none
  | serialize hdr pay hok hlen =>
    exact State.Inv.complete (h.writeDestination hok hlen).of_agrees none
  | deserialize l p hdr total =>
    exact State.Inv.complete (h.setFreq_invalidateTree _).of_agrees none

/-- STATUS stays legal when a legal word is accepted: the pending command is the word's (R17, R108). -/
theorem legal_accept_start (st : Status) {v : Word} {i : Instr} (hv : decode v = .ok i) :
    (st.accept (opField v)).start.Legal where
  busy_clear := fun _ => ⟨rfl, rfl, rfl⟩
  err_iff := by simp [Status.start, Status.accept]
  errCode_le := Nat.zero_le _
  busy_command := fun _ => ⟨i, (ofOpcode_eq_some _ _).2 ((decode_eq_ok v i).1 hv).2⟩

theorem State.Inv.acceptCommand {s : State} (h : s.Inv) (v : Word) : (s.acceptCommand v).Inv := by
  unfold State.acceptCommand
  split
  · exact h.setStatus (legal_accept_start s.status ‹_›) rfl rfl
  · exact h.setStatus (InvLaws.legal_complete ..) rfl rfl

theorem legal_markDrop {st : Status} (h : st.Legal) : st.markDrop.Legal :=
  ⟨h.busy_clear, h.err_iff, h.errCode_le, h.busy_command⟩

/-- Every register write keeps the invariants. -/
theorem State.Inv.regWrite {s : State} (h : s.Inv) (l : RegLoc) (v : Word) : (s.regWrite l v).Inv := by
  obtain ⟨-, -, hw⟩ | hw | ⟨-, hw | hw | hw | hw | hw | hw | ⟨x, hw⟩⟩ := regWrite_cases s l v <;> rw [hw]
  · exact h.setStatus (legal_markDrop h.status) rfl rfl
  · exact h
  · exact h.acceptCommand v
  · exact h.of_agrees
  · exact h.of_agrees
  · exact h.of_agrees
  · exact h.of_agrees
  · exact h.of_agrees
  · exact h.setFreq_invalidateTree _

theorem legal_reset : Status.reset.Legal := by
  constructor <;> simp [Status.reset]

/-- The reset registers and tables meet the invariants with every parameter and every DMEM that do (R39, R127). -/
theorem inv_reset_with {c : Config} {m : Memory} (hc : c.legal) (hw : m.wf = true) (hb : m.below c.dmemSize = true)
    (ms : List Move) (rs : List Reply) :
    ({ State.reset with cfg := c, mem := m, inbox := ms, replies := rs } : State).Inv where
  config := hc
  mem_wf := hw
  mem_below := hb
  status := legal_reset
  tree := InvLaws.tree_invalid rfl rfl rfl rfl
  codes := InvLaws.codes_invalid rfl rfl rfl

theorem State.Inv.applyReset {s : State} (h : s.Inv) : s.applyReset.Inv := by
  unfold State.applyReset
  split
  · exact inv_reset_with h.config (h.eraseMem _ _).mem_wf (h.eraseMem _ _).mem_below _ _
  · exact inv_reset_with h.config h.mem_wf h.mem_below _ _

/-- Every host access that answers keeps the invariants. -/
theorem hostAccess_keeps_inv {a : HostAccess} {s t : State} (h : s.Inv) (ha : hostAccess a s = .next t) : t.Inv := by
  obtain ⟨r, rfl⟩ | ⟨l, v, rfl⟩ | ⟨a, b, hlt, rfl⟩ | rfl := hostAccess_cases ha
  · exact h.of_agrees
  · exact h.regWrite l v
  · exact h.setMem (MemoryLaws.wf_write _ _ _ h.mem_wf) (MemoryLaws.below_write _ _ _ _ hlt h.mem_below)
  · exact h.applyReset

/-- The engine's turn keeps the invariants. -/
theorem engineTurn_keeps_inv {s t : State} (h : s.Inv) (he : engineTurn s = .next t) : t.Inv := by
  obtain ⟨-, rfl⟩ | ⟨i, -, -, hi⟩ := engineTurn_cases he
  · exact h
  · exact exec_keeps_inv h hi

theorem State.Inv.setInbox {s : State} (h : s.Inv) (ms : List Move) : (s.setInbox ms).Inv :=
  h.of_agrees

/-- Settles O19: each of the two agents' moves keeps the invariants, and taking a move off the inbox does. -/
theorem stepKeepsInvariants : Obligations.StepKeepsInvariants := by
  intro s t h hs
  obtain ⟨a, ms, -, ha⟩ | ⟨-, he⟩ | ⟨ms, -, he⟩ := step_cases hs
  · exact hostAccess_keeps_inv (h.setInbox ms) ha
  · exact engineTurn_keeps_inv h he
  · exact engineTurn_keeps_inv (h.setInbox ms) he

/-- Settles O18: the registers are the reset ones, DMEM is empty, the parameter is that of log entry 1. -/
theorem invariantsHoldAtReset : Obligations.InvariantsHoldAtReset :=
  inv_reset_with (by decide) rfl rfl [] []

/-- Settles O22, by the ways a command can end: an error writes none of PADDING, FREQ and the arena, and each success
only what is its own. -/
theorem commandsKeepOperandRegisters : Obligations.CommandsKeepOperandRegisters := by
  intro i s t h
  cases exec_ends h with
  | error i e =>
    have hf := error_frame s i e
    exact ⟨by rw [hf], by rw [hf], by rw [hf], by rw [hf], by rw [hf], by rw [hf], by rw [hf],
      fun hne => absurd (by rw [hf]) hne, writer_of_error_dstLen_ne,
      fun hne => absurd (by rw [hf]) hne, fun hne => absurd (by rw [hf]) hne⟩
  | build | gencode | pack | unpack | serialize | deserialize =>
    simp

/-! ### Readback words -/

/-- A field of a word from its number. -/
theorem extractLsb'_of_div {w k n : Nat} (v : BitVec w) (x : BitVec n) (h : v.toNat / 2 ^ k % 2 ^ n = x.toNat) :
    v.extractLsb' k n = x :=
  BitVec.eq_of_toNat_eq (by rw [BitVec.extractLsb'_toNat, Nat.shiftRight_eq_div_pow, h])

/-- Settles O9, from the STATUS word as a number. -/
theorem statusWordLaysOutItsFields : Obligations.StatusWordLaysOutItsFields := by
  intro st
  have hw := RegLaws.statusWord_toNat st
  have hbusy := st.busy.toNat_le
  have hdone := st.done.toNat_le
  have herr := st.err.toNat_le
  have htree := st.treeValid.toNat_le
  have hcodes := st.codesValid.toNat_le
  have hdrop := st.drop.toNat_le
  have hcode := st.errCode.isLt
  have hop := st.lastOp.isLt
  exact ⟨RegLaws.getLsbD_of_div _ _ _ (by omega), RegLaws.getLsbD_of_div _ _ _ (by omega),
    RegLaws.getLsbD_of_div _ _ _ (by omega), RegLaws.getLsbD_of_div _ _ _ (by omega),
    RegLaws.getLsbD_of_div _ _ _ (by omega), RegLaws.getLsbD_of_div _ _ _ (by omega),
    extractLsb'_of_div _ _ (by simp only [BitVec.toNat_ofNat]; omega), extractLsb'_of_div _ _ (by omega),
    extractLsb'_of_div _ _ (by omega), extractLsb'_of_div _ _ (by simp only [BitVec.toNat_ofNat]; omega)⟩

/-- A record's words are gated by TREE_VALID and NODE_COUNT alone (R32). -/
theorem readable_iff (s : State) (i : Nat) :
    s.readable i = true ↔ s.status.treeValid = true ∧ i < s.nodeCount.toNat := by
  simp [State.readable]

/-- Settles O10: each word is a concatenation of fields, read as a number. -/
theorem nodeReadbackWords : Obligations.NodeReadbackWords := by
  intro s i
  constructor
  · intro hv hi
    have hr := (readable_iff s i).2 ⟨hv, hi⟩
    have hw := (s.node.at i).weight.isLt
    simp only [State.readReg, hr, if_true, RegLaws.append_toNat, BitVec.toNat_ofBool, BitVec.extractLsb'_toNat,
      BitVec.toNat_setWidth, Nat.shiftRight_eq_div_pow, BitVec.toNat_ofNat]
    refine ⟨?_, ?_, ?_, ?_⟩ <;> omega
  · intro hn
    simp [State.readReg, mt (readable_iff s i).1 hn]

/-- Cutting a bit string at `n` or filling it up to `n` with zeros leaves its first `n` bits as they read. -/
theorem getD_take_append_replicate (b : Bits) (n k : Nat) (hk : k < n) :
    (b.take n ++ List.replicate (n - b.length) false).getD k false = b.getD k false := by
  by_cases hin : k < b.length
  · rw [List.getD_append _ _ _ _ (by rw [List.length_take]; omega)]
    simp [List.getD_eq_getElem?_getD, hk]
  · rw [List.getD_append_right _ _ _ _ (by rw [List.length_take]; omega), List.getD_replicate _ (by
      rw [List.length_take]; omega), List.getD_eq_default _ _ (by omega)]

/-- Bit `31 - k` of a readback word is bit `k` of its 32 bits of the codeword, 0 past the end (R34). -/
theorem codeWord_getLsbD (b : Bits) (w k : Nat) (hk : k < 32) :
    (codeWord b w).getLsbD (31 - k) = b.getD (32 * w + k) false := by
  have hlen : ((b.drop (32 * w)).take 32 ++ List.replicate (32 - (b.drop (32 * w)).length) false).length = 32 := by
    rw [List.length_append, List.length_take, List.length_replicate]; omega
  have hbit := RegLaws.natOfBits_testBit _ k (hlen.symm ▸ hk)
  rw [hlen, getD_take_append_replicate _ _ _ hk] at hbit
  rw [codeWord, BitVec.getLsbD_ofNat, hbit, decide_eq_true (by omega), Bool.true_and]
  simp [List.getD_eq_getElem?_getD]

/-- Settles O11: bit `j` is bit `j mod 32` of word `j div 32`. -/
theorem codeReadbackBits : Obligations.CodeReadbackBits := by
  intro s x hlen
  refine ⟨?_, fun j _ => ?_⟩
  · show (BitVec.ofNat 32 (s.code.at x).length).toNat = _
    rw [BitVec.toNat_ofNat]; omega
  · show (codeWord (s.code.at x) (j / 32)).getLsbD _ = _
    rw [codeWord_getLsbD _ _ _ (Nat.mod_lt _ (by decide)), Nat.div_add_mod]

/-- Settles O16: every register and table is written out in `State.reset`, and no record is readable. -/
theorem resetStateValues : Obligations.ResetStateValues := by
  have hfreq : ∀ x, State.reset.freq.at x = 0 := TableLaws.at_noCounts
  have hcode : ∀ x, State.reset.code.at x = [] := TableLaws.at_noCodes
  refine ⟨rfl, rfl, rfl, rfl, rfl, rfl, rfl, rfl, rfl, rfl, rfl, rfl, rfl, rfl, rfl, hfreq, hcode,
    fun i => (nodeReadbackWords State.reset i).2 ?_, fun a => rfl, rfl⟩
  rintro ⟨hv, -⟩
  cases hv

end Sys2Proof.Machine
end

section
/-! PROOFS. DMEM and the host's access to the registers (20_memory.md): when a REG access is illegal, when a command
reads a source byte that holds no value, and the frame of the commands that write a destination. -/

namespace Sys2Proof.Machine

/-! ### REG accesses (R45) -/

theorem regAccessLegal_eq_false {bits o : Nat} (h : bits ≠ 32 ∨ o % 4 ≠ 0 ∨ 0x8000 ≤ o) :
    regAccessLegal bits o = false := by
  rw [← Bool.not_eq_true]
  simp only [regAccessLegal, Bool.and_eq_true, decide_eq_true_eq]
  omega

/-- With a host access first in the inbox, the step is that access. -/
theorem step_of_host {s : State} {a : HostAccess} {ms : List Move} (h : s.inbox = .host a :: ms) :
    step s = hostAccess a (s.setInbox ms) := by
  rw [step, h]; rfl

/-- Settles O7: an illegal access is refused before its offset is looked up. -/
theorem illegalRegisterAccessFaults : Obligations.IllegalRegisterAccessFaults := by
  intro s bits o v ms hill
  have hl := regAccessLegal_eq_false hill
  constructor
  · intro hin
    rw [step_of_host hin]
    simp [hostAccess, hl]
  · intro hin
    rw [step_of_host hin]
    simp [hostAccess, hl]

/-! ### A source byte that holds no value (R50) -/

/-- Behind a check that raises an error, a rule faults exactly when the check passes and what follows it faults: the
order of checks of 60_exceptions.md R119. -/
theorem check_eq_fault_iff (c : Prop) [Decidable c] (s : State) (i : Instr) (e : Err) (rest : Outcome) (f : Fault) :
    (if c then s.raise i e else rest) = .fault f ↔ ¬ c ∧ rest = .fault f := by
  by_cases hc : c
  · simp [hc, raise_eq]
  · simp [hc]

/-- Settles O23, check by check: each command is a chain of checks with its MemRead behind them. -/
theorem commandReadOfUnwrittenByte : Obligations.CommandReadOfUnwrittenByte := by
  intro s hs
  refine ⟨?_, ?_, ?_, ?_⟩
  · simp only [exec, execPack, hs, check_eq_fault_iff, Bool.not_eq_false, and_true, ne_eq]
  · simp only [exec, execUnpack, hs, check_eq_fault_iff, Bool.not_eq_false, and_true, gt_iff_lt, not_lt]
  · simp only [exec, execSerialize, hs, check_eq_fault_iff, Bool.not_eq_false, and_true, gt_iff_lt, not_lt, ne_eq]
  · simp only [exec, execDeserialize, hs, check_eq_fault_iff, Bool.not_eq_false, and_true, not_lt]

/-! ### The commands that write a destination (R49) -/

/-- `MemWrite` leaves every address outside its range as it reads. -/
theorem read_writeBytes_outside (m : Memory) (base : Nat) (v : List Byte) {a : Nat}
    (ha : a < base ∨ base + v.length ≤ a) : (m.writeBytes base v).read a = m.read a := by
  rw [MemoryLaws.read_writeBytes, if_neg (by omega)]

/-- An error spoils no byte outside the destination region, whichever command raises it (R118). -/
theorem afterError_read_outside (s : State) (i : Instr) (e : Err) {a : Nat}
    (ha : a < s.dstBase.toNat ∨ s.dstBase.toNat + s.dstCap.toNat ≤ a) :
    (s.afterError i e).mem.read a = s.mem.read a := by
  cases i with
  | pack => rw [(afterError_transfer s e .pack (.inl rfl)).2, if_neg (by omega)]
  | unpack => rw [(afterError_transfer s e .unpack (.inr rfl)).2, if_neg (by omega)]
  | build | gencode | serialize | deserialize => rfl

/-- A length that fits DST_CAP fits DST_LEN (R8, R23). -/
theorem toNat_ofNat_of_le_word {n : Nat} {w : Word} (h : n ≤ w.toNat) : (BitVec.ofNat 32 n).toNat = n :=
  Nat.mod_eq_of_lt (Nat.lt_of_le_of_lt h w.isLt)

/-- The two ends of a command that writes a destination: an error, which sets DST_LEN to 0, or bytes within DST_CAP
written at DST_BASE and counted in DST_LEN (R23, R49, R118). -/
theorem transfer_ends {i : Instr} {s t : State} (hi : i = .pack ∨ i = .unpack ∨ i = .serialize)
    (h : exec i s = .next t) :
    (∃ e, t = s.afterError i e ∧ t.status.err = true ∧ t.dstLen = 0 ∧ t.padding = s.padding) ∨
    ∃ v : List Byte, v.length ≤ s.dstCap.toNat ∧ t.status.err = false ∧ t.dstLen.toNat = v.length ∧
      t.mem = s.mem.writeBytes s.dstBase.toNat v := by
  cases exec_ends h with
  | error i e =>
    left
    obtain rfl | rfl | rfl := hi
    · exact ⟨e, rfl, rfl, failTransfer_dstLen s e, failTransfer_padding s e⟩
    · exact ⟨e, rfl, rfl, failTransfer_dstLen s e, failTransfer_padding s e⟩
    · exact ⟨e, rfl, rfl, rfl, rfl⟩
  | pack b _ hlen => exact .inr ⟨payloadOf b, hlen, rfl, toNat_ofNat_of_le_word hlen, rfl⟩
  | unpack out _ hlen => exact .inr ⟨out, hlen, rfl, toNat_ofNat_of_le_word hlen, rfl⟩
  | serialize hdr pay _ hlen =>
    refine .inr ⟨containerOf hdr pay, hlen, rfl, ?_, rfl⟩
    simp only [complete_dstLen, storeContainer_dstLen, ← containerOf_length]
    exact toNat_ofNat_of_le_word hlen
  | build | gencode | deserialize => simp at hi

/-- The registers and tables PACK, UNPACK and SERIALIZE write, on success or on an error (R22 to R27, R118). -/
theorem transfer_frame {i : Instr} {s t : State} (hi : i = .pack ∨ i = .unpack ∨ i = .serialize)
    (h : exec i s = .next t) :
    t = { s with
      status := completed s.status s.status.treeValid s.status.codesValid t.status.errCode
      dstLen := t.dstLen
      padding := if i = .pack then t.padding else s.padding
      hdrLen := if i = .serialize then t.hdrLen else s.hdrLen
      payloadOff := if i = .serialize then t.payloadOff else s.payloadOff
      payloadLen := if i = .serialize then t.payloadLen else s.payloadLen
      mem := t.mem } := by
  cases exec_ends h with
  | error i e => obtain rfl | rfl | rfl := hi <;> cases e <;> rfl
  | pack | unpack | serialize => rfl
  | build | gencode | deserialize => simp at hi

/-- Settles O54, by the two ends of such a command: the bytes written lie within DST_LEN, an error spoils at most the
destination, and one of SERIALIZE nothing. -/
theorem transferCommandsFrame : Obligations.TransferCommandsFrame := by
  intro i s t hi h
  refine ⟨transfer_frame hi h, ?_⟩
  obtain ⟨e, rfl, herr, hlen, hpad⟩ | ⟨v, hv, herr, hlen, hmem⟩ := transfer_ends hi h
  · refine ⟨by simp [hlen], fun _ => ⟨hpad, hlen⟩, fun a => afterError_read_outside s i e,
      fun hok => by simp [herr] at hok, ?_⟩
    rintro - rfl a
    rfl
  · refine ⟨by omega, fun he => by simp [herr] at he, fun a ha => ?_, fun _ a ha => ?_,
      fun he => by simp [herr] at he⟩
    · rw [hmem, read_writeBytes_outside _ _ _ (by omega)]
    · rw [hmem, read_writeBytes_outside _ _ _ (by omega)]

end Sys2Proof.Machine
end

section
/-! PROOFS. The encoding (30_encoding.md): the two fields of a command word, the opcode map, and the length of the
header text. -/

namespace Sys2Proof.Machine

/-! ### The fields of a command word (R58) -/

@[simp] theorem rsvdField_append (r : BitVec 28) (op : BitVec 4) : rsvdField (r ++ op) = r :=
  BitVec.extractLsb'_append_eq_left

@[simp] theorem opField_append (r : BitVec 28) (op : BitVec 4) : opField (r ++ op) = op :=
  BitVec.extractLsb'_append_eq_right

/-- A command word is its two fields, RSVD above OP. -/
theorem rsvdField_append_opField (v : Word) : rsvdField v ++ opField v = v := by
  refine BitVec.eq_of_toNat_eq ?_
  simp only [rsvdField, opField, RegLaws.append_toNat, BitVec.extractLsb'_toNat, Nat.shiftRight_eq_div_pow]
  omega

/-! ### Decoder and encoder (R59, R60) -/

/-- The words that decode to a command are its encoding alone. -/
theorem decode_eq_ok_iff_encode (v : Word) (i : Instr) : decode v = .ok i ↔ v = encode i := by
  rw [decode_eq_ok]
  constructor
  · rintro ⟨hr, ho⟩
    rw [← rsvdField_append_opField v, hr, ho, encode]
  · rintro rfl
    exact ⟨rsvdField_append _ _, opField_append _ _⟩

/-- The opcodes of the commands are 1 to 6. -/
theorem exists_opcode_iff (op : BitVec 4) : (∃ i, op = opcode i) ↔ 1 ≤ op.toNat ∧ op.toNat ≤ 6 := by
  constructor
  · rintro ⟨i, rfl⟩
    cases i <;> decide
  · intro h
    have hsome : ∀ op : BitVec 4, 1 ≤ op.toNat ∧ op.toNat ≤ 6 → (ofOpcode op).isSome = true := by decide
    obtain ⟨i, hi⟩ := Option.isSome_iff_exists.1 (hsome op h)
    exact ⟨i, (ofOpcode_eq_some op i).1 hi⟩

/-- R60 field by field. -/
theorem legalCommandWord_iff (v : Word) :
    legalCommandWord v = true ↔ rsvdField v = 0#28 ∧ 1 ≤ (opField v).toNat ∧ (opField v).toNat ≤ 6 := by
  simp [legalCommandWord, rsvdField, opField, and_assoc]

/-- Settles O2, field by field: RSVD is 0 and OP is the opcode of a command. -/
theorem decodeInvertsEncode : Obligations.DecodeInvertsEncode := by
  refine ⟨fun i _ => (decode_eq_ok_iff_encode _ i).2 rfl, fun v i => (decode_eq_ok_iff_encode v i).1, fun v => ?_⟩
  simp only [legalCommandWord_iff, ← exists_opcode_iff, decode_eq_ok, exists_and_left]

/-- With RSVD = 0, an opcode of no command is rejected by its name. -/
theorem decode_reservedOpcode (op : BitVec 4) (h : ¬ ∃ i, op = opcode i) :
    decode (0#28 ++ op) = .error (.reservedOpcode op) := by
  have hn : ofOpcode op = none :=
    Option.eq_none_iff_forall_ne_some.2 fun i hi => h ⟨i, (ofOpcode_eq_some op i).1 hi⟩
  simp [decode, hn]

/-- Settles O1: the six words are the encodings, and every other opcode is that of no command. -/
theorem opcodeMapDecodes : Obligations.OpcodeMapDecodes := by
  have hres : ∀ op : BitVec 4, ¬ (1 ≤ op.toNat ∧ op.toNat ≤ 6) → decode (0#28 ++ op) = .error (.reservedOpcode op) :=
    fun op h => decode_reservedOpcode op (mt (exists_opcode_iff op).1 h)
  have henc : ∀ i, decode (encode i) = .ok i := fun i => (decode_eq_ok_iff_encode _ i).2 rfl
  exact ⟨henc .build, henc .gencode, henc .pack, henc .unpack, henc .serialize, henc .deserialize,
    hres 0#4 (by decide), fun op h => hres op (by omega)⟩

/-! ### The length of the header text (R65) -/

/-- The decimal spelling of a number has one digit more than its logarithm. -/
theorem dec_length (n : Nat) : (dec n).length = Nat.log 10 n + 1 := by
  induction n using Nat.strong_induction_on with
  | _ n ih =>
    by_cases h : n < 10
    · rw [HeaderLaws.dec_small n h, Nat.log_of_lt h, List.length_singleton]
    · rw [HeaderLaws.dec_step n (by omega), List.length_append, ih (n / 10) (by omega), List.length_singleton,
        Nat.log_of_one_lt_of_le (by decide) (by omega : 10 ≤ n)]

/-- A count has at most the ten digits of the largest one. -/
theorem dec_count_length_le (c : Word) : (dec c.toNat).length ≤ 10 := by
  rw [dec_length]
  exact Nat.log_lt_of_lt_pow' (by decide) (Nat.lt_trans c.isLt (by decide))

theorem dec_max_count_length : (dec (0xFFFFFFFF#32).toNat).length = 10 := by
  rw [dec_length, (Nat.log_eq_iff (by decide)).2 (by decide : 10 ^ 9 ≤ (0xFFFFFFFF#32).toNat ∧ _ < 10 ^ (9 + 1))]

/-- The bytes an entry takes in a list: its text and the comma behind it. -/
def entrySize (e : Byte × Word) : Nat := 4 + (dec e.1.toNat).length + (dec e.2.toNat).length

theorem entryText_length (e : Byte × Word) : (entryText e).length + 1 = entrySize e := by
  simp only [entryText, entrySize, List.length_cons, List.length_append, List.length_nil]
  omega

/-- The last entry has no comma. -/
theorem entriesText_length {l : List (Byte × Word)} (h : l ≠ []) :
    (entriesText l).length + 1 = (l.map entrySize).sum := by
  induction l with
  | nil => exact absurd rfl h
  | cons e l ih =>
    cases l with
    | nil => simpa [entriesText] using entryText_length e
    | cons e' l =>
      rw [List.map_cons, List.sum_cons, ← ih (List.cons_ne_nil _ _), ← entryText_length e]
      simp only [entriesText, List.length_append, List.length_cons]
      omega

theorem headerText_length {l : List (Byte × Word)} (h : l ≠ []) (p : BitVec 3) :
    (headerText l p).length = 27 + (l.map entrySize).sum := by
  have hp : (dec p.toNat).length = 1 := by
    rw [HeaderLaws.dec_small _ (Nat.lt_trans p.isLt (by decide)), List.length_singleton]
  rw [← entriesText_length h]
  simp only [headerText, headerOpen, headerMiddle, headerClose, List.length_append, List.length_cons, List.length_nil,
    hp]
  omega

/-- The symbols of a table are 0 to 255, in this order. -/
theorem pairs_map_fst {α : Type} (t : Table α) : t.pairs.map Prod.fst = (List.range 256).map (BitVec.ofNat 8) := by
  refine List.ext_getElem (by simp [TableLaws.pairs_length]) fun i _ hi => ?_
  have hi' : i < 256 := by simpa using hi
  simp [TableLaws.pairs_getElem t i hi']

/-- All 256 symbols, each with a count of ten digits. -/
theorem sum_largest_entries {α : Type} (t : Table α) :
    (t.pairs.map fun e => 4 + (dec e.1.toNat).length + 10).sum = 4242 :=
  calc (t.pairs.map fun e => 4 + (dec e.1.toNat).length + 10).sum
    _ = ((t.pairs.map Prod.fst).map fun x : Byte => 4 + (dec x.toNat).length + 10).sum := by
      rw [List.map_map]; rfl
    _ = 4242 := by rw [pairs_map_fst]; decide +kernel

/-- The entries of a frequency list are among those of all symbols, and each is at most the largest of its symbol. -/
theorem sum_entrySize_le (f : Table Word) : ((freqList f).map entrySize).sum ≤ 4242 :=
  calc ((freqList f).map entrySize).sum
    _ ≤ (f.pairs.map entrySize).sum :=
      (List.filter_sublist.map entrySize).sum_le_sum fun _ _ => Nat.zero_le _
    _ ≤ (f.pairs.map fun e => 4 + (dec e.1.toNat).length + 10).sum :=
      List.sum_le_sum fun e _ => Nat.add_le_add_left (dec_count_length_le e.2) _
    _ = 4242 := sum_largest_entries f

/-- With the largest count at every symbol, every symbol has an entry of the largest size. -/
theorem sum_entrySize_max {f : Table Word} (h : ∀ x, f.at x = 0xFFFFFFFF#32) :
    ((freqList f).map entrySize).sum = 4242 := by
  have hcount : ∀ e ∈ f.pairs, e.2 = 0xFFFFFFFF#32 :=
    fun e he => ((TableLaws.mem_pairs f e.1 e.2).1 he).symm.trans (h _)
  have hall : freqList f = f.pairs := List.filter_eq_self.2 fun e he => by rw [hcount e he]; decide
  rw [hall, ← sum_largest_entries f]
  refine congrArg List.sum (List.map_congr_left fun e he => ?_)
  rw [entrySize, hcount e he, dec_max_count_length]

/-- Settles O50, entry by entry. -/
theorem headerTextLength : Obligations.HeaderTextLength := by
  refine ⟨fun l p h => headerText_length h p, fun f p h => ?_, fun f p h => ?_⟩
  · have := sum_entrySize_le f
    rw [headerText_length h]
    omega
  · have hne : freqList f ≠ [] := fun h0 => absurd ((h 0).symm.trans ((TableLaws.freqList_eq_nil f).1 h0 0)) (by decide)
    rw [headerText_length hne, sum_entrySize_max h]

end Sys2Proof.Machine
end

section
/-! PROOFS. BUILD, the tree builder (40_tree_builder.md): what it answers, and what the arena it leaves holds. The facts
about the arena are stated of every state with a current tree; BUILD leaves one, whatever state it starts from. -/

namespace Sys2Proof.Machine

/-! ### What BUILD answers -/

/-- The state BUILD leaves when FREQ is empty (R75, R118). -/
def State.afterEmptyBuild (s : State) : State := s.invalidateTree.complete (some .emptyInput)

/-- The state BUILD leaves when FREQ has a non-zero entry (R75). -/
def State.afterBuild (s : State) : State := (s.invalidateTree.storeTree (freqList s.freq)).complete none

theorem exec_build_of_eq_nil {s : State} (h : freqList s.freq = []) : exec .build s = .next s.afterEmptyBuild :=
  if_pos h

theorem exec_build_of_ne_nil {s : State} (h : freqList s.freq ≠ []) : exec .build s = .next s.afterBuild :=
  if_neg h

theorem treeCurrent_afterEmptyBuild (s : State) : s.afterEmptyBuild.TreeCurrent :=
  InvLaws.tree_invalid rfl rfl rfl rfl

theorem treeCurrent_afterBuild {s : State} (h : freqList s.freq ≠ []) : s.afterBuild.TreeCurrent :=
  InvLaws.tree_congr (InvLaws.storeTree_current s.invalidateTree h) rfl rfl rfl rfl rfl rfl

/-- BUILD leaves a current tree of the FREQ it found, from every state: the invariants are not needed. -/
theorem treeCurrent_of_exec_build {s t : State} (h : exec .build s = .next t) :
    t.TreeCurrent ∧ t.freq = s.freq := by
  obtain ⟨-, rfl⟩ | ⟨hne, rfl⟩ := execBuild_cases h
  · exact ⟨treeCurrent_afterEmptyBuild s, rfl⟩
  · exact ⟨treeCurrent_afterBuild hne, rfl⟩

/-- What BUILD leaves unchanged, whether it completes or raises its error (R75, R49). -/
theorem exec_build_frame {s t : State} (h : exec .build s = .next t) :
    t = { s with
      status := completed s.status t.status.treeValid false t.status.errCode
      node := t.node, root := t.root, nodeCount := t.nodeCount, leafCount := t.leafCount
      code := t.code, maxCodeLen := t.maxCodeLen } ∧ ∀ a, t.mem.read a = s.mem.read a := by
  obtain ⟨-, rfl⟩ | ⟨-, rfl⟩ := execBuild_cases h
  · exact ⟨rfl, fun _ => rfl⟩
  · exact ⟨rfl, fun _ => rfl⟩

/-- What GENCODE leaves unchanged, whether it completes or raises its error (R84, R49). -/
theorem exec_gencode_frame {s t : State} (h : exec .gencode s = .next t) :
    t = { s with
      status := completed s.status s.status.treeValid t.status.codesValid t.status.errCode
      code := t.code, maxCodeLen := t.maxCodeLen } ∧ ∀ a, t.mem.read a = s.mem.read a := by
  obtain ⟨-, rfl⟩ | ⟨-, rfl⟩ := execGencode_cases h
  · exact ⟨rfl, fun _ => rfl⟩
  · exact ⟨rfl, fun _ => rfl⟩

/-! ### The order and the worklist, of records stored in an arena (R70, R71) -/

section
variable {v : Arena} {ns : List Node} {size : Nat} (hrec : ∀ i, i < size → v.at i = nodeOf ns i)
include hrec

theorem keyBelow_iff_keyLt {i j : Nat} (hi : i < size) (hj : j < size) : keyBelow v i j ↔ keyLt ns i j = true := by
  rw [BuildLaws.keyLt_iff, keyBelow, hrec i hi, hrec j hj]

theorem unmerged_iff_pool {n i k : Nat} (hi : i ≤ size) : unmerged v n i k ↔ BuildLaws.pool ns n i k :=
  and_congr_right fun _ => forall_congr' fun m => imp_congr_right fun _ => imp_congr_right fun hm => by
    rw [hrec m (hm.trans_le hi)]

end

/-! ### The arena of a current tree -/

namespace State.TreeCurrent

variable {s : State} (h : s.TreeCurrent) (hv : s.status.treeValid = true)
include h hv

theorem leafCount_le : s.leafCount.toNat ≤ 256 := (h.shaped hv).2.2.1

theorem nodeCount_add_one : s.nodeCount.toNat + 1 = 2 * s.leafCount.toNat := by
  obtain ⟨-, hpos, -, hn, -⟩ := h.shaped hv
  omega

theorem root_add_one : s.root.toNat + 1 = s.nodeCount.toNat := by
  obtain ⟨-, hpos, -, hn, hr⟩ := h.shaped hv
  omega

theorem tag_iff {i : Nat} (hi : i < s.nodeCount.toNat) : (s.node.at i).tag = true ↔ s.leafCount.toNat ≤ i := by
  obtain ⟨hs, -, -, hn, -⟩ := h.shaped hv
  exact PathLaws.tag_iff hs i (hn ▸ hi)

/-- Record `k` of the leaves is that of entry `k` of the frequency list (R68). -/
theorem leaf_record {k : Nat} (hk : k < (freqList s.freq).length) : s.node.at k = leafOf (freqList s.freq)[k] := by
  have hn := h.nodeCount hv
  rw [h.records hv k (by omega),
    BuildLaws.buildArena_leaf _ (h.nonempty hv) (TableLaws.freqList_length_le _) k hk]

/-- The weight of a leaf is the count of its symbol (R68). -/
theorem leaf_weight {i : Nat} (hi : i < s.leafCount.toNat) :
    (s.node.at i).weight.toNat = (s.freq.at (s.node.at i).sym).toNat := by
  have hk : i < (freqList s.freq).length := h.leafCount hv ▸ hi
  have hcount : s.freq.at (freqList s.freq)[i].1 = (freqList s.freq)[i].2 :=
    ((TableLaws.mem_freqList ..).1 (List.getElem_mem hk)).1
  rw [h.leaf_record hv hk, leafOf, hcount]
  exact BitVec.toNat_setWidth_of_le (by decide)

/-- Every internal record was made by a merge (R71). -/
theorem mergedAt {i : Nat} (hl : s.leafCount.toNat ≤ i) (hi : i < s.nodeCount.toNat) :
    BuildLaws.MergedAt (buildArena (freqList s.freq)) s.leafCount.toNat i := by
  have hn := h.nodeCount hv
  have hc := h.leafCount hv
  rw [hc]
  exact BuildLaws.buildArena_merged _ (h.nonempty hv) (TableLaws.freqList_length_le _) i (hc ▸ hl) (hn ▸ hi)

/-- The children of an internal record lie below it and are two (R77). -/
theorem children {i : Nat} (hl : s.leafCount.toNat ≤ i) (hi : i < s.nodeCount.toNat) :
    (s.node.at i).left.toNat < i ∧ (s.node.at i).right.toNat < i ∧ (s.node.at i).left ≠ (s.node.at i).right := by
  have hm := h.mergedAt hv hl hi
  rw [h.records hv i hi]
  exact ⟨hm.left_pool.1, hm.right_pool.1, fun he => hm.distinct (congrArg BitVec.toNat he)⟩

/-- The weight of an internal record is the exact sum of its children's (R71, R74). -/
theorem weight_eq {i : Nat} (hl : s.leafCount.toNat ≤ i) (hi : i < s.nodeCount.toNat) :
    (s.node.at i).weight.toNat =
      (s.node.at (s.node.at i).left.toNat).weight.toNat + (s.node.at (s.node.at i).right.toNat).weight.toNat := by
  obtain ⟨hleft, hright, -⟩ := h.children hv hl hi
  rw [h.records hv _ (hleft.trans hi), h.records hv _ (hright.trans hi), h.records hv i hi]
  exact (h.mergedAt hv hl hi).weight

/-- A merge takes the two smallest keys of the worklist, the smaller one as the left child (R71). -/
theorem takes_two_smallest {i : Nat} (hl : s.leafCount.toNat ≤ i) (hi : i < s.nodeCount.toNat) :
    unmerged s.node s.leafCount.toNat i (s.node.at i).left.toNat ∧
    unmerged s.node s.leafCount.toNat i (s.node.at i).right.toNat ∧
    (∀ k, unmerged s.node s.leafCount.toNat i k → k ≠ (s.node.at i).left.toNat →
      keyBelow s.node (s.node.at i).left.toNat k) ∧
    (∀ k, unmerged s.node s.leafCount.toNat i k → k ≠ (s.node.at i).left.toNat → k ≠ (s.node.at i).right.toNat →
      keyBelow s.node (s.node.at i).right.toNat k) := by
  have hm := h.mergedAt hv hl hi
  have hpool := fun k => unmerged_iff_pool (k := k) (n := s.leafCount.toNat) (h.records hv) hi.le
  have hkey := fun j k (hj : j < i) (hk : k < i) => keyBelow_iff_keyLt (h.records hv) (hj.trans hi) (hk.trans hi)
  simp only [hpool]
  rw [h.records hv i hi]
  exact ⟨hm.left_pool, hm.right_pool, fun k hk hne => (hkey _ k hm.left_pool.1 hk.1).2 (hm.left_least k hk hne),
    fun k hk hne hne' => (hkey _ k hm.right_pool.1 hk.1).2 (hm.right_least k hk hne hne')⟩

/-! ### One parent (R77) -/

theorem exists_parent {k : Nat} (hk : k < s.nodeCount.toNat) (hr : k ≠ s.root.toNat) :
    ∃ i, i < s.nodeCount.toNat ∧ (s.node.at i).tag = true ∧
      ((s.node.at i).left.toNat = k ∨ (s.node.at i).right.toNat = k) := by
  have hn := h.nodeCount hv
  have hroot := h.root hv
  obtain ⟨i, hl, hi, hc⟩ := BuildLaws.buildArena_has_parent _ (h.nonempty hv) (TableLaws.freqList_length_le s.freq) k
    (by omega)
  have hi' : i < s.nodeCount.toNat := hn ▸ hi
  exact ⟨i, hi', (h.tag_iff hv hi').2 (h.leafCount hv ▸ hl), by rwa [h.records hv i hi']⟩

/-- Of two internal records the later one's children were in the worklist when it was made, so they are no children of
the earlier one. -/
theorem parent_not_lt {i j k : Nat} (hi : s.leafCount.toNat ≤ i) (hij : i < j) (hj : j < s.nodeCount.toNat)
    (hik : (s.node.at i).left.toNat = k ∨ (s.node.at i).right.toNat = k)
    (hjk : (s.node.at j).left.toNat = k ∨ (s.node.at j).right.toNat = k) : False := by
  obtain ⟨⟨-, hleft⟩, ⟨-, hright⟩, -, -⟩ := h.takes_two_smallest hv (hi.trans hij.le) hj
  have hleft := hleft i hi hij
  have hright := hright i hi hij
  omega

theorem parent_unique {i j k : Nat} (hi : i < s.nodeCount.toNat) (hti : (s.node.at i).tag = true)
    (hik : (s.node.at i).left.toNat = k ∨ (s.node.at i).right.toNat = k)
    (hj : j < s.nodeCount.toNat) (htj : (s.node.at j).tag = true)
    (hjk : (s.node.at j).left.toNat = k ∨ (s.node.at j).right.toNat = k) : j = i := by
  rcases Nat.lt_trichotomy j i with hlt | he | hlt
  · exact (h.parent_not_lt hv ((h.tag_iff hv hj).1 htj) hlt hi hjk hik).elim
  · exact he
  · exact (h.parent_not_lt hv ((h.tag_iff hv hi).1 hti) hlt hj hik hjk).elim

/-- A path from the root has one edge at most for each internal record (R77). -/
theorem path_length_le {p : Bits} {k : Nat} (hf : follow s.node s.root.toNat p = some k) :
    p.length ≤ s.leafCount.toNat - 1 := by
  obtain ⟨hs, hpos, -, -, hr⟩ := h.shaped hv
  by_cases hp : p = []
  · simp [hp]
  · obtain ⟨-, hlen⟩ := (PathLaws.follow_bounds hs p _ k (by omega) hf).2 hp
    omega

/-! ### Weights (R74) -/

/-- A weight is the sum of the counts beneath: along the records, whose children lie below them. -/
theorem weight_eq_countBelow : ∀ fuel i, i < fuel → i < s.nodeCount.toNat →
    (s.node.at i).weight.toNat = countBelow s.freq s.node fuel i := by
  intro fuel
  induction fuel with
  | zero => intro i hf; omega
  | succ fuel ih =>
    intro i hf hi
    rw [countBelow]
    by_cases hl : s.leafCount.toNat ≤ i
    · obtain ⟨hleft, hright, -⟩ := h.children hv hl hi
      rw [if_pos ((h.tag_iff hv hi).2 hl), h.weight_eq hv hl hi, ih _ (by omega) (by omega), ih _ (by omega) (by omega)]
    · rw [if_neg (mt (h.tag_iff hv hi).1 hl), h.leaf_weight hv (by omega)]

/-- No record weighs more than one above it. -/
theorem weight_le_of_follow (p : Bits) : ∀ i k, i < s.nodeCount.toNat → follow s.node i p = some k →
    (s.node.at k).weight.toNat ≤ (s.node.at i).weight.toNat := by
  induction p with
  | nil =>
    rintro i k - hf
    obtain rfl : i = k := Option.some.inj hf
    exact le_rfl
  | cons b p ih =>
    intro i k hi hf
    rw [PathLaws.follow_cons] at hf
    split at hf
    · have hl := (h.tag_iff hv hi).1 ‹_›
      obtain ⟨hleft, hright, -⟩ := h.children hv hl hi
      have hw := h.weight_eq hv hl hi
      cases b with
      | false =>
        have := ih _ k (hleft.trans hi) hf
        omega
      | true =>
        have := ih _ k (hright.trans hi) hf
        omega
    · cases hf

theorem root_weight : (s.node.at s.root.toNat).weight.toNat = totalCount s.freq := by
  have hroot := h.root_add_one hv
  rw [h.records hv _ (by omega), h.root hv]
  exact BuildLaws.buildArena_total _ (h.nonempty hv) (TableLaws.freqList_length_le _)

/-- Every record is reached from the root, whose weight is the sum of at most 256 counts. -/
theorem weight_le {i : Nat} (hi : i < s.nodeCount.toNat) : (s.node.at i).weight.toNat ≤ 256 * (2 ^ 32 - 1) := by
  obtain ⟨p, hp⟩ := h.reachable hv i hi
  have hroot := h.root_add_one hv
  calc (s.node.at i).weight.toNat
    _ ≤ (s.node.at s.root.toNat).weight.toNat := h.weight_le_of_follow hv p _ i (by omega) hp
    _ = totalCount s.freq := h.root_weight hv
    _ ≤ 256 * (2 ^ 32 - 1) := BuildLaws.counts_sum_le _ (TableLaws.freqList_length_le _)

end State.TreeCurrent

/-! ### What the arena and a table of one count hold -/

/-- The records from the number stored on keep what they held (R75). -/
theorem at_store_of_length_le (v : Arena) {ns : List Node} {i : Nat} (h : ns.length ≤ i) :
    (v.store ns).at i = v.at i := by
  by_cases hi : i < 511
  · rw [TableLaws.at_store _ _ _ hi, if_neg (by omega)]
  · simp [Arena.at, hi]

/-- A table with one non-zero count has one entry in its frequency list. -/
theorem freqList_of_one {f : Table Word} {x : Byte} {c : Word} (hc : c ≠ 0) (hf : ∀ y, f.at y = if y = x then c else 0) :
    freqList f = [(x, c)] := by
  refine List.perm_singleton.1 ((List.perm_ext_iff_of_nodup (TableLaws.freqList_nodup f).of_map (by simp)).2 ?_)
  rintro ⟨y, d⟩
  rw [TableLaws.mem_freqList, hf, List.mem_singleton, Prod.mk.injEq]
  constructor
  · rintro ⟨rfl, hd⟩
    by_cases hy : y = x
    · exact ⟨hy, if_pos hy⟩
    · exact absurd (if_neg hy) hd
  · rintro ⟨rfl, rfl⟩
    exact ⟨if_pos rfl, hc⟩

/-! ### The statements -/

/-- Settles O26: every internal record was made by a merge of the loop, and the arena stores the loop's records. -/
theorem buildMergesTheTwoSmallest : Obligations.BuildMergesTheTwoSmallest := by
  intro s t he hv
  obtain ⟨h, -⟩ := treeCurrent_of_exec_build he
  have hn := h.nodeCount_add_one hv
  have hle := h.leafCount_le hv
  refine ⟨hn, by omega, fun i hl hi => ?_⟩
  obtain ⟨hleft, hright, hleast, hnext⟩ := h.takes_two_smallest hv hl hi
  have hsym : (t.node.at i).sym = 0 := by rw [h.records hv i hi]; exact (h.mergedAt hv hl hi).sym
  exact ⟨(h.tag_iff hv hi).2 hl, hsym, hleft, hright, (h.children hv hl hi).2.2, hleast, hnext, h.weight_eq hv hl hi⟩

/-- Settles O30, clause by clause, of the current tree BUILD leaves. -/
theorem builtArenaIsATree : Obligations.BuiltArenaIsATree := by
  intro s t he hv
  obtain ⟨h, -⟩ := treeCurrent_of_exec_build he
  have hn := h.nodeCount_add_one hv
  have hr := h.root_add_one hv
  have hle := h.leafCount_le hv
  refine ⟨fun i hi => h.tag_iff hv hi, fun i hi ht => h.children hv ((h.tag_iff hv hi).1 ht) hi, fun k hk hkr => ?_,
    by omega, fun p k hf => h.path_length_le hv hf, by omega⟩
  obtain ⟨i, hi, hti, hik⟩ := h.exists_parent hv hk hkr
  exact ⟨i, ⟨hi, hti, hik⟩, fun j hj htj hjk => h.parent_unique hv hi hti hik hj htj hjk⟩

/-- Settles O24: the frame holds by computation, the extent and the records are those of a current tree. -/
theorem buildCompletes : Obligations.BuildCompletes := by
  intro s hne
  have h := treeCurrent_afterBuild hne
  have hv : s.afterBuild.status.treeValid = true := rfl
  have hl : s.afterBuild.leafCount.toNat = (freqList s.freq).length := h.leafCount hv
  have hn : s.afterBuild.nodeCount.toNat = 2 * (freqList s.freq).length - 1 := h.nodeCount hv
  obtain ⟨-, -, hlen⟩ := BuildLaws.buildTree_spec _ hne (TableLaws.freqList_length_le s.freq)
  refine ⟨s.afterBuild, exec_build_of_ne_nil hne, rfl, hl, hn, h.root hv, fun k hk => h.leaf_record hv hk,
    fun i h1 h2 => ?_, fun i hi => at_store_of_length_le _ (hlen ▸ hi), TableLaws.at_noCodes⟩
  rw [h.records hv i (hn ▸ h2)]
  have hm := h.mergedAt hv (hl ▸ h1) (hn ▸ h2)
  exact ⟨hm.tag, hm.sym⟩

/-- Settles O25: an empty table has an empty frequency list. -/
theorem buildOfEmptyTableFails : Obligations.BuildOfEmptyTableFails := by
  intro s hs
  exact ⟨s.afterEmptyBuild, exec_build_of_eq_nil ((TableLaws.freqList_eq_nil _).2 hs), rfl,
    TableLaws.at_noCodes⟩

/-- Settles O27: it is BuildCompletes of a frequency list of one entry. -/
theorem buildOfOneSymbol : Obligations.BuildOfOneSymbol := by
  intro s x c hc hf
  have hlist := freqList_of_one hc hf
  obtain ⟨t, he, hframe, hl, hn, hr, hleaf, -⟩ := buildCompletes s (by rw [hlist]; simp)
  have hv : t.status.treeValid = true := congrArg (fun u : State => u.status.treeValid) hframe
  simp only [hlist] at hl hn hr hleaf
  exact ⟨t, he, hv, BitVec.eq_of_toNat_eq hr, BitVec.eq_of_toNat_eq hn, BitVec.eq_of_toNat_eq hl, hleaf 0 (by simp)⟩

/-- Settles O28, by the current tree BUILD leaves, its FREQ the one it found. -/
theorem weightsAreExact : Obligations.WeightsAreExact := by
  intro s t he hv
  obtain ⟨h, hf⟩ := treeCurrent_of_exec_build he
  have hn := h.nodeCount_add_one hv
  have hle := h.leafCount_le hv
  rw [← hf]
  refine ⟨fun i hi => ⟨h.weight_eq_countBelow hv maxNodes i ?_ hi, h.weight_le hv hi⟩, h.root_weight hv⟩
  rw [maxNodes]
  omega

/-- Settles O29: the extent, TREE_VALID and ERRCODE are computed from the frequency list, and so are the records of a
current tree. -/
theorem buildDependsOnFreqAlone : Obligations.BuildDependsOnFreqAlone := by
  intro s s' t t' hfreq he he'
  obtain ⟨h, hf⟩ := treeCurrent_of_exec_build he
  obtain ⟨h', hf'⟩ := treeCurrent_of_exec_build he'
  by_cases hl : freqList s.freq = []
  · obtain rfl : s.afterEmptyBuild = t := by rw [exec_build_of_eq_nil hl] at he; injection he
    obtain rfl : s'.afterEmptyBuild = t' := by rw [exec_build_of_eq_nil (hfreq ▸ hl)] at he'; injection he'
    exact ⟨rfl, rfl, rfl, rfl, rfl, fun i hi => absurd hi (Nat.not_lt_zero i)⟩
  · obtain rfl : s.afterBuild = t := by rw [exec_build_of_ne_nil hl] at he; injection he
    obtain rfl : s'.afterBuild = t' := by rw [exec_build_of_ne_nil (hfreq ▸ hl)] at he'; injection he'
    have hroot : s.afterBuild.root = s'.afterBuild.root := by simp [State.afterBuild, hfreq]
    have hnodes : s.afterBuild.nodeCount = s'.afterBuild.nodeCount := by simp [State.afterBuild, hfreq]
    have hleaves : s.afterBuild.leafCount = s'.afterBuild.leafCount := by simp [State.afterBuild, hfreq]
    refine ⟨hroot, hnodes, hleaves, rfl, rfl, fun i hi => ?_⟩
    rw [h.records rfl i hi, h'.records rfl i (hnodes ▸ hi), hf, hf', hfreq]

/-- Settles O53, from what BUILD and GENCODE can do. -/
theorem treeCommandsFrame : Obligations.TreeCommandsFrame :=
  ⟨fun _ _ h => exec_build_frame h, fun _ _ h => exec_gencode_frame h⟩

end Sys2Proof.Machine
end

section
/-! PROOFS. GENCODE, the code table generator (41_code_table.md): what it answers, and what the code table of a current
tree is. The shape of the arena and its paths are in Laws/Paths; here they are read in the registers of a state. -/

namespace Sys2Proof.Machine

/-! ### What GENCODE answers -/

/-- The state GENCODE leaves when TREE_VALID = 0 (R84, R118). -/
def State.afterGencodeWithoutTree (s : State) : State := s.invalidateCodes.complete (some .notReady)

/-- The state GENCODE leaves when TREE_VALID = 1 (R84). -/
def State.afterGencode (s : State) : State :=
  (s.invalidateCodes.storeCodes (codeTable s.node s.root.toNat)).complete none

theorem exec_gencode_of_not_treeValid {s : State} (hv : s.status.treeValid = false) :
    exec .gencode s = .next s.afterGencodeWithoutTree :=
  if_neg (Bool.eq_false_iff.1 hv)

theorem exec_gencode_of_treeValid {s : State} (hv : s.status.treeValid = true) :
    exec .gencode s = .next s.afterGencode :=
  if_pos hv

@[simp] theorem afterGencode_code (s : State) : s.afterGencode.code = codeTable s.node s.root.toNat := rfl

@[simp] theorem afterGencode_maxCodeLen (s : State) :
    s.afterGencode.maxCodeLen = BitVec.ofNat 8 (maxLength s.afterGencode.code) := rfl

/-- With TREE_VALID = 1, `afterGencode` is the only state GENCODE answers. -/
theorem gencode_eq_afterGencode {s t : State} (he : exec .gencode s = .next t) (hv : s.status.treeValid = true) :
    t = s.afterGencode := by
  rw [exec_gencode_of_treeValid hv] at he
  injection he with he
  exact he.symm

/-- GENCODE sets CODES_VALID only where it finds a valid tree (R35, R84). -/
theorem treeValid_of_gencode_codesValid {s t : State} (he : exec .gencode s = .next t)
    (hc : t.status.codesValid = true) : s.status.treeValid = true := by
  obtain ⟨-, rfl⟩ | ⟨hv, -⟩ := execGencode_cases he
  · cases hc
  · exact hv

/-! ### The largest length (R84) -/

/-- A bound on every codeword's length bounds the largest one. -/
theorem maxLength_le {c : Table Bits} {m : Nat} (h : ∀ x, (c.at x).length ≤ m) : maxLength c ≤ m := by
  obtain ⟨x, hx⟩ := PathLaws.exists_maxLength c
  exact hx ▸ h x

/-- With a leaf as the root, no codeword has more than the one bit of "0" (R80). -/
theorem codeTable_leaf_length_le (v : Arena) (root : Nat) (h : (v.at root).tag = false) (x : Byte) :
    ((codeTable v root).at x).length ≤ 1 := by
  rw [PathLaws.codeTable_leaf v root h]
  split
  · exact le_rfl
  · exact Nat.zero_le _

theorem maxLength_codeTable_leaf (v : Arena) (root : Nat) (h : (v.at root).tag = false) :
    maxLength (codeTable v root) = 1 := by
  refine Nat.le_antisymm (maxLength_le (codeTable_leaf_length_le v root h)) ?_
  have hsym := PathLaws.length_le_maxLength (codeTable v root) (v.at root).sym
  rwa [PathLaws.codeTable_leaf v root h, if_pos rfl] at hsym

/-- A table whose codewords hold no 1 bit decodes no bit string that does. -/
theorem decodeBits_eq_none_of_true_mem {c : Table Bits} (h : ∀ x, true ∉ c.at x) {p : Bits} (hp : true ∈ p) :
    decodeBits c [] p = none := by
  cases hd : decodeBits c [] p with
  | none => rfl
  | some out =>
    obtain ⟨-, hstream⟩ := (BitLaws.codewordStream_eq_some ..).1 (BitLaws.decodeBits_sound c p [] out hd)
    rw [List.nil_append] at hstream
    obtain ⟨x, -, hx⟩ := List.mem_flatMap.1 (hstream ▸ hp)
    exact absurd hx (h x)

/-! ### The code table of a current tree -/

namespace State.TreeCurrent

variable {s : State} (h : s.TreeCurrent) (hv : s.status.treeValid = true)
include h hv

/-- A path from the root leads to one of the records of the tree. -/
theorem follow_lt {p : Bits} {k : Nat} (hf : follow s.node s.root.toNat p = some k) : k < s.nodeCount.toNat := by
  obtain ⟨hs, hpos, -, hn, hr⟩ := h.shaped hv
  obtain ⟨hk, -⟩ := PathLaws.follow_bounds hs p _ k (by omega) hf
  omega

/-- Where a path from the root ends, the tag tells a leaf. -/
theorem follow_tag_iff {p : Bits} {k : Nat} (hf : follow s.node s.root.toNat p = some k) :
    (s.node.at k).tag = false ↔ k < s.leafCount.toNat := by
  rw [← Bool.not_eq_true, h.tag_iff hv (h.follow_lt hv hf), not_le]

theorem codeTable_iff (hn : 2 ≤ s.leafCount.toNat) (x : Byte) (p : Bits) :
    ((codeTable s.node s.root.toNat).at x = p ∧ p ≠ []) ↔
      ∃ k, follow s.node s.root.toNat p = some k ∧ (s.node.at k).tag = false ∧ (s.node.at k).sym = x := by
  obtain ⟨hs, -, hle, -, hr⟩ := h.shaped hv
  have hiff := PathLaws.codeTable_iff hs hn hle x p
  rw [← hr] at hiff
  rw [hiff]
  exact exists_congr fun k => and_congr_right fun hf => and_congr_left' (h.follow_tag_iff hv hf).symm

/-- The root of a tree of one leaf is that leaf (R73). -/
theorem root_tag_of_one (hn : s.leafCount.toNat = 1) : (s.node.at s.root.toNat).tag = false := by
  have hnodes := h.nodeCount_add_one hv
  have hroot := h.root_add_one hv
  exact (h.follow_tag_iff hv (PathLaws.follow_nil ..)).2 (by omega)

/-- The codeword of the only symbol is "0" (R80). -/
theorem codeTable_of_one (hn : s.leafCount.toNat = 1) (x : Byte) :
    (codeTable s.node s.root.toNat).at x = if x = (s.node.at s.root.toNat).sym then [false] else [] :=
  PathLaws.codeTable_leaf _ _ (h.root_tag_of_one hv hn) x

/-- A tree has one leaf or it has two or more. -/
theorem leafCount_cases : s.leafCount.toNat = 1 ∨ 2 ≤ s.leafCount.toNat := by
  obtain ⟨-, hpos, -⟩ := h.shaped hv
  omega

/-- The symbols of the leaves are the symbols with a codeword, whatever the number of leaves. -/
theorem codeTable_ne_nil_iff_leaf (x : Byte) :
    (codeTable s.node s.root.toNat).at x ≠ [] ↔ ∃ k, k < s.leafCount.toNat ∧ (s.node.at k).sym = x := by
  obtain ⟨hs, -, hle, hnodes, hr⟩ := h.shaped hv
  obtain hn | hn := h.leafCount_cases hv
  · have hroot : s.root.toNat = 0 := by omega
    rw [h.codeTable_of_one hv hn, hn, hroot]
    simp [eq_comm]
  · have hreach : ∀ k, k < s.leafCount.toNat → ∃ p, follow s.node s.root.toNat p = some k :=
      fun k hk => h.reachable hv k (by omega)
    rw [hr] at hreach ⊢
    exact PathLaws.codeTable_ne_nil hs hn hle hreach x

/-- Exactly the symbols with a count have a codeword (R81). -/
theorem codeTable_ne_nil_iff (x : Byte) : (codeTable s.node s.root.toNat).at x ≠ [] ↔ s.freq.at x ≠ 0 :=
  (h.codeTable_ne_nil_iff_leaf hv x).trans (h.leaf_symbols hv x)

/-- A codeword has fewer bits than the tree has leaves (R81). -/
theorem codeTable_length_le (hn : 2 ≤ s.leafCount.toNat) (x : Byte) :
    ((codeTable s.node s.root.toNat).at x).length ≤ s.leafCount.toNat - 1 := by
  obtain ⟨hs, -, hle, -, hr⟩ := h.shaped hv
  rw [hr]
  exact PathLaws.codeTable_length hs hn hle x

/-- Every codeword fits the 255 bits of a CODE entry (R33). -/
theorem codeTable_length_le_255 (x : Byte) : ((codeTable s.node s.root.toNat).at x).length ≤ 255 := by
  have hle := h.leafCount_le hv
  obtain hn | hn := h.leafCount_cases hv
  · exact (codeTable_leaf_length_le _ _ (h.root_tag_of_one hv hn) x).trans (by decide)
  · exact (h.codeTable_length_le hv hn x).trans (by omega)

theorem codeTable_prefixFree : prefixFree (codeTable s.node s.root.toNat) := by
  obtain ⟨hs, -, hle, -, hr⟩ := h.shaped hv
  obtain hn | hn := h.leafCount_cases hv
  · intro a b hab ha hb
    rw [h.codeTable_of_one hv hn, ite_ne_right_iff] at ha hb
    exact absurd (ha.1.trans hb.1.symm) hab
  · rw [hr]
    exact PathLaws.codeTable_prefixFree hs hn hle

end State.TreeCurrent

/-- The codes of a safe state with CODES_VALID = 1 are the code table of its current tree (R35). -/
theorem State.Inv.code_prefixFree {s : State} (h : s.Inv) (hc : s.status.codesValid = true) :
    prefixFree s.code ∧ ∀ x, (s.code.at x).length ≤ 255 := by
  have hv := h.codes.tree hc
  rw [h.codes.table hc]
  exact ⟨h.tree.codeTable_prefixFree hv, h.tree.codeTable_length_le_255 hv⟩

/-! ### The statements -/

/-- Settles O33: the table GENCODE stores holds the paths of the current tree. -/
theorem codewordsAreRootToLeafPaths : Obligations.CodewordsAreRootToLeafPaths := by
  intro s t h he hv hn x p
  rw [gencode_eq_afterGencode he hv, afterGencode_code]
  exact h.tree.codeTable_iff hv hn x p

/-- Settles O36: GENCODE keeps the invariants, so the second clause is the first one of the state it leaves. -/
theorem generatedCodesArePrefixFree : Obligations.GeneratedCodesArePrefixFree :=
  ⟨fun _ h hc => h.code_prefixFree hc, fun _ _ h he hc => ((exec_keeps_inv h he).code_prefixFree hc).1⟩

/-- Settles O37: the paths of a tree of two leaves or more fill the space of bit strings, and the one codeword of a tree
of one leaf holds no 1 bit. -/
theorem generatedCodesAreComplete : Obligations.GeneratedCodesAreComplete := by
  intro s t h he hc
  have hv := treeValid_of_gencode_codesValid he hc
  obtain ⟨hs, -, hle, -, hr⟩ := h.tree.shaped hv
  rw [gencode_eq_afterGencode he hv, afterGencode_code]
  refine ⟨fun hn => ?_, fun hn p => decodeBits_eq_none_of_true_mem fun x => ?_⟩
  · rw [hr]
    exact ⟨PathLaws.codeTable_kraft hs hn hle, fun p => PathLaws.codeTable_decompose hs hn hle _ p rfl⟩
  · rw [h.tree.codeTable_of_one hv hn]
    split <;> simp

/-- Settles O31: the frame is what GENCODE leaves unchanged, and the largest length is cut to the register's width. -/
theorem gencodeCompletes : Obligations.GencodeCompletes := by
  intro s hv
  have he := exec_gencode_of_treeValid hv
  obtain ⟨hframe, -⟩ := exec_gencode_frame he
  rw [hv] at hframe
  exact ⟨s.afterGencode, he, hframe, PathLaws.length_le_maxLength _, PathLaws.exists_maxLength _,
    BitVec.toNat_ofNat ..⟩

/-- Settles O32: the invalidation before the check has emptied the codes. -/
theorem gencodeWithoutTreeFails : Obligations.GencodeWithoutTreeFails := by
  intro s hv
  have he := exec_gencode_of_not_treeValid hv
  obtain ⟨hframe, -⟩ := exec_gencode_frame he
  rw [hv] at hframe
  exact ⟨s.afterGencodeWithoutTree, he, hframe, TableLaws.at_noCodes⟩

/-- Settles O34: it needs no invariant, since a root that is a leaf ends the walk at once. -/
theorem singleLeafGetsTheCodewordZero : Obligations.SingleLeafGetsTheCodewordZero := by
  intro s hv hleaf
  refine ⟨s.afterGencode, exec_gencode_of_treeValid hv, rfl, ?_, PathLaws.codeTable_leaf _ _ hleaf⟩
  rw [afterGencode_maxCodeLen, afterGencode_code, maxLength_codeTable_leaf _ _ hleaf]
  rfl

/-- Settles O35: a codeword is the path to its symbol's leaf, and no path of the tree is longer than 255 edges. -/
theorem codewordLengths : Obligations.CodewordLengths := by
  intro s t h he hv
  have hle := h.tree.leafCount_le hv
  have hmax := maxLength_le (h.tree.codeTable_length_le_255 hv)
  rw [gencode_eq_afterGencode he hv, afterGencode_maxCodeLen, afterGencode_code]
  refine ⟨h.tree.codeTable_ne_nil_iff hv, h.tree.codeTable_length_le hv, by omega, fun hn p k hf hk => ?_,
    fun hn x hx => ?_, BitVec.toNat_ofNat .. |>.trans (Nat.mod_eq_of_lt (by omega))⟩
  · rw [((h.tree.codeTable_iff hv hn _ p).2 ⟨k, hf, hk, rfl⟩).1]
  · have hlen := codeTable_leaf_length_le _ _ (h.tree.root_tag_of_one hv hn) x
    have hpos := List.length_pos_iff.2 hx
    omega

end Sys2Proof.Machine
end

section
/-! PROOFS. PACK, the bit packer (42_bit_packer.md): what it answers behind each of its checks, the payload of a stream,
and the sizes of both. The laws of bit strings and of the codeword stream are in Laws/Bits. -/

namespace Sys2Proof.Machine

/-! ### What PACK answers (R88, R119) -/

/-- The state PACK leaves when its checks pass (R88). -/
def State.afterPack (s : State) (b : Bits) : State := (s.storePayload b).complete none

theorem exec_pack_of_not_codesValid {s : State} (hc : s.status.codesValid = false) :
    exec .pack s = .next (s.afterError .pack .notReady) :=
  if_pos hc

/-- A source that is not empty has SRC_LEN other than 0 (R42). -/
theorem srcLen_ne_zero_of_source {s : State} {src : List Byte} (hsrc : s.source = some src) (hne : src ≠ []) :
    s.srcLen.toNat ≠ 0 := by
  rw [← source_length hsrc]
  exact mt List.length_eq_zero_iff.1 hne

section
variable {s : State} (hc : s.status.codesValid = true)
include hc

theorem exec_pack_of_not_regionsOk (hok : s.regionsOk = false) :
    exec .pack s = .next (s.afterError .pack .range) := by
  simp [exec, execPack, hc, hok, raise_eq]

variable (hok : s.regionsOk = true)
include hok

theorem exec_pack_of_srcLen_eq_zero (hlen : s.srcLen = 0) :
    exec .pack s = .next (s.afterError .pack .emptyInput) := by
  simp [exec, execPack, hc, hok, hlen, raise_eq]

variable {src : List Byte} (hsrc : s.source = some src) (hne : src ≠ [])
include hsrc hne

theorem exec_pack_of_stream_eq_none (hb : codewordStream s.code src = none) :
    exec .pack s = .next (s.afterError .pack .unknownSymbol) := by
  have hlen := srcLen_ne_zero_of_source hsrc hne
  simp [exec, execPack, hc, hok, hlen, hsrc, hb, raise_eq]

variable {b : Bits} (hb : codewordStream s.code src = some b)
include hb

theorem exec_pack_of_payload_too_long (hcap : s.dstCap.toNat < (payloadOf b).length) :
    exec .pack s = .next (s.afterError .pack .capacity) := by
  have hlen := srcLen_ne_zero_of_source hsrc hne
  simp [exec, execPack, hc, hok, hlen, hsrc, hb, hcap, raise_eq]

theorem exec_pack_of_payload_fits (hcap : (payloadOf b).length ≤ s.dstCap.toNat) :
    exec .pack s = .next (s.afterPack b) := by
  have hlen := srcLen_ne_zero_of_source hsrc hne
  simp [exec, execPack, hc, hok, hlen, hsrc, hb, Nat.not_lt.2 hcap, finish_eq, State.afterPack]

end

/-- A PACK without error has valid codes and has packed the stream of its source. -/
theorem eq_afterPack_of_err_eq_false {s t : State} {src : List Byte} (hsrc : s.source = some src)
    (he : exec .pack s = .next t) (herr : t.status.err = false) :
    s.status.codesValid = true ∧ ∃ b, codewordStream s.code src = some b ∧
      (payloadOf b).length ≤ s.dstCap.toNat ∧ t = s.afterPack b := by
  obtain ⟨-, rfl⟩ | ⟨-, -, rfl⟩ | ⟨-, -, -, rfl⟩ |
    ⟨src', hc, -, -, hsrc', ⟨-, rfl⟩ | ⟨b, hb, ⟨-, rfl⟩ | ⟨hcap, rfl⟩⟩⟩ := execPack_cases he
  · cases herr
  · cases herr
  · cases herr
  · cases herr
  · cases herr
  · obtain rfl : src = src' := Option.some.inj (hsrc.symm.trans hsrc')
    exact ⟨hc, b, hb, hcap, rfl⟩

/-! ### What a successful PACK leaves (R88) -/

theorem afterPack_frame (s : State) (b : Bits) : s.afterPack b = { s with
    status := completed s.status s.status.treeValid s.status.codesValid 0#4
    dstLen := (s.afterPack b).dstLen, padding := (s.afterPack b).padding, mem := (s.afterPack b).mem } := rfl

@[simp] theorem afterPack_mem (s : State) (b : Bits) :
    (s.afterPack b).mem = s.mem.writeBytes s.dstBase.toNat (payloadOf b) := rfl

/-- The payload has one byte per eight bits begun (R87). -/
@[simp] theorem payloadOf_length (b : Bits) : (payloadOf b).length = (b.length + 7) / 8 := (BitLaws.payloadOf_spec b).2

/-- A payload that fits DST_CAP loses nothing in DST_LEN. -/
theorem afterPack_dstLen {s : State} {b : Bits} (hcap : (payloadOf b).length ≤ s.dstCap.toNat) :
    (s.afterPack b).dstLen.toNat = (payloadOf b).length :=
  toNat_ofNat_of_le_word hcap

/-- A padding count loses nothing in PADDING. -/
@[simp] theorem afterPack_padding (s : State) (b : Bits) : (s.afterPack b).padding.toNat = paddingOf b :=
  Nat.mod_eq_of_lt (Nat.lt_succ_of_le (BitLaws.paddingOf_le b))

/-! ### The length of the codeword stream (R89) -/

/-- A stream has at least one bit per symbol. -/
theorem length_le_sum_codewords {c : Table Bits} {src : List Byte} (h : ∀ x ∈ src, c.at x ≠ []) :
    src.length ≤ (src.map fun x => (c.at x).length).sum := by
  simpa using (src.map fun x => (c.at x).length).card_nsmul_le_sum 1
    (List.forall_mem_map.2 fun x hx => List.length_pos_iff.2 (h x hx))

/-- A bound on the codewords' lengths bounds the stream. -/
theorem sum_codewords_le {c : Table Bits} {m : Nat} (h : ∀ x, (c.at x).length ≤ m) (src : List Byte) :
    (src.map fun x => (c.at x).length).sum ≤ m * src.length := by
  simpa [Nat.mul_comm] using (src.map fun x => (c.at x).length).sum_le_card_nsmul m
    (List.forall_mem_map.2 fun x _ => h x)

/-! ### The statements -/

/-- Settles O38: the payload written at DST_BASE reads back from there as the padded stream. -/
theorem packCompletes : Obligations.PackCompletes := by
  intro s src b hc hok hsrc hne hb hfit
  rw [← payloadOf_length] at hfit
  have hdst := afterPack_dstLen hfit
  have hframe := afterPack_frame s b
  rw [hc] at hframe
  refine ⟨s.afterPack b, exec_pack_of_payload_fits hc hok hsrc hne hb hfit, hframe, hdst.trans (payloadOf_length b),
    afterPack_padding s b, ⟨payloadOf b, ?_, ?_⟩, fun a ha => ?_⟩
  · rw [hdst, afterPack_mem]
    exact MemoryLaws.readBytes_writeBytes s.mem _ _
  · rw [afterPack_padding]
    exact (BitLaws.payloadOf_spec b).1
  · rw [hdst] at ha
    rw [afterPack_mem]
    exact read_writeBytes_outside _ _ _ ha

/-- Settles O39: each clause is the error of one check, and what the error leaves is the same for all of them but for
the spoiled destination. -/
theorem packErrors : Obligations.PackErrors := by
  intro s fails
  have hfails : ∀ e : Err, exec .pack s = .next (s.afterError .pack e) → fails e.code e.spoilsDestination :=
    fun e he => ⟨_, he, afterError_transfer s e .pack (.inl rfl)⟩
  refine ⟨fun hc => hfails .notReady (exec_pack_of_not_codesValid hc),
    fun hc hok => hfails .range (exec_pack_of_not_regionsOk hc hok),
    fun hc hok hlen => hfails .emptyInput (exec_pack_of_srcLen_eq_zero hc hok hlen),
    fun src hc hok hsrc hne => ⟨fun hx => ?_, fun b hb hcap => ?_⟩⟩
  · exact hfails .unknownSymbol
      (exec_pack_of_stream_eq_none hc hok hsrc hne ((BitLaws.codewordStream_eq_none ..).2 hx))
  · rw [← payloadOf_length] at hcap
    exact hfails .capacity (exec_pack_of_payload_too_long hc hok hsrc hne hb hcap)

/-- Settles O40: the bits of the payload's bytes are the padded stream, so each bit of a byte is one of the stream's. -/
theorem payloadOfStream : Obligations.PayloadOfStream := by
  refine ⟨fun c src h => (BitLaws.codewordStream_eq_some ..).2 ⟨h, rfl⟩, fun b => ?_⟩
  have hpad := BitLaws.padded_length b
  refine ⟨rfl, BitLaws.paddingOf_le b, by omega, by rw [payloadOf_length]; omega, fun k j hk hj => ?_⟩
  rw [← BitLaws.bitsOfBytes_getD _ k j hk hj, (BitLaws.payloadOf_spec b).1]

/-- Settles O41: a codeword has 1 to 255 bits, which bounds the stream; the rest is the arithmetic of padding to whole
bytes. -/
theorem packedSizes : Obligations.PackedSizes := by
  intro s t src h hsrc he herr
  obtain ⟨hc, b, hb, hcap, rfl⟩ := eq_afterPack_of_err_eq_false hsrc he herr
  rw [afterPack_dstLen hcap, afterPack_padding, payloadOf_length]
  obtain ⟨hcover, hstream⟩ := (BitLaws.codewordStream_eq_some ..).1 hb
  have hlen : b.length = (src.map fun x => (s.code.at x).length).sum := hstream ▸ BitLaws.stream_length s.code src
  have hlow := length_le_sum_codewords hcover
  have hhigh := sum_codewords_le (h.code_prefixFree hc).2 src
  have hpad := BitLaws.padded_length b
  have hpad7 := BitLaws.paddingOf_le b
  rw [← hlen] at hlow hhigh ⊢
  refine ⟨?_, rfl, hlow, hhigh, ?_, ?_⟩ <;> omega

end Sys2Proof.Machine
end

section
/-! PROOFS. UNPACK, the bit unpacker (43_bit_unpacker.md): the walk as the inverse of the codeword stream, what UNPACK
answers behind each of its checks, and what it makes of a payload that PACK wrote. The two halves of the walk's law are
in Laws/Bits. -/

namespace Sys2Proof.Machine

/-! ### The walk as the inverse of the codeword stream (R91, R92) -/

/-- In a table that meets R82 the walk finds exactly the symbols whose stream the bits are. -/
theorem decodeBits_eq_some_iff {c : Table Bits} (hpf : prefixFree c) {p : Bits} {out : List Byte} :
    decodeBits c [] p = some out ↔ codewordStream c out = some p :=
  ⟨BitLaws.decodeBits_sound c p [] out, fun h => BitLaws.decodeBits_complete c hpf p [] out h (.inl rfl)⟩

/-- In a table that meets R82 the walk fails exactly on the bits that are no symbols' stream. -/
theorem decodeBits_eq_none_iff {c : Table Bits} (hpf : prefixFree c) {p : Bits} :
    decodeBits c [] p = none ↔ ∀ out, codewordStream c out ≠ some p := by
  simp only [Option.eq_none_iff_forall_ne_some, ne_eq, decodeBits_eq_some_iff hpf]

/-- The stripped bits of a source (R90), by the length SRC_LEN gives it. -/
theorem strippedBits_source {s : State} {pay : List Byte} (hpay : s.source = some pay) (p : Nat) :
    strippedBits pay p = (bitsOfBytes pay).take (8 * s.srcLen.toNat - p) := by
  rw [strippedBits, source_length hpay]

/-! ### What UNPACK answers (R93, R119) -/

/-- The state UNPACK leaves when its checks pass (R93). -/
def State.afterUnpack (s : State) (out : List Byte) : State := (s.storeSymbols out).complete none

theorem exec_unpack_of_not_codesValid {s : State} (hc : s.status.codesValid = false) :
    exec .unpack s = .next (s.afterError .unpack .notReady) :=
  if_pos hc

section
variable {s : State} (hc : s.status.codesValid = true)
include hc

theorem exec_unpack_of_not_regionsOk (hok : s.regionsOk = false) :
    exec .unpack s = .next (s.afterError .unpack .range) := by
  simp [exec, execUnpack, hc, hok, raise_eq]

variable (hok : s.regionsOk = true)
include hok

theorem exec_unpack_of_padding_too_long (hpad : 8 * s.srcLen.toNat < s.padding.toNat) :
    exec .unpack s = .next (s.afterError .unpack .decode) := by
  simp [exec, execUnpack, hc, hok, hpad, raise_eq]

variable (hpad : s.padding.toNat ≤ 8 * s.srcLen.toNat) {pay : List Byte} (hpay : s.source = some pay)
include hpad hpay

theorem exec_unpack_of_walk_eq_none (hd : decodeBits s.code [] (strippedBits pay s.padding.toNat) = none) :
    exec .unpack s = .next (s.afterError .unpack .decode) := by
  simp [exec, execUnpack, hc, hok, Nat.not_lt.2 hpad, hpay, hd, raise_eq]

variable {out : List Byte} (hd : decodeBits s.code [] (strippedBits pay s.padding.toNat) = some out)
include hd

theorem exec_unpack_of_symbols_too_many (hcap : s.dstCap.toNat < out.length) :
    exec .unpack s = .next (s.afterError .unpack .capacity) := by
  simp [exec, execUnpack, hc, hok, Nat.not_lt.2 hpad, hpay, hd, hcap, raise_eq]

theorem exec_unpack_of_symbols_fit (hcap : out.length ≤ s.dstCap.toNat) :
    exec .unpack s = .next (s.afterUnpack out) := by
  simp [exec, execUnpack, hc, hok, Nat.not_lt.2 hpad, hpay, hd, Nat.not_lt.2 hcap, finish_eq, State.afterUnpack]

end

/-! ### What a successful UNPACK leaves (R93) -/

theorem afterUnpack_frame (s : State) (out : List Byte) : s.afterUnpack out = { s with
    status := completed s.status s.status.treeValid s.status.codesValid 0#4
    dstLen := (s.afterUnpack out).dstLen, mem := (s.afterUnpack out).mem } := rfl

@[simp] theorem afterUnpack_err (s : State) (out : List Byte) : (s.afterUnpack out).status.err = false := rfl

@[simp] theorem afterUnpack_mem (s : State) (out : List Byte) :
    (s.afterUnpack out).mem = s.mem.writeBytes s.dstBase.toNat out := rfl

/-- A number of symbols that fits DST_CAP loses nothing in DST_LEN. -/
theorem afterUnpack_dstLen {s : State} {out : List Byte} (hcap : out.length ≤ s.dstCap.toNat) :
    (s.afterUnpack out).dstLen.toNat = out.length :=
  toNat_ofNat_of_le_word hcap

/-- The symbols stand at DST_BASE. -/
theorem afterUnpack_readBytes (s : State) (out : List Byte) :
    (s.afterUnpack out).mem.readBytes s.dstBase.toNat out.length = some out := by
  rw [afterUnpack_mem]
  exact MemoryLaws.readBytes_writeBytes s.mem _ _

/-! ### The payload of a successful PACK as a source (R94) -/

/-- A state whose source region names the payload a PACK wrote reads that payload. -/
theorem source_of_afterPack {s u : State} {b : Bits} (hcap : (payloadOf b).length ≤ s.dstCap.toNat)
    (hmem : u.mem = (s.afterPack b).mem) (hbase : u.srcBase = (s.afterPack b).dstBase)
    (hlen : u.srcLen = (s.afterPack b).dstLen) : u.source = some (payloadOf b) := by
  rw [State.source, hmem, hbase, hlen, afterPack_dstLen hcap, afterPack_mem]
  exact MemoryLaws.readBytes_writeBytes s.mem _ _

/-- The padding of a stream is within the bits of its payload. -/
theorem paddingOf_le_payload_bits (b : Bits) : paddingOf b ≤ 8 * (payloadOf b).length := by
  have hpadded := BitLaws.padded_length b
  rw [payloadOf_length]
  omega

/-! ### The statements -/

/-- Settles O44: the stripped bits of PACK's payload are the stream it packed, and the walk turns a stream back into
its symbols. -/
theorem unpackRestoresWhatPackPacked : Obligations.UnpackRestoresWhatPackPacked := by
  intro s t u src hpf hsrc he herr hc hcode hpadding _ hmem hbase hlen hok hfit
  obtain ⟨-, b, hb, hcap, rfl⟩ := eq_afterPack_of_err_eq_false hsrc he herr
  have hpay := source_of_afterPack hcap hmem hbase hlen
  have hpad : u.padding.toNat = paddingOf b := by rw [hpadding, afterPack_padding]
  have hwalk : decodeBits u.code [] (strippedBits (payloadOf b) u.padding.toNat) = some src := by
    rw [hcode, hpad, BitLaws.strippedBits_payloadOf]
    exact (decodeBits_eq_some_iff hpf).2 hb
  have hle : u.padding.toNat ≤ 8 * u.srcLen.toNat := by
    rw [hpad, ← source_length hpay]
    exact paddingOf_le_payload_bits b
  exact ⟨u.afterUnpack src, exec_unpack_of_symbols_fit hc hok hle hpay hwalk hfit, afterUnpack_err u src,
    afterUnpack_dstLen hfit, afterUnpack_readBytes u src⟩

/-- Settles O42: the walk finds the symbols whose stream the stripped bits are, and they read back from DST_BASE. -/
theorem unpackCompletes : Obligations.UnpackCompletes := by
  intro s pay out hc hok hpad hpay hpf hb hfit
  rw [← strippedBits_source hpay, ← decodeBits_eq_some_iff hpf] at hb
  have hframe := afterUnpack_frame s out
  rw [hc] at hframe
  refine ⟨s.afterUnpack out, exec_unpack_of_symbols_fit hc hok hpad hpay hb hfit, hframe, afterUnpack_dstLen hfit,
    afterUnpack_readBytes s out, fun a ha => ?_⟩
  rw [afterUnpack_mem]
  exact read_writeBytes_outside _ _ _ ha

/-- Settles O43: each clause is the error of one check, and what the error leaves is the same for all of them but for
the spoiled destination. -/
theorem unpackErrors : Obligations.UnpackErrors := by
  intro s fails
  have hfails : ∀ e : Err, exec .unpack s = .next (s.afterError .unpack e) → fails e.code e.spoilsDestination :=
    fun e he => ⟨_, he, afterError_transfer s e .unpack (.inr rfl)⟩
  refine ⟨fun hc => hfails .notReady (exec_unpack_of_not_codesValid hc),
    fun hc hok => hfails .range (exec_unpack_of_not_regionsOk hc hok),
    fun hc hok hpad => hfails .decode (exec_unpack_of_padding_too_long hc hok hpad),
    fun pay hc hok hpad hpay hpf => ?_⟩
  rw [← strippedBits_source hpay]
  refine ⟨fun hno => ?_, fun out hb hcap => ?_⟩
  · exact hfails .decode (exec_unpack_of_walk_eq_none hc hok hpad hpay ((decodeBits_eq_none_iff hpf).2 hno))
  · exact hfails .capacity
      (exec_unpack_of_symbols_too_many hc hok hpad hpay ((decodeBits_eq_some_iff hpf).2 hb) hcap)

end Sys2Proof.Machine
end

section
/-! PROOFS. The header (44_container.md section 1): the parser as the inverse of the header text. What each production
of the parser reads is in Laws/Header. -/

namespace Sys2Proof.Machine

open HeaderLaws

/-! ### The parser as the inverse of the header text (R96, R97) -/

/-- The values of words are in range, so R97's conditions ask only for their order and for counts other than 0. -/
theorem entriesValid_values (l : List (Byte × Word)) : entriesValid (values l) = true ↔
    (l.Pairwise fun e f => e.1.toNat < f.1.toNat) ∧ ∀ e ∈ l, e.2 ≠ 0 := by
  rw [entriesValid_iff, values, List.pairwise_map, List.forall_mem_map, and_comm]
  refine and_congr_right fun _ => forall₂_congr fun e _ => ?_
  have hsym : e.1.toNat < 256 := e.1.isLt
  have hcount : e.2.toNat < 4294967296 := e.2.isLt
  rw [ne_eq, ← BitVec.toNat_inj]
  simp only [BitVec.ofNat_eq_ofNat, BitVec.toNat_ofNat, Nat.zero_mod]
  omega

@[simp] theorem values_length (l : List (Byte × Word)) : (values l).length = l.length := List.length_map ..

/-- The parser reads the text of valid entries and a padding back (R96, R97). -/
theorem parseHeader_headerText {l : List (Byte × Word)} (hne : l ≠ []) (hv : entriesValid (values l) = true)
    (p : BitVec 3) : parseHeader (headerText l p) = some (l, p) := by
  have hopen : expect headerOpen (headerText l p) =
      some (entriesText l ++ (headerMiddle ++ (dec p.toNat ++ headerClose))) := expect_append ..
  have hfuel : (values l).length ≤ (headerText l p).length := by
    have := length_le_entriesSpelled (values l)
    rw [entriesSpelled_values] at this
    simp only [headerText, List.length_append]
    omega
  have hentries := parseEntries_spelled (values l) _ (headerMiddle ++ (dec p.toNat ++ headerClose))
    (mt List.map_eq_nil_iff.1 hne) hfuel rfl
  rw [entriesSpelled_values] at hentries
  have hpad := (parsePad_eq_some (dec p.toNat ++ headerClose) headerClose p).2 rfl
  simp only [parseHeader, hopen, hentries, expect_append, hpad, hv, and_self, if_true, ofNat_values]

/-- What the parser accepts is the text of the valid entries and the padding it returns (R96, R97). -/
theorem parseHeader_spells {h : List Byte} {l : List (Byte × Word)} {p : BitVec 3}
    (hp : parseHeader h = some (l, p)) : h = headerText l p ∧ l ≠ [] ∧ entriesValid (values l) = true := by
  unfold parseHeader at hp
  split at hp; · cases hp
  rename_i h1 hopen
  split at hp; · cases hp
  rename_i raw h2 hentries
  split at hp; · cases hp
  rename_i h3 hmiddle
  split at hp; · cases hp
  rename_i q h4 hpad
  split at hp
  next hend =>
    obtain ⟨rfl, hvalid⟩ := hend
    simp only [Option.some.injEq, Prod.mk.injEq] at hp
    obtain ⟨rfl, rfl⟩ := hp
    rw [expect_eq_some] at hopen hmiddle
    obtain ⟨rfl, hne⟩ := parseEntries_spells _ _ _ _ hentries
    have hvalues := values_ofNat raw ((entriesValid_iff raw).1 hvalid).1
    rw [parsePad_eq_some] at hpad
    refine ⟨?_, mt List.map_eq_nil_iff.1 hne, by rw [hvalues]; exact hvalid⟩
    rw [headerText, ← entriesSpelled_values, hvalues, hopen, hmiddle, hpad]
  next => cases hp

/-- Settles O49, by the two directions of the parser, with R97's conditions said of words. -/
theorem parseHeaderInvertsHeaderText : Obligations.ParseHeaderInvertsHeaderText := by
  intro h l p
  rw [← entriesValid_values]
  constructor
  · exact parseHeader_spells
  · rintro ⟨rfl, hne, hv⟩
    exact parseHeader_headerText hne hv p

end Sys2Proof.Machine
end

section
/-! PROOFS. SERIALIZE and DESERIALIZE (44_container.md section 2): what the two commands answer behind each of their
checks, what the container's bytes say, and that DESERIALIZE of what SERIALIZE wrote restores it. -/

namespace Sys2Proof.Machine

/-! ### Bytes of a region (R42) -/

/-- Within a region that reads as `v`, a part reads as the same part of `v`. -/
theorem readBytes_slice {m : Memory} {base n k j : Nat} {v : List Byte} (hv : m.readBytes base n = some v)
    (hkj : k + j ≤ n) : m.readBytes (base + k) j = some ((v.drop k).take j) := by
  obtain ⟨hlen, hread⟩ := (MemoryLaws.readBytes_eq_some ..).1 hv
  refine (MemoryLaws.readBytes_eq_some ..).2 ⟨by simp; omega, fun i hi => ?_⟩
  rw [Nat.add_assoc, hread (k + i) (by omega), List.getElem?_take_of_lt hi, List.getElem?_drop]

/-! ### The length word of a container (R11, R63) -/

/-- The bytes of a register word, as the bus numbers them, are the word in little-endian order (R11, R43). -/
theorem bytesOfWord_ofNat (n : Nat) : bytesOfWord (BitVec.ofNat 32 n) = le32 n := by
  simp only [bytesOfWord, le32, List.cons.injEq, and_true]
  refine ⟨?_, ?_, ?_, ?_⟩ <;> refine BitVec.eq_of_toNat_eq ?_ <;>
    simp only [BitVec.extractLsb'_toNat, BitVec.toNat_ofNat, Nat.shiftRight_eq_div_pow] <;> omega

/-- A container's first four bytes give back the length they were made from (R63). -/
theorem headerLength_le32_append {n : Nat} (hn : n < 2 ^ 32) (v : List Byte) : headerLength (le32 n ++ v) = n := by
  simp only [headerLength, le32, List.cons_append, List.getD_cons_zero, List.getD_cons_succ, BitVec.toNat_ofNat]
  omega

/-! ### The frequency table of an entry list (R99) -/

/-- A list in ascending order without a 0 count is the frequency list of the table made of it (R30, R99). -/
theorem freqList_tableOf {l : List (Byte × Word)} (hasc : l.Pairwise fun e f => e.1.toNat < f.1.toNat)
    (hnz : ∀ e ∈ l, e.2 ≠ 0) : freqList (tableOf l) = l := by
  have hnodup : (l.map Prod.fst).Nodup :=
    List.pairwise_map.2 (hasc.imp fun hlt heq => absurd (congrArg BitVec.toNat heq) hlt.ne)
  have hmem : ∀ e, e ∈ freqList (tableOf l) ↔ e ∈ l := by
    rintro ⟨x, c⟩
    rw [TableLaws.mem_freqList]
    constructor
    · rintro ⟨hx, hc⟩
      by_cases hin : ∃ d, (x, d) ∈ l
      · obtain ⟨d, hd⟩ := hin
        rwa [← hx, tableOf, TableLaws.at_putAll_of_mem l _ x d hnodup hd]
      · refine absurd (hx.symm.trans ?_) hc
        rw [tableOf, TableLaws.at_putAll_of_not_mem l _ x (fun e he hex => hin ⟨e.2, hex ▸ he⟩), TableLaws.at_noCounts]
        rfl
    · intro he
      exact ⟨TableLaws.at_putAll_of_mem l _ x c hnodup he, hnz _ he⟩
  have hirrefl : Std.Irrefl fun e f : Byte × Word => e.1.toNat < f.1.toNat := ⟨fun _ => Nat.lt_irrefl _⟩
  exact (TableLaws.freqList_pairwise _).eq_of_mem_iff hasc hmem

/-! ### What SERIALIZE answers (R98, R119) -/

/-- The header SERIALIZE writes: that of FREQ and PADDING (R98). -/
def State.header (s : State) : List Byte := headerText (freqList s.freq) s.padding

/-- The state SERIALIZE leaves when its checks pass (R98). -/
def State.afterSerialize (s : State) (pay : List Byte) : State := (s.storeContainer s.header pay).complete none

theorem exec_serialize_of_not_regionsOk {s : State} (hok : s.regionsOk = false) :
    exec .serialize s = .next (s.afterError .serialize .range) :=
  if_pos hok

section
variable {s : State} (hok : s.regionsOk = true)
include hok

theorem exec_serialize_of_freq_eq_nil (hl : freqList s.freq = []) :
    exec .serialize s = .next (s.afterError .serialize .emptyInput) := by
  simp [exec, execSerialize, hok, hl, raise_eq]

variable (hne : freqList s.freq ≠ [])
include hne

theorem exec_serialize_of_container_too_long (hcap : s.dstCap.toNat < 4 + s.header.length + s.srcLen.toNat) :
    exec .serialize s = .next (s.afterError .serialize .capacity) := by
  rw [State.header] at hcap
  simp [exec, execSerialize, hok, hne, hcap, raise_eq]

theorem exec_serialize_of_container_fits {pay : List Byte} (hpay : s.source = some pay)
    (hcap : 4 + s.header.length + pay.length ≤ s.dstCap.toNat) :
    exec .serialize s = .next (s.afterSerialize pay) := by
  rw [State.header, source_length hpay] at hcap
  simp [exec, execSerialize, hok, hne, Nat.not_lt.2 hcap, hpay, finish_eq, State.afterSerialize, State.header]

end

/-- A SERIALIZE without error has passed its checks and written the container of its source. -/
theorem eq_afterSerialize_of_err_eq_false {s t : State} (he : exec .serialize s = .next t)
    (herr : t.status.err = false) : ∃ pay, s.regionsOk = true ∧ freqList s.freq ≠ [] ∧ s.source = some pay ∧
      4 + s.header.length + pay.length ≤ s.dstCap.toNat ∧ t = s.afterSerialize pay := by
  obtain ⟨-, rfl⟩ | ⟨-, -, rfl⟩ | ⟨-, -, -, rfl⟩ | ⟨pay, hok, hne, hcap, hpay, rfl⟩ := execSerialize_cases he
  · cases herr
  · cases herr
  · cases herr
  · rw [← source_length hpay] at hcap
    exact ⟨pay, hok, hne, hpay, hcap, rfl⟩

/-! ### What a successful SERIALIZE leaves (R98) -/

/-- What storing a container and completing leaves unchanged, whatever the header is. -/
theorem storeContainer_complete_frame (s : State) (hdr pay : List Byte) : (s.storeContainer hdr pay).complete none =
    let t := (s.storeContainer hdr pay).complete none
    { s with
      status := completed s.status s.status.treeValid s.status.codesValid 0#4
      dstLen := t.dstLen, hdrLen := t.hdrLen, payloadOff := t.payloadOff, payloadLen := t.payloadLen
      mem := t.mem } := rfl

/-- What a SERIALIZE without error leaves unchanged. -/
theorem afterSerialize_frame (s : State) (pay : List Byte) : s.afterSerialize pay = { s with
    status := completed s.status s.status.treeValid s.status.codesValid 0#4
    dstLen := (s.afterSerialize pay).dstLen, hdrLen := (s.afterSerialize pay).hdrLen
    payloadOff := (s.afterSerialize pay).payloadOff, payloadLen := (s.afterSerialize pay).payloadLen
    mem := (s.afterSerialize pay).mem } :=
  storeContainer_complete_frame s s.header pay

theorem afterSerialize_mem (s : State) (pay : List Byte) :
    (s.afterSerialize pay).mem = s.mem.writeBytes s.dstBase.toNat (containerOf s.header pay) := by
  rw [State.afterSerialize, complete_mem, storeContainer_mem]

theorem afterSerialize_cfg (s : State) (pay : List Byte) : (s.afterSerialize pay).cfg = s.cfg := by
  rw [State.afterSerialize, complete_cfg, storeContainer_cfg]

theorem afterSerialize_dstBase (s : State) (pay : List Byte) : (s.afterSerialize pay).dstBase = s.dstBase := by
  rw [State.afterSerialize, complete_dstBase, storeContainer_dstBase]

/-- The payload is the source, so PAYLOAD_LEN is SRC_LEN. -/
theorem afterSerialize_payloadLen {s : State} {pay : List Byte} (hpay : s.source = some pay) :
    (s.afterSerialize pay).payloadLen = s.srcLen := by
  have hlen := source_length hpay
  exact BitVec.eq_of_toNat_eq ((toNat_ofNat_of_le_word hlen.le).trans hlen)

section
variable {s : State} {pay : List Byte} (hcap : 4 + s.header.length + pay.length ≤ s.dstCap.toNat)
include hcap

theorem afterSerialize_hdrLen : (s.afterSerialize pay).hdrLen.toNat = s.header.length :=
  toNat_ofNat_of_le_word (w := s.dstCap) (by omega)

theorem afterSerialize_payloadOff : (s.afterSerialize pay).payloadOff.toNat = 4 + s.header.length :=
  toNat_ofNat_of_le_word (w := s.dstCap) (by omega)

theorem afterSerialize_dstLen : (s.afterSerialize pay).dstLen.toNat = 4 + s.header.length + pay.length :=
  toNat_ofNat_of_le_word hcap

end

/-- The container stands at DST_BASE. -/
theorem afterSerialize_readBytes (s : State) (pay : List Byte) :
    (s.afterSerialize pay).mem.readBytes s.dstBase.toNat (4 + s.header.length + pay.length) =
      some (containerOf s.header pay) := by
  rw [afterSerialize_mem, ← containerOf_length]
  exact MemoryLaws.readBytes_writeBytes s.mem _ _

/-! ### What DESERIALIZE answers (R99, R119) -/

/-- The state DESERIALIZE leaves when its source `c` parses to the entries `l` and the padding `p` (R99). -/
def State.afterDeserialize (s : State) (c : List Byte) (l : List (Byte × Word)) (p : BitVec 3) : State :=
  (s.loadArtifact l p (headerLength c) s.srcLen.toNat).complete none

theorem exec_deserialize_of_not_srcOk {s : State} (hok : s.srcOk = false) :
    exec .deserialize s = .next (s.afterError .deserialize .range) :=
  if_pos hok

section
variable {s : State} (hok : s.srcOk = true)
include hok

theorem exec_deserialize_of_no_length_word (hlen : s.srcLen.toNat < 4) :
    exec .deserialize s = .next (s.afterError .deserialize .format) := by
  simp [exec, execDeserialize, hok, hlen, raise_eq]

variable (hlen : 4 ≤ s.srcLen.toNat) {c : List Byte} (hc : s.source = some c)
include hlen hc

theorem exec_deserialize_of_header_too_long (hrun : s.srcLen.toNat < 4 + headerLength c) :
    exec .deserialize s = .next (s.afterError .deserialize .format) := by
  have hlong : s.srcLen.toNat - 4 < headerLength c := by omega
  simp [exec, execDeserialize, hok, Nat.not_lt.2 hlen, hc, hlong, raise_eq]

variable (hfit : 4 + headerLength c ≤ s.srcLen.toNat)
include hfit

theorem exec_deserialize_of_parse_eq_none (hp : parseHeader ((c.drop 4).take (headerLength c)) = none) :
    exec .deserialize s = .next (s.afterError .deserialize .format) := by
  have hshort : headerLength c ≤ s.srcLen.toNat - 4 := by omega
  simp [exec, execDeserialize, hok, Nat.not_lt.2 hlen, hc, Nat.not_lt.2 hshort, hp, raise_eq]

theorem exec_deserialize_of_parse_eq_some {l : List (Byte × Word)} {p : BitVec 3}
    (hp : parseHeader ((c.drop 4).take (headerLength c)) = some (l, p)) :
    exec .deserialize s = .next (s.afterDeserialize c l p) := by
  have hshort : headerLength c ≤ s.srcLen.toNat - 4 := by omega
  simp [exec, execDeserialize, hok, Nat.not_lt.2 hlen, hc, Nat.not_lt.2 hshort, hp, finish_eq, State.afterDeserialize]

end

/-! ### What a successful DESERIALIZE leaves (R99) -/

theorem afterDeserialize_frame (s : State) (c : List Byte) (l : List (Byte × Word)) (p : BitVec 3) :
    s.afterDeserialize c l p =
      let t := s.afterDeserialize c l p
      { s with
        status := completed s.status false false 0#4
        freq := t.freq, padding := p, code := t.code, maxCodeLen := 0
        root := 0, nodeCount := 0, leafCount := 0
        hdrLen := t.hdrLen, payloadOff := t.payloadOff, payloadLen := t.payloadLen } := rfl

section
variable {s : State} {c : List Byte} (hfit : 4 + headerLength c ≤ s.srcLen.toNat) (l : List (Byte × Word))
  (p : BitVec 3)
include hfit

theorem afterDeserialize_hdrLen : (s.afterDeserialize c l p).hdrLen.toNat = headerLength c :=
  toNat_ofNat_of_le_word (w := s.srcLen) (by omega)

theorem afterDeserialize_payloadOff : (s.afterDeserialize c l p).payloadOff.toNat = 4 + headerLength c :=
  toNat_ofNat_of_le_word hfit

theorem afterDeserialize_payloadLen :
    (s.afterDeserialize c l p).payloadLen.toNat = s.srcLen.toNat - 4 - headerLength c :=
  toNat_ofNat_of_le_word (w := s.srcLen) (by omega)

end

/-! ### The container of a successful SERIALIZE as a source (R100, R102) -/

/-- The length word of a container, read from a stretch of it that holds the word. -/
theorem headerLength_take_containerOf {hdr : List Byte} (hlen : hdr.length < 2 ^ 32) (pay : List Byte) {n : Nat}
    (hn : 4 ≤ n) : headerLength ((containerOf hdr pay).take n) = hdr.length := by
  have hword : (le32 hdr.length).take n = le32 hdr.length := List.take_of_length_le hn
  rw [containerOf, List.take_append, hword]
  exact headerLength_le32_append hlen _

theorem headerLength_containerOf {hdr : List Byte} (hlen : hdr.length < 2 ^ 32) (pay : List Byte) :
    headerLength (containerOf hdr pay) = hdr.length :=
  headerLength_le32_append hlen _

/-- The header stands behind the length word. -/
theorem header_of_containerOf (hdr pay : List Byte) : ((containerOf hdr pay).drop 4).take hdr.length = hdr := by
  rw [show (containerOf hdr pay).drop 4 = hdr ++ pay from rfl, List.take_left]

/-- The payload stands behind the header. -/
theorem payload_of_containerOf (hdr pay : List Byte) :
    ((containerOf hdr pay).drop (4 + hdr.length)).take pay.length = pay := by
  rw [← List.drop_drop, show (containerOf hdr pay).drop 4 = hdr ++ pay from rfl, List.drop_left, List.take_length]

/-- The header of a table that is not empty parses to its frequency list and the padding (R30, R97). -/
theorem parseHeader_header {s : State} (hne : freqList s.freq ≠ []) :
    parseHeader s.header = some (freqList s.freq, s.padding) :=
  (parseHeaderInvertsHeaderText _ _ _).2
    ⟨rfl, hne, TableLaws.freqList_pairwise _, fun _ he => ((TableLaws.mem_freqList _ _ _).1 he).2⟩

/-- A header that fits DST_CAP has a length that four bytes hold (R63). -/
theorem header_length_lt {s : State} {pay : List Byte} (hcap : 4 + s.header.length + pay.length ≤ s.dstCap.toNat) :
    s.header.length < 2 ^ 32 :=
  have hword : s.dstCap.toNat < 2 ^ 32 := s.dstCap.isLt
  by omega

/-- A state whose source region is a first part of the container a SERIALIZE wrote reads that part of it. -/
theorem source_of_afterSerialize {s u : State} {pay : List Byte} (hok : s.regionsOk = true)
    (hcap : 4 + s.header.length + pay.length ≤ s.dstCap.toNat) (hcfg : u.cfg = (s.afterSerialize pay).cfg)
    (hmem : u.mem = (s.afterSerialize pay).mem) (hbase : u.srcBase = (s.afterSerialize pay).dstBase)
    (hlen : u.srcLen.toNat ≤ 4 + s.header.length + pay.length) :
    u.srcOk = true ∧ u.source = some ((containerOf s.header pay).take u.srcLen.toNat) := by
  have hdst := destination_in_dmem hok
  rw [afterSerialize_cfg] at hcfg
  rw [afterSerialize_dstBase] at hbase
  constructor
  · rw [State.srcOk, inRange, decide_eq_true_iff, hcfg, hbase]
    omega
  · rw [State.source, hmem, hbase]
    exact readBytes_slice (k := 0) (afterSerialize_readBytes s pay) (by omega)

/-! ### BUILD and GENCODE from the same FREQ (R76, R100) -/

/-- BUILD, and GENCODE after it, make the same tree and the same codes from the same FREQ. -/
theorem build_gencode_of_freq_eq {s w : State} (hf : s.freq = w.freq) (hne : freqList s.freq ≠ []) :
    ∃ x y, exec .build s = .next x ∧ exec .build w = .next y ∧
      x.root = y.root ∧ x.nodeCount = y.nodeCount ∧ x.leafCount = y.leafCount ∧
      (∀ i, i < x.nodeCount.toNat → x.node.at i = y.node.at i) ∧
      ∃ x' y', exec .gencode x = .next x' ∧ exec .gencode y = .next y' ∧ x'.code = y'.code := by
  have hx := exec_build_of_ne_nil hne
  have hy := exec_build_of_ne_nil (s := w) (hf ▸ hne)
  obtain ⟨hroot, hnodes, hleaves, -, -, hnode⟩ := buildDependsOnFreqAlone s w _ _ hf hx hy
  refine ⟨_, _, hx, hy, hroot, hnodes, hleaves, hnode, _, _, exec_gencode_of_treeValid rfl,
    exec_gencode_of_treeValid rfl, ?_⟩
  obtain ⟨hshape, hpos, -, hcount, hlast⟩ := (treeCurrent_afterBuild hne).shaped rfl
  rw [afterGencode_code, afterGencode_code, ← hroot, hlast]
  exact PathLaws.codeTable_congr hshape hpos _ fun i hi => hnode i (hcount ▸ hi)

/-! ### The statements -/

/-- Settles O51: the container reads back as its header, which parses to the frequency list and the padding, and the
table of a frequency list is the table it came from. -/
theorem deserializeRestoresWhatSerializeWrote : Obligations.DeserializeRestoresWhatSerializeWrote := by
  intro s t u he herr hcfg hmem hbase hlen
  obtain ⟨pay, hok, hne, hpay, hcap, rfl⟩ := eq_afterSerialize_of_err_eq_false he herr
  have hlen : u.srcLen.toNat = 4 + s.header.length + pay.length := by rw [hlen, afterSerialize_dstLen hcap]
  obtain ⟨hsrcOk, hsrc⟩ := source_of_afterSerialize hok hcap hcfg hmem hbase hlen.le
  rw [List.take_of_length_le (by rw [containerOf_length, hlen])] at hsrc
  have hH := headerLength_containerOf (header_length_lt hcap) pay
  have hparse : parseHeader (((containerOf s.header pay).drop 4).take (headerLength (containerOf s.header pay))) =
      some (freqList s.freq, s.padding) := by
    rw [hH, header_of_containerOf, parseHeader_header hne]
  have hfit : 4 + headerLength (containerOf s.header pay) ≤ u.srcLen.toNat := by omega
  set w := u.afterDeserialize (containerOf s.header pay) (freqList s.freq) s.padding
  have hfreq : w.freq = s.freq := TableLaws.tableOf_freqList s.freq
  have hwH : w.hdrLen.toNat = s.header.length := (afterDeserialize_hdrLen hfit _ _).trans hH
  have hwoff : w.payloadOff.toNat = 4 + s.header.length := by rw [afterDeserialize_payloadOff hfit, hH]
  have hwlen : w.payloadLen.toNat = pay.length := by rw [afterDeserialize_payloadLen hfit, hH]; omega
  refine ⟨w, exec_deserialize_of_parse_eq_some hsrcOk (by omega) hsrc hfit hparse, rfl, hfreq, rfl, hwH,
    by rw [hwoff, hwH], BitVec.eq_of_toNat_eq (hwlen.trans (source_length hpay)), ?_, ?_⟩
  · have hread := readBytes_slice (k := 4 + s.header.length) (j := pay.length) (afterSerialize_readBytes s pay) le_rfl
    rw [payload_of_containerOf] at hread
    rw [hwoff, hwlen, hpay, hbase, afterSerialize_dstBase, ← hread, ← hmem]
    rfl
  · exact build_gencode_of_freq_eq hfreq.symm hne

/-- Settles O45: the container written at DST_BASE reads back from there, and its length word is HDR_LEN's. -/
theorem serializeCompletes : Obligations.SerializeCompletes := by
  intro s pay hok hne hpay hcap
  have hframe := afterSerialize_frame s pay
  rw [afterSerialize_payloadLen hpay] at hframe
  have hH := afterSerialize_hdrLen hcap
  have hdst := afterSerialize_dstLen hcap
  refine ⟨s.afterSerialize pay, exec_serialize_of_container_fits hok hne hpay hcap, hframe, hH,
    by rw [hH, afterSerialize_payloadOff hcap], by rw [hH, hdst], ?_, fun a ha => ?_⟩
  · have hword : bytesOfWord (s.afterSerialize pay).hdrLen = le32 s.header.length := bytesOfWord_ofNat _
    rw [hdst, afterSerialize_readBytes, hword, List.append_assoc, containerOf, State.header]
  · rw [hdst, ← containerOf_length] at ha
    rw [afterSerialize_mem]
    exact read_writeBytes_outside _ _ _ ha

/-- Settles O46: each clause is the error of one check, and every error of SERIALIZE leaves the same but for its
code. -/
theorem serializeErrors : Obligations.SerializeErrors := by
  intro s fails
  have hfails : ∀ e : Err, exec .serialize s = .next (s.afterError .serialize e) → fails e.code :=
    fun e he => he.trans (by rw [afterError_serialize])
  refine ⟨fun hok => hfails .range (exec_serialize_of_not_regionsOk hok),
    fun hok hzero => hfails .emptyInput (exec_serialize_of_freq_eq_nil hok ((TableLaws.freqList_eq_nil _).2 hzero)),
    fun hok hne hcap => hfails .capacity (exec_serialize_of_container_too_long hok hne hcap)⟩

/-- Settles O47: what parses is in ascending order without a 0 count, so the table made of it has it as its frequency
list. -/
theorem deserializeCompletes : Obligations.DeserializeCompletes := by
  intro s c l p hok hc hlen hfit hp
  obtain ⟨-, -, hasc, hnz⟩ := (parseHeaderInvertsHeaderText _ _ _).1 hp
  rw [source_length hc] at hlen hfit ⊢
  exact ⟨s.afterDeserialize c l p, exec_deserialize_of_parse_eq_some hok hlen hc hfit hp,
    afterDeserialize_frame s c l p, freqList_tableOf hasc hnz, TableLaws.at_noCodes, afterDeserialize_hdrLen hfit l p,
    afterDeserialize_payloadOff hfit l p, afterDeserialize_payloadLen hfit l p⟩

/-- Settles O48: each clause is the error of one check, and every error of DESERIALIZE leaves the same but for its
code. -/
theorem deserializeErrors : Obligations.DeserializeErrors := by
  intro s fails
  have hfails : ∀ e : Err, exec .deserialize s = .next (s.afterError .deserialize e) → fails e.code :=
    fun e he => he.trans (by rw [afterError_deserialize])
  refine ⟨fun hok => hfails .range (exec_deserialize_of_not_srcOk hok),
    fun hok hlen => hfails .format (exec_deserialize_of_no_length_word hok hlen), fun c hok hc hlen hbad => ?_⟩
  rw [source_length hc] at hlen hbad
  by_cases hrun : s.srcLen.toNat < 4 + headerLength c
  · exact hfails .format (exec_deserialize_of_header_too_long hok hlen hc hrun)
  · exact hfails .format
      (exec_deserialize_of_parse_eq_none hok hlen hc (Nat.not_lt.1 hrun) (hbad.resolve_left hrun))

/-- Settles O52: a source shorter than the length word is refused for that, and a longer one holds the length word of
the whole header. -/
theorem truncatedContainerIsRefused : Obligations.TruncatedContainerIsRefused := by
  intro s t u he herr hcfg hmem hbase hcut
  obtain ⟨pay, hok, -, -, hcap, rfl⟩ := eq_afterSerialize_of_err_eq_false he herr
  rw [afterSerialize_hdrLen hcap] at hcut
  obtain ⟨hsrcOk, hsrc⟩ := source_of_afterSerialize hok hcap hcfg hmem hbase (by omega)
  have hrefused : exec .deserialize u = .next (u.afterError .deserialize .format) := by
    by_cases hlen : u.srcLen.toNat < 4
    · exact exec_deserialize_of_no_length_word hsrcOk hlen
    · refine exec_deserialize_of_header_too_long hsrcOk (Nat.not_lt.1 hlen) hsrc ?_
      rwa [headerLength_take_containerOf (header_length_lt hcap) pay (Nat.not_lt.1 hlen)]
  exact ⟨_, hrefused, rfl, rfl, rfl⟩

/-- Settles O55, by the two ends of DESERIALIZE: an error, which clears the container registers, or the artifact
loaded. -/
theorem deserializeFrame : Obligations.DeserializeFrame := by
  intro s t he
  cases exec_ends he with
  | error _ e =>
    refine ⟨?_, fun _ => rfl, fun _ => ⟨rfl, rfl, rfl, rfl, rfl, rfl, rfl, rfl, rfl⟩⟩
    exact afterError_deserialize s e
  | deserialize => exact ⟨rfl, fun _ => rfl, fun herr => nomatch herr⟩

end Sys2Proof.Machine
end

section
/-! PROOFS. The host interface (45_host_interface.md): the engine's turn, a command word accepted, the host's accesses
to the registers and to DMEM, how a command completes, and frequency analysis. -/

namespace Sys2Proof.Machine

/-! ### The engine's turn (R109) -/

theorem engineTurn_of_busy {s : State} {i : Instr} (hb : s.status.busy = true)
    (hi : ofOpcode s.status.lastOp = some i) : engineTurn s = exec i s := by
  rw [engineTurn, if_pos hb, State.pendingInstr, hi]

theorem engineTurn_of_idle {s : State} (hb : s.status.busy = false) : engineTurn s = .next s :=
  if_neg (Bool.eq_false_iff.1 hb)

/-- With no move to come, the step is the engine's turn. -/
theorem step_of_empty {s : State} (h : s.inbox = []) : step s = engineTurn s := by
  rw [step, h]

/-- With an engine move first in the inbox, the step is the engine's turn. -/
theorem step_of_engine {s : State} {ms : List Move} (h : s.inbox = .engine :: ms) :
    step s = engineTurn (s.setInbox ms) := by
  rw [step, h]; rfl

/-- Settles O3: both kinds of step are the engine's turn, which BUSY enables. -/
theorem stepRunsThePendingCommand : Obligations.StepRunsThePendingCommand := by
  refine ⟨fun s i hb hi => ⟨fun hin => ?_, fun ms hin => ?_⟩, fun s hb => ⟨fun hin => ?_, fun ms hin => ?_⟩⟩
  · exact (step_of_empty hin).trans (engineTurn_of_busy hb hi)
  · exact (step_of_engine hin).trans (engineTurn_of_busy (s := s.setInbox ms) hb hi)
  · exact (step_of_empty hin).trans (engineTurn_of_idle hb)
  · exact (step_of_engine hin).trans (engineTurn_of_idle (s := s.setInbox ms) hb)

/-! ### Register accesses (R103, R104, R105) -/

section
variable {s : State} {o : Nat} {ms : List Move} (h4 : o % 4 = 0) (h8 : o < 0x8000)
include h4 h8

theorem regAccessLegal_eq_true : regAccessLegal 32 o = true := by
  simp [regAccessLegal, h4, h8]

theorem step_of_regRead (h : s.inbox = .host (.regRead 32 o) :: ms) :
    step s = .next ((s.setInbox ms).reply (.word (s.readReg (regLoc o)))) :=
  (step_of_host h).trans (if_pos (regAccessLegal_eq_true h4 h8))

variable {v : Word} (h : s.inbox = .host (.regWrite 32 o v) :: ms)
include h

theorem step_of_regWrite : step s = .next ((s.setInbox ms).regWrite (regLoc o) v) :=
  (step_of_host h).trans (if_pos (regAccessLegal_eq_true h4 h8))

theorem step_of_regWrite_idle (hb : s.status.busy = false) :
    step s = .next ((s.setInbox ms).regWriteIdle v (regLoc o)) :=
  (step_of_regWrite h4 h8 h).trans (congrArg _ (if_neg (Bool.eq_false_iff.1 hb)))

theorem step_of_regWrite_busy (hb : s.status.busy = true) :
    step s = .next ((s.setInbox ms).regWriteBusy (regLoc o)) :=
  (step_of_regWrite h4 h8 h).trans (congrArg _ (if_pos hb))

end

/-! ### A command word accepted (R108) -/

theorem acceptCommand_of_decode (s : State) {v : Word} {i : Instr} (hv : decode v = .ok i) :
    s.acceptCommand v = HostLaws.started s i := by
  rw [State.acceptCommand, hv, ((decode_eq_ok v i).1 hv).2, HostLaws.started]

/-- An illegal word completes at once with ILLEGAL_CMD. -/
theorem acceptCommand_of_illegal (s : State) {v : Word} (hv : ∀ i, decode v ≠ .ok i) :
    s.acceptCommand v = s.setStatus ((s.status.accept (opField v)).complete (some .illegalCmd)) := by
  rw [State.acceptCommand]
  split
  · exact absurd ‹_› (hv _)
  · rfl

/-- The engine finds the command that was accepted. -/
theorem engineTurn_started (s : State) (i : Instr) :
    engineTurn (HostLaws.started s i) = exec i (HostLaws.started s i) :=
  engineTurn_of_busy rfl ((ofOpcode_eq_some _ i).2 rfl)

/-- A word is legal by its number: nothing above OP, and OP one of 1 to 6 (R60). -/
theorem exists_decode_iff (v : Word) :
    (∃ i, decode v = .ok i) ↔ v.toNat / 16 = 0 ∧ 1 ≤ v.toNat % 16 ∧ v.toNat % 16 ≤ 6 := by
  have hrsvd : rsvdField v = 0#28 ↔ v.toNat / 16 = 0 := by
    rw [← BitVec.toNat_inj, rsvdField, BitVec.extractLsb'_toNat, Nat.shiftRight_eq_div_pow, BitVec.toNat_ofNat]
    omega
  have hop : (opField v).toNat = v.toNat % 16 := BitVec.extractLsb'_toNat ..
  simp only [decode_eq_ok, exists_and_left, exists_opcode_iff, hrsvd, hop]

/-- Settles O6: the word is that of a command, which starts, or of none, which completes at once. -/
theorem commandWriteIsAccepted : Obligations.CommandWriteIsAccepted := by
  intro s v ms hin legal
  refine ⟨fun hb => ?_, fun hb => step_of_regWrite_busy rfl (by decide) hin hb⟩
  have haccept : step s = .next ((s.setInbox ms).acceptCommand v) := step_of_regWrite_idle rfl (by decide) hin hb
  rw [haccept]
  by_cases hv : ∃ i, decode v = .ok i
  · have hlegal : legal = true := decide_eq_true ((exists_decode_iff v).1 hv)
    obtain ⟨i, hi⟩ := hv
    rw [hlegal, acceptCommand_of_decode _ hi, HostLaws.started, ← ((decode_eq_ok v i).1 hi).2]
    rfl
  · have hlegal : legal = false := decide_eq_false (mt (exists_decode_iff v).2 hv)
    rw [hlegal, acceptCommand_of_illegal _ (not_exists.1 hv)]
    rfl

/-- Settles O4: the write leaves the block started on the command, and the engine's move is next. -/
theorem acceptedWordRunsItsCommand : Obligations.AcceptedWordRunsItsCommand := by
  intro s v i ms hb hv hin
  have haccept : step s = .next ((s.setInbox (.engine :: ms)).acceptCommand v) :=
    step_of_regWrite_idle rfl (by decide) hin hb
  rw [acceptCommand_of_decode _ hv] at haccept
  exact ⟨_, haccept, rfl, (step_of_engine rfl).trans (engineTurn_started (s.setInbox ms) i)⟩

/-- The word of a 32-bit row of the opcode table is the row itself. -/
theorem tableWord_toNat (v : Word) : tableWord 32 v.toNat = v := by
  rw [tableWord, Nat.mod_eq_of_lt v.isLt, BitVec.ofNat_toNat, BitVec.setWidth_eq]

/-- `withFetchWord` of a command's word starts the command, whatever moves it puts into the inbox. -/
theorem exists_withFetchWord_encode (s : State) (i : Instr) :
    ∃ ms, s.withFetchWord 32 (encode i).toNat = (HostLaws.started s i).setInbox ms ∧
      (s.inbox = [] → ms = []) ∧ ∀ m ms', s.inbox = m :: ms' → ms = .engine :: m :: ms' := by
  rw [State.withFetchWord, tableWord_toNat, acceptCommand_of_decode s ((decode_eq_ok_iff_encode _ i).2 rfl)]
  refine ⟨_, rfl, fun hin => by rw [hin], fun m ms' hin => by rw [hin]⟩

/-- Settles O5: the engine is next to move, and finds the command started. -/
theorem fetchWordRunsItsCommand : Obligations.FetchWordRunsItsCommand := by
  intro s i
  obtain ⟨ms, hfetch, hempty, hmoves⟩ := exists_withFetchWord_encode s i
  rw [hfetch]
  refine ⟨rfl, fun hin => ?_, fun m ms' hin => ?_⟩
  · rw [hempty hin]
    exact (step_of_empty rfl).trans (engineTurn_started (s.setInbox []) i)
  · rw [hmoves m ms' hin]
    exact (step_of_engine rfl).trans (engineTurn_started (s.setInbox (m :: ms')) i)

/-! ### The register map (R18) -/

theorem regLoc_codeLen (x : Byte) : regLoc (0x800 + 4 * x.toNat) = .codeLen x := by
  have hx : x.toNat < 256 := x.isLt
  rw [regLoc, if_neg (by omega), if_neg (by omega), if_pos (by omega), Nat.add_sub_cancel_left,
    Nat.mul_div_cancel_left _ (by decide), BitVec.ofNat_toNat, BitVec.setWidth_eq]

theorem regLoc_codeBits (x : Byte) {w : Nat} (hw : w < 8) : regLoc (0x1000 + 32 * x.toNat + 4 * w) = .codeBits x w := by
  have hx : x.toNat < 256 := x.isLt
  have hsym : (0x1000 + 32 * x.toNat + 4 * w - 0x1000) / 32 = x.toNat := by omega
  have hword : (0x1000 + 32 * x.toNat + 4 * w - 0x1000) % 32 / 4 = w := by omega
  rw [regLoc, if_neg (by omega), if_neg (by omega), if_neg (by omega), if_neg (by omega), if_pos (by omega), hsym,
    hword, BitVec.ofNat_toNat, BitVec.setWidth_eq]

/-- The four words of an arena record. -/
theorem regLoc_node {i k : Nat} (hi : i < 511) (hk : k < 4) : regLoc (0x3000 + 4 * k + 16 * i) = nodeWord i k := by
  have hrec : (0x3000 + 4 * k + 16 * i - 0x3000) / 16 = i := by omega
  have hword : (0x3000 + 4 * k + 16 * i - 0x3000) % 16 / 4 = k := by omega
  rw [regLoc, if_neg (by omega), if_neg (by omega), if_neg (by omega), if_neg (by omega), if_neg (by omega),
    if_pos (by omega), hrec, hword]

theorem regOfWord_reserved {k : Nat} (hk : 16 ≤ k) : regOfWord k = .reserved := by
  obtain ⟨j, rfl⟩ := Nat.exists_eq_add_of_le' hk
  rfl

theorem regLoc_reserved {o : Nat} (ho : (0x40 ≤ o ∧ o < 0x400) ∨ (0xC00 ≤ o ∧ o < 0x1000) ∨ 0x4FF0 ≤ o) :
    regLoc o = .reserved := by
  obtain ⟨hlow, hhigh⟩ | ⟨hlow, hhigh⟩ | hlow := ho
  · rw [regLoc, if_pos hhigh, regOfWord_reserved (by omega)]
  · rw [regLoc, if_neg (by omega), if_neg (by omega), if_neg (by omega), if_pos hhigh]
  · rw [regLoc, if_neg (by omega), if_neg (by omega), if_neg (by omega), if_neg (by omega), if_neg (by omega),
      if_neg (by omega)]

/-- Settles O8: the answer is the register of the offset's place in the map. -/
theorem registerReadReturnsTheMappedWord : Obligations.RegisterReadReturnsTheMappedWord := by
  intro s o ms h4 h8 hin
  have hword : ∀ {k : Nat} (l : RegLoc), regLoc k = l → o = k → s.readReg (regLoc o) = s.readReg l := by
    rintro k l rfl rfl; rfl
  have hfield : ∀ {k n : Nat} (l : RegLoc) (x : BitVec n), n ≤ 32 → s.readReg l = x.setWidth 32 → regLoc k = l →
      o = k → (s.readReg (regLoc o)).toNat = x.toNat := fun l x hn hx hl hk => by
    rw [hword l hl hk, hx, BitVec.toNat_setWidth_of_le hn]
  exact ⟨s.readReg (regLoc o), step_of_regRead h4 h8 hin, hword .id rfl, hword .cmd rfl, hword .status rfl,
    hword .srcBase rfl, hword .srcLen rfl, hword .dstBase rfl, hword .dstCap rfl, hword .dstLen rfl,
    hfield .padding _ (by decide) rfl rfl, hfield .root _ (by decide) rfl rfl, hfield .nodeCount _ (by decide) rfl rfl,
    hfield .leafCount _ (by decide) rfl rfl, hword .hdrLen rfl, hword .payloadOff rfl, hword .payloadLen rfl,
    hfield .maxCodeLen _ (by decide) rfl rfl, fun x => hword (.freq x) (RegLaws.regLoc_freq x),
    fun x => hword _ (regLoc_codeLen x), fun x w hw => hword _ (regLoc_codeBits x hw),
    fun i hi => ⟨hword _ (regLoc_node hi (k := 0) (by decide)), hword _ (regLoc_node hi (k := 1) (by decide)),
      hword _ (regLoc_node hi (k := 2) (by decide)), hword _ (regLoc_node hi (k := 3) (by decide))⟩,
    fun ho => hword _ (regLoc_reserved ho) rfl⟩

/-- The places whose write an idle block ignores (R104). -/
def RegLoc.ignoresWrite : RegLoc → Bool
  | .cmd | .srcBase | .srcLen | .dstBase | .dstCap | .padding | .freq _ => false
  | _ => true

theorem regWriteIdle_of_ignoresWrite (s : State) (v : Word) {l : RegLoc} (h : l.ignoresWrite = true) :
    s.regWriteIdle v l = s := by
  cases l with
  | cmd | srcBase | srcLen | dstBase | dstCap | padding | freq => cases h
  | _ => rfl

/-- Of the words below FREQ, a write sets CMD, SRC_BASE, SRC_LEN, DST_BASE, DST_CAP and PADDING alone. -/
theorem regOfWord_ignoresWrite {k : Nat} (hk : k ≠ 1 ∧ k ≠ 3 ∧ k ≠ 4 ∧ k ≠ 5 ∧ k ≠ 6 ∧ k ≠ 8) :
    (regOfWord k).ignoresWrite = true := by
  have hnamed : ∀ k < 16, k ≠ 1 ∧ k ≠ 3 ∧ k ≠ 4 ∧ k ≠ 5 ∧ k ≠ 6 ∧ k ≠ 8 → (regOfWord k).ignoresWrite = true := by
    decide
  by_cases hlow : k < 16
  · exact hnamed k hlow hk
  · rw [regOfWord_reserved (Nat.not_lt.1 hlow)]
    rfl

/-- Settles O12: below FREQ by the words of the map, above it because nothing there is written. -/
theorem registerWriteWhileIdle : Obligations.RegisterWriteWhileIdle := by
  intro s o v ms h4 h8 hb hin
  rw [step_of_regWrite_idle h4 h8 hin hb]
  refine ⟨?_, ?_, ?_, ?_, ?_, fun h1 h3 h4' h5 h6 h8' hplace => ?_⟩
  · rintro rfl; rfl
  · rintro rfl; rfl
  · rintro rfl; rfl
  · rintro rfl; rfl
  · rintro rfl; rfl
  · obtain hlow | hhigh := hplace
    · rw [regLoc, if_pos hlow, regWriteIdle_of_ignoresWrite _ _ (regOfWord_ignoresWrite (by omega))]
      rfl
    · rw [RegLaws.regWriteIdle_high _ _ _ hhigh]
      rfl

/-- Settles O13: CMD stands at offset 4 alone. -/
theorem registerWriteWhileBusy : Obligations.RegisterWriteWhileBusy := by
  intro s o v ms h4 h8 hb hin
  rw [step_of_regWrite_busy h4 h8 hin hb]
  refine ⟨fun ho => ?_, fun ho => ?_⟩
  · rw [State.regWriteBusy, if_pos ((RegLaws.regLoc_cmd o h4).2 ho)]
    rfl
  · rw [State.regWriteBusy, if_neg (mt (RegLaws.regLoc_cmd o h4).1 ho)]
    rfl

/-- Settles O14: the count is put into FREQ and the tree invalidated, after which no record can be read. -/
theorem freqWriteInvalidates : Obligations.FreqWriteInvalidates := by
  intro s x v ms hb hin
  have hx : x.toNat < 256 := x.isLt
  have hstep := step_of_regWrite_idle (by omega) (by omega) hin hb
  rw [RegLaws.regLoc_freq] at hstep
  refine ⟨(s.setInbox ms).hostFreqWrite x v, hstep, rfl, fun y => ?_, TableLaws.at_noCodes, fun i => ?_⟩
  · exact (TableLaws.at_put s.freq x y v).trans (if_congr eq_comm rfl rfl)
  · refine (nodeReadbackWords _ i).2 ?_
    rintro ⟨hv, -⟩
    cases hv

/-! ### DMEM accesses (R107) -/

theorem inRegion_iff (a : Nat) (base len : Word) :
    inRegion a base len = true ↔ base.toNat ≤ a ∧ a < base.toNat + len.toNat := by
  simp [inRegion]

/-- The active regions by LASTOP: source and destination of PACK, UNPACK and SERIALIZE, source of DESERIALIZE. -/
theorem activeAt_iff (s : State) (a : Nat) : s.activeAt a = true ↔
    ((s.status.lastOp = 3#4 ∨ s.status.lastOp = 4#4 ∨ s.status.lastOp = 5#4) ∧
      (inRegion a s.srcBase s.srcLen = true ∨ inRegion a s.dstBase s.dstCap = true)) ∨
    (s.status.lastOp = 6#4 ∧ inRegion a s.srcBase s.srcLen = true) := by
  rw [State.activeAt]
  cases hi : s.pendingInstr with
  | none =>
    have hop : ∀ i, s.status.lastOp ≠ opcode i := fun i hop => by
      rw [State.pendingInstr, (ofOpcode_eq_some _ i).2 hop] at hi
      cases hi
    simp [show s.status.lastOp ≠ 3#4 from hop .pack, show s.status.lastOp ≠ 4#4 from hop .unpack,
      show s.status.lastOp ≠ 5#4 from hop .serialize, show s.status.lastOp ≠ 6#4 from hop .deserialize]
  | some i =>
    rw [(ofOpcode_eq_some _ i).1 hi]
    cases i <;> simp [opcode]

theorem dmemFault_of_outside {s : State} {a : Nat} (h : s.cfg.dmemSize ≤ a) : s.dmemFault a = some .badHostAccess :=
  if_pos h

theorem dmemFault_of_active {s : State} {a : Nat} (h : a < s.cfg.dmemSize)
    (ha : s.status.busy = true ∧ s.activeAt a = true) : s.dmemFault a = some .hostRace := by
  rw [State.dmemFault, if_neg (Nat.not_le.2 h), if_pos (Bool.and_eq_true_iff.2 ha)]

theorem dmemFault_of_free {s : State} {a : Nat} (h : a < s.cfg.dmemSize)
    (ha : ¬ (s.status.busy = true ∧ s.activeAt a = true)) : s.dmemFault a = none := by
  rw [State.dmemFault, if_neg (Nat.not_le.2 h), if_neg (mt Bool.and_eq_true_iff.1 ha)]

/-- Settles O15: the two checks in their order, and behind them the byte. -/
theorem dmemAccessOutcomes : Obligations.DmemAccessOutcomes := by
  intro s a b ms src dst active
  have hactive : active ↔ s.status.busy = true ∧ (s.setInbox ms).activeAt a = true := by
    rw [activeAt_iff, inRegion_iff, inRegion_iff]
    rfl
  have hread : ∀ f, (s.setInbox ms).dmemFault a = some f → hostAccess (.dmemRead a) (s.setInbox ms) = .fault f :=
    fun f hf => by rw [hostAccess, hf]
  have hwrite : ∀ f, (s.setInbox ms).dmemFault a = some f → hostAccess (.dmemWrite a b) (s.setInbox ms) = .fault f :=
    fun f hf => by rw [hostAccess, hf]
  refine ⟨fun hin => ?_, fun hin => ?_⟩ <;> rw [step_of_host hin]
  · refine ⟨fun h => hread _ (dmemFault_of_outside h), fun h ha => hread _ (dmemFault_of_active h (hactive.1 ha)),
      fun h ha => ?_⟩
    rw [hostAccess, dmemFault_of_free (s := s.setInbox ms) h (mt hactive.2 ha), setInbox_mem]
    cases s.mem.read a <;> rfl
  · refine ⟨fun h => hwrite _ (dmemFault_of_outside h), fun h ha => hwrite _ (dmemFault_of_active h (hactive.1 ha)),
      fun h ha => ⟨(s.setInbox ms).setMem (s.mem.write a b), ?_, rfl, fun a' => ?_⟩⟩
    · rw [hostAccess, dmemFault_of_free (s := s.setInbox ms) h (mt hactive.2 ha)]
      rfl
    · exact (MemoryLaws.read_write s.mem a a' b).trans (if_congr eq_comm rfl rfl)

/-! ### How a command completes (R109, R115) -/

/-- The outcomes R115 lets a command have. -/
def outcomesOf : Instr → List (Option Err)
  | .build => [none, some .emptyInput]
  | .gencode => [none, some .notReady]
  | .pack => [none, some .notReady, some .range, some .emptyInput, some .unknownSymbol, some .capacity]
  | .unpack => [none, some .notReady, some .range, some .decode, some .capacity]
  | .serialize => [none, some .range, some .emptyInput, some .capacity]
  | .deserialize => [none, some .range, some .format]

/-- `t` is a completion of command `i`, with one of its outcomes and with DROP and LASTOP as in `s`. -/
def CompletesFrom (i : Instr) (s t : State) : Prop :=
  ∃ u : State, ∃ e ∈ outcomesOf i, t = u.complete e ∧ u.status.drop = s.status.drop ∧ u.status.lastOp = s.status.lastOp

theorem completesFrom_complete {i : Instr} {s u : State} {e : Option Err} (he : e ∈ outcomesOf i := by decide)
    (hdrop : u.status.drop = s.status.drop := by rfl) (hop : u.status.lastOp = s.status.lastOp := by rfl) :
    CompletesFrom i s (u.complete e) :=
  ⟨u, e, he, rfl, hdrop, hop⟩

/-- The effects of an error keep DROP and LASTOP (R118). -/
theorem completesFrom_afterError {i : Instr} {s : State} {e : Err} (he : some e ∈ outcomesOf i := by decide) :
    CompletesFrom i s (s.afterError i e) := by
  refine completesFrom_complete he ?_ ?_ <;> cases i <;> cases e <;> rfl

/-- Every command that answers completes, with one of its outcomes. -/
theorem exec_completesFrom {i : Instr} {s t : State} (h : exec i s = .next t) : CompletesFrom i s t := by
  cases i with
  | build =>
    obtain ⟨-, rfl⟩ | ⟨-, rfl⟩ := execBuild_cases h
    · exact completesFrom_complete
    · exact completesFrom_complete
  | gencode =>
    obtain ⟨-, rfl⟩ | ⟨-, rfl⟩ := execGencode_cases h
    · exact completesFrom_complete
    · exact completesFrom_complete
  | pack =>
    obtain ⟨-, rfl⟩ | ⟨-, -, rfl⟩ | ⟨-, -, -, rfl⟩ |
      ⟨src, -, -, -, -, ⟨-, rfl⟩ | ⟨b, -, ⟨-, rfl⟩ | ⟨-, rfl⟩⟩⟩ := execPack_cases h
    · exact completesFrom_afterError
    · exact completesFrom_afterError
    · exact completesFrom_afterError
    · exact completesFrom_afterError
    · exact completesFrom_afterError
    · exact completesFrom_complete
  | unpack =>
    obtain ⟨-, rfl⟩ | ⟨-, -, rfl⟩ | ⟨-, -, -, rfl⟩ |
      ⟨pay, -, -, -, -, ⟨-, rfl⟩ | ⟨out, -, ⟨-, rfl⟩ | ⟨-, rfl⟩⟩⟩ := execUnpack_cases h
    · exact completesFrom_afterError
    · exact completesFrom_afterError
    · exact completesFrom_afterError
    · exact completesFrom_afterError
    · exact completesFrom_afterError
    · exact completesFrom_complete
  | serialize =>
    obtain ⟨-, rfl⟩ | ⟨-, -, rfl⟩ | ⟨-, -, -, rfl⟩ | ⟨pay, -, -, -, -, rfl⟩ := execSerialize_cases h
    · exact completesFrom_afterError
    · exact completesFrom_afterError
    · exact completesFrom_afterError
    · exact completesFrom_complete
  | deserialize =>
    obtain ⟨-, rfl⟩ | ⟨-, -, rfl⟩ | ⟨c, -, -, -, ⟨-, rfl⟩ | ⟨-, -, rfl⟩ | ⟨l, p, -, -, rfl⟩⟩ := execDeserialize_cases h
    · exact completesFrom_afterError
    · exact completesFrom_afterError
    · exact completesFrom_afterError
    · exact completesFrom_afterError
    · exact completesFrom_complete

/-- Settles O20: the flags are those of a completion, and the codes those of the command's outcomes. -/
theorem completionStatus : Obligations.CompletionStatus := by
  intro i s t h
  obtain ⟨u, e, he, rfl, hdrop, hop⟩ := exec_completesFrom h
  refine ⟨rfl, rfl, (InvLaws.legal_complete u.status e).err_iff, hdrop, hop, ?_⟩
  have hcode : errCodeOf e ∈ (outcomesOf i).map errCodeOf := List.mem_map_of_mem he
  cases i <;> exact hcode

/-- Settles O21: LASTOP names a command, which completes or meets a byte without a value. -/
theorem pendingCommandCompletes : Obligations.PendingCommandCompletes := by
  intro s h hb hin
  obtain ⟨i, hi⟩ := h.status.busy_command hb
  rw [step_of_empty hin, engineTurn_of_busy hb hi]
  obtain ⟨t, ht⟩ | hfault := exec_outcome i s
  · obtain ⟨hbusy, hdone, -⟩ := completionStatus i s t ht
    exact .inl ⟨t, ht, hbusy, hdone⟩
  · exact .inr hfault

/-! ### Frequency analysis (R110) -/

theorem analyze_eq_none_iff (input : List Byte) : analyze input = none ↔ input = [] := by
  simp [analyze]

/-- The table of an input below 2^32 bytes counts its symbols. -/
theorem analyze_counts {input : List Byte} {f : Table Word} (hf : analyze input = some f)
    (hlen : input.length < 2 ^ 32) (x : Byte) : (f.at x).toNat = input.count x := by
  have hcount := HostLaws.foldl_countSymbol input noCounts x (by simpa using hlen)
  rw [analyze] at hf
  split at hf
  · cases hf
  · obtain rfl := Option.some.inj hf
    simpa using hcount

/-- The 256 FREQ writes leave FREQ as the table written, on a block that stays idle. -/
theorem loadFreq_idle (f : Table Word) {s : State} (hb : s.status.busy = false) :
    ∃ t, runMoves (loadFreq f) s = .next t ∧ t.freq = f ∧ t.status.busy = false ∧ t.mem = s.mem ∧ t.cfg = s.cfg := by
  obtain ⟨t, ht, hfreq, hbusy, hmem, hcfg⟩ := HostLaws.writes_idle f.pairs s hb
  exact ⟨t, ht, hfreq.trans (HostLaws.putAll_pairs f s.freq), hbusy, hmem, hcfg⟩

/-- Settles O56, from the fold of Analyze and the run of the writes. -/
theorem analyzeCountsSymbols : Obligations.AnalyzeCountsSymbols := by
  refine ⟨analyze_eq_none_iff, fun input f hf hlen => ⟨analyze_counts hf hlen, fun s hb => ?_⟩⟩
  obtain ⟨t, ht, hfreq, hbusy, hmem, -⟩ := loadFreq_idle f hb
  exact ⟨t, ht, hfreq, hbusy, hmem⟩

end Sys2Proof.Machine
end

section
/-! PROOFS. The round trip (45_host_interface.md R114): each stage of COMPRESS and of DECOMPRESS as the state it leaves,
what COMPRESS has written when it ends, and what DECOMPRESS makes of it. -/

namespace Sys2Proof.Machine

open HostLaws

/-! ### The stages of a sequence (R111, R112) -/

/-- The state behind `WAIT`: the command's, with the answer of the one read of STATUS. -/
def State.polled (s : State) : State := s.reply (.word s.status.word)

@[simp] theorem polled_status (s : State) : s.polled.status = s.status := rfl

@[simp] theorem started_status (s : State) (i : Instr) :
    (started s i).status = (s.status.accept (opcode i)).start := rfl

/-- The state in which the engine finds a command accepted behind the four operand writes. -/
def State.loaded (s : State) (src srcLen dst dstCap : Word) (i : Instr) : State :=
  started ((((s.setSrcBase src).setSrcLen srcLen).setDstBase dst).setDstCap dstCap) i

/-- `t` agrees with `s` on what the stages of a sequence hand on to the next ones. -/
structure KeepsData (s t : State) : Prop where
  cfg : t.cfg = s.cfg
  mem : t.mem = s.mem
  freq : t.freq = s.freq
  padding : t.padding = s.padding
  payloadOff : t.payloadOff = s.payloadOff
  payloadLen : t.payloadLen = s.payloadLen

theorem KeepsData.trans {s t u : State} (h : KeepsData s t) (h' : KeepsData t u) : KeepsData s u :=
  ⟨h'.cfg.trans h.cfg, h'.mem.trans h.mem, h'.freq.trans h.freq, h'.padding.trans h.padding,
    h'.payloadOff.trans h.payloadOff, h'.payloadLen.trans h.payloadLen⟩

theorem keepsData_polled (s : State) : KeepsData s s.polled := ⟨rfl, rfl, rfl, rfl, rfl, rfl⟩

theorem keepsData_started (s : State) (i : Instr) : KeepsData s (started s i) := ⟨rfl, rfl, rfl, rfl, rfl, rfl⟩

theorem keepsData_afterBuild (s : State) : KeepsData s s.afterBuild := ⟨rfl, rfl, rfl, rfl, rfl, rfl⟩

theorem keepsData_afterGencode (s : State) : KeepsData s s.afterGencode := ⟨rfl, rfl, rfl, rfl, rfl, rfl⟩

/-- A stage that ends in a command without error goes on from the state that command leaves. -/
theorem stage_run {ms : List Move} {s u t : State} {i : Instr} (hm : runMoves ms s = .next u)
    (hb : u.status.busy = false) (he : exec i (started u i) = .next t) (herr : t.status.err = false)
    (k : State → SeqResult) : stage (ms ++ lineRun i) k s = k t.polled :=
  stage_next ((runMoves_append hm _).trans (lineRun_idle i hb he)) herr k

/-- Likewise for a stage that writes the operand registers before its command. -/
theorem stage_transfer {s t : State} {src srcLen dst dstCap : Word} {i : Instr} (hb : s.status.busy = false)
    (he : exec i (s.loaded src srcLen dst dstCap i) = .next t) (herr : t.status.err = false) (k : State → SeqResult) :
    stage (loadRegions src srcLen dst dstCap ++ lineRun i) k s = k t.polled :=
  stage_run (loadRegions_idle src srcLen dst dstCap s hb) hb he herr k

/-- The two regions lie in DMEM and have no address in common (R48). -/
structure RegionsFit (c : Config) (src srcLen dst dstCap : Word) : Prop where
  src_le : src.toNat + srcLen.toNat ≤ c.dmemSize
  dst_le : dst.toNat + dstCap.toNat ≤ c.dmemSize
  disjoint : disjointRegions src srcLen dst dstCap

/-- Regions without a common address do not overlap: the larger of two bases would be one. -/
theorem overlap_of_disjointRegions {a la b lb : Word} (h : disjointRegions a la b lb) :
    overlap a.toNat la.toNat b.toNat lb.toNat = false := by
  have hmax := h (max a.toNat b.toNat)
  rw [← Bool.not_eq_true]
  simp only [overlap, Bool.and_eq_true, decide_eq_true_eq]
  omega

namespace RegionsFit

variable {c : Config} {src srcLen dst dstCap : Word}

/-- Regions that fit pass the check of a transfer command (R48). -/
theorem regionsOk {s : State} (h : RegionsFit s.cfg src srcLen dst dstCap) (i : Instr) :
    (s.loaded src srcLen dst dstCap i).regionsOk = true := by
  have hsrc : inRange s.cfg.dmemSize src.toNat srcLen.toNat = true := decide_eq_true h.src_le
  have hdst : inRange s.cfg.dmemSize dst.toNat dstCap.toNat = true := decide_eq_true h.dst_le
  have hover := overlap_of_disjointRegions h.disjoint
  simp [State.regionsOk, State.srcOk, State.dstOk, State.disjointOk, State.loaded, started, hsrc, hdst, hover]

/-- A part of the source region fits where the whole does. -/
theorem of_source_part (h : RegionsFit c src srcLen dst dstCap) {part partLen : Word} (hbase : src.toNat ≤ part.toNat)
    (hend : part.toNat + partLen.toNat ≤ src.toNat + srcLen.toNat) : RegionsFit c part partLen dst dstCap where
  src_le := hend.trans h.src_le
  dst_le := h.dst_le
  disjoint := fun x hx => h.disjoint x (by omega)

end RegionsFit

/-! ### BUILD and GENCODE, the stages the two sequences share -/

/-- The codes that BUILD, and GENCODE after it, make of FREQ. -/
def State.builtCodes (s : State) : Table Bits := s.afterBuild.afterGencode.code

@[simp] theorem afterBuild_status (s : State) :
    s.afterBuild.status = (((s.status.setCodesValid false).setTreeValid false).setTreeValid true).complete none := rfl

@[simp] theorem afterGencode_status (s : State) :
    s.afterGencode.status = ((s.status.setCodesValid false).setCodesValid true).complete none := rfl

/-- They are those of the current tree of FREQ: they meet R82, have at most 255 bits each, and cover the
symbols with a count. -/
theorem builtCodes_spec {s : State} (hne : freqList s.freq ≠ []) :
    prefixFree s.builtCodes ∧ (∀ x, (s.builtCodes.at x).length ≤ 255) ∧
      ∀ x, s.builtCodes.at x ≠ [] ↔ s.freq.at x ≠ 0 :=
  have htree := treeCurrent_afterBuild hne
  ⟨htree.codeTable_prefixFree rfl, htree.codeTable_length_le_255 rfl, htree.codeTable_ne_nil_iff rfl⟩

/-- They depend on FREQ alone (R76). -/
theorem builtCodes_congr {s w : State} (hf : s.freq = w.freq) (hne : freqList s.freq ≠ []) :
    s.builtCodes = w.builtCodes := by
  obtain ⟨x, y, hx, hy, -, -, -, -, x', y', hx', hy', hcode⟩ := build_gencode_of_freq_eq hf hne
  obtain rfl := Host.Outcome.next.inj ((exec_build_of_ne_nil hne).symm.trans hx)
  obtain rfl := Host.Outcome.next.inj ((exec_build_of_ne_nil (hf ▸ hne)).symm.trans hy)
  rwa [gencode_eq_afterGencode hx' rfl, gencode_eq_afterGencode hy' rfl] at hcode

/-- `t` is an idle block with the codes of `s`'s FREQ, and keeps what the next stages go on with. -/
structure CodesReady (s t : State) : Prop extends KeepsData s t where
  busy : t.status.busy = false
  codesValid : t.status.codesValid = true
  code : t.code = s.builtCodes

/-- Behind moves that leave an idle block with a count in FREQ, the two stages make its codes. -/
theorem stage_build_gencode {ms : List Move} {s u : State} (hm : runMoves ms s = .next u) (hb : u.status.busy = false)
    (hne : freqList u.freq ≠ []) :
    ∃ t, CodesReady u t ∧ ∀ k, stage (ms ++ lineRun .build) (stage (lineRun .gencode) k) s = k t := by
  have hbuild := exec_build_of_ne_nil (s := started u .build) hne
  have hgencode := exec_gencode_of_treeValid (s := started (started u .build).afterBuild.polled .gencode) (by simp)
  refine ⟨_, ?_, fun k => (stage_run hm hb hbuild (by simp) _).trans
    (stage_run (ms := []) rfl (by simp) hgencode (by simp) k)⟩
  have hcode : (started (started u .build).afterBuild.polled .gencode).afterGencode.polled.code =
      (started u .build).builtCodes := rfl
  refine ⟨?_, by simp, by simp, hcode.trans (builtCodes_congr rfl hne)⟩
  exact (keepsData_started u .build).trans <| (keepsData_afterBuild _).trans <| (keepsData_polled _).trans <|
    (keepsData_started _ .gencode).trans <| (keepsData_afterGencode _).trans (keepsData_polled _)

/-- An input whose symbols all have a count has a stream, and its payload has 1 to 32 bytes per symbol (R89). -/
theorem exists_stream {s : State} {input : List Byte} (hcount : ∀ x ∈ input, s.freq.at x ≠ 0) (hne : input ≠ [])
    (hfreq : freqList s.freq ≠ []) :
    ∃ b, codewordStream s.builtCodes input = some b ∧ 0 < (payloadOf b).length ∧
      (payloadOf b).length ≤ 32 * input.length := by
  obtain ⟨-, hle, hiff⟩ := builtCodes_spec hfreq
  have hcover : ∀ x ∈ input, s.builtCodes.at x ≠ [] := fun x hx => (hiff x).2 (hcount x hx)
  have hlow := length_le_sum_codewords hcover
  have hhigh := sum_codewords_le hle input
  have hpos := List.length_pos_iff.2 hne
  refine ⟨_, (BitLaws.codewordStream_eq_some ..).2 ⟨hcover, rfl⟩, ?_, ?_⟩ <;>
    rw [payloadOf_length, BitLaws.stream_length] <;> omega

/-! ### PACK, SERIALIZE and UNPACK, the transfer stages -/

section
variable {s : State} {src srcLen dst dstCap : Word} (hb : s.status.busy = false)
  (hfit : RegionsFit s.cfg src srcLen dst dstCap)
include hb hfit

/-- PACK leaves the payload of the input's stream at the destination. -/
theorem stage_pack {input : List Byte} {b : Bits} (hc : s.status.codesValid = true)
    (hread : s.mem.readBytes src.toNat srcLen.toNat = some input) (hne : input ≠ [])
    (hstream : codewordStream s.code input = some b) (hcap : (payloadOf b).length ≤ dstCap.toNat) :
    ∃ t : State, (∀ k, stage (loadRegions src srcLen dst dstCap ++ lineRun .pack) k s = k t) ∧
      t.status.busy = false ∧ t.cfg = s.cfg ∧ t.freq = s.freq ∧ t.padding.toNat = paddingOf b ∧
      t.dstLen.toNat = (payloadOf b).length ∧ t.mem.readBytes dst.toNat t.dstLen.toNat = some (payloadOf b) := by
  have hrun := exec_pack_of_payload_fits (s := s.loaded src srcLen dst dstCap .pack) hc (hfit.regionsOk .pack) hread hne
    hstream hcap
  have hlen := afterPack_dstLen (s := s.loaded src srcLen dst dstCap .pack) hcap
  have hpad := afterPack_padding (s.loaded src srcLen dst dstCap .pack) b
  refine ⟨_, stage_transfer hb hrun rfl, rfl, rfl, rfl, hpad, hlen, ?_⟩
  exact (congrArg (Memory.readBytes _ dst.toNat) hlen).trans (MemoryLaws.readBytes_writeBytes s.mem dst.toNat _)

/-- SERIALIZE of a payload that leaves 4273 bytes of the destination free ends without error: a header has at most 4269
bytes (R65). -/
theorem stage_serialize {pay : List Byte} (hfreq : freqList s.freq ≠ [])
    (hread : s.mem.readBytes src.toNat srcLen.toNat = some pay) (hcap : 4273 + pay.length ≤ dstCap.toNat) :
    ∃ t : State, exec .serialize (s.loaded src srcLen dst dstCap .serialize) = .next t ∧ t.status.err = false ∧
      ∀ k, stage (loadRegions src srcLen dst dstCap ++ lineRun .serialize) k s = k t.polled := by
  have hhdr : (s.loaded src srcLen dst dstCap .serialize).header.length ≤ 4269 := headerTextLength.2.1 _ _ hfreq
  have hfits : 4 + (s.loaded src srcLen dst dstCap .serialize).header.length + pay.length ≤ dstCap.toNat := by omega
  have hrun := exec_serialize_of_container_fits (hfit.regionsOk .serialize) hfreq hread hfits
  exact ⟨_, hrun, rfl, stage_transfer hb hrun rfl⟩

/-- UNPACK of the payload of a stream, with its padding, leaves the symbols of the stream at the destination. -/
theorem stage_unpack {out : List Byte} {b : Bits} (hc : s.status.codesValid = true) (hpf : prefixFree s.code)
    (hread : s.mem.readBytes src.toNat srcLen.toNat = some (payloadOf b)) (hpad : s.padding.toNat = paddingOf b)
    (hstream : codewordStream s.code out = some b) (hcap : out.length ≤ dstCap.toNat) :
    ∃ t : State, (∀ k, stage (loadRegions src srcLen dst dstCap ++ lineRun .unpack) k s = k t) ∧
      t.dstLen.toNat = out.length ∧ t.mem.readBytes dst.toNat out.length = some out := by
  have hlen := MemoryLaws.readBytes_length _ _ _ _ hread
  have hle : s.padding.toNat ≤ 8 * srcLen.toNat := by
    rw [hpad, ← hlen]
    exact paddingOf_le_payload_bits b
  have hwalk : decodeBits s.code [] (strippedBits (payloadOf b) s.padding.toNat) = some out := by
    rw [hpad, BitLaws.strippedBits_payloadOf]
    exact (decodeBits_eq_some_iff hpf).2 hstream
  have hrun := exec_unpack_of_symbols_fit (s := s.loaded src srcLen dst dstCap .unpack) hc (hfit.regionsOk .unpack) hle
    hread hwalk hcap
  exact ⟨_, stage_transfer hb hrun rfl,
    afterUnpack_dstLen (s := s.loaded src srcLen dst dstCap .unpack) hcap, afterUnpack_readBytes _ out⟩

end

/-! ### What COMPRESS leaves (R111) -/

/-- SERIALIZE took `v` to `t` without error, and the payload it found in `v` is `input` packed with the codes that BUILD
and GENCODE make of FREQ. -/
structure Compressed (input : List Byte) (v t : State) : Prop where
  serialized : exec .serialize v = .next t
  err : t.status.err = false
  packed : ∃ b, codewordStream v.builtCodes input = some b ∧ v.source = some (payloadOf b) ∧
    v.padding.toNat = paddingOf b ∧ 0 < (payloadOf b).length

/-- Reading the input, its table loaded, BUILD and GENCODE: what is left of COMPRESS starts from codes that cover the
input, with DMEM as it was. -/
theorem compress_with_codes {s : State} {inp n : Word} {input : List Byte} (hb : s.status.busy = false)
    (hne : input ≠ []) (hread : s.mem.readBytes inp.toNat n.toNat = some input)
    (hin : inp.toNat + n.toNat ≤ s.cfg.dmemSize) (tmp tcap out ocap : Word) :
    ∃ u t : State, (∀ x ∈ input, u.freq.at x ≠ 0) ∧ freqList u.freq ≠ [] ∧ u.mem = s.mem ∧ u.cfg = s.cfg ∧
      CodesReady u t ∧
      compress inp n tmp tcap out ocap s =
        stage (loadRegions inp n tmp tcap ++ lineRun .pack)
          (readWord offDstLen fun p =>
            stage (loadRegions tmp p out ocap ++ lineRun .serialize) fun s => .done s out.toNat s.dstLen.toNat) t := by
  have hlen := MemoryLaws.readBytes_length _ _ _ _ hread
  rw [← hlen] at hread hin
  have hdmr := lineDmr_idle input inp.toNat s hb hin hread
  have hlast := lastBytes_append s input
  rw [hlen] at hdmr hlast
  obtain ⟨f, hf⟩ := Option.ne_none_iff_exists'.1 (mt (analyze_eq_none_iff input).1 hne)
  obtain ⟨u, hrun, rfl, hbusy, hmem, hcfg⟩ := loadFreq_idle f (s := s.setReplies (s.replies ++ input.map .byte)) hb
  have hcount : ∀ x ∈ input, u.freq.at x ≠ 0 := fun x hx hzero => by
    have htable := analyze_counts hf (hlen ▸ n.isLt) x
    rw [hzero] at htable
    exact (List.count_pos_iff.2 hx).ne htable
  have hfreq : freqList u.freq ≠ [] := fun h0 => by
    obtain ⟨x, hx⟩ := List.exists_mem_of_ne_nil _ hne
    exact hcount x hx ((TableLaws.freqList_eq_nil _).1 h0 x)
  obtain ⟨t, ht, hstage⟩ := stage_build_gencode hrun hbusy hfreq
  refine ⟨u, t, hcount, hfreq, hmem, hcfg, ht, ?_⟩
  simp only [compress, hdmr, hlast, hf]
  exact hstage _

/-- COMPRESS ends with the container of its input at OUT (R111). -/
theorem compress_done {s : State} {inp n tmp tcap out ocap : Word} {input : List Byte} (hb : s.status.busy = false)
    (hne : input ≠ []) (hread : s.mem.readBytes inp.toNat n.toNat = some input)
    (hpack : RegionsFit s.cfg inp n tmp tcap) (hser : RegionsFit s.cfg tmp tcap out ocap)
    (htcap : 32 * n.toNat ≤ tcap.toNat) (hocap : 4273 + 32 * n.toNat ≤ ocap.toNat) :
    ∃ v t, Compressed input v t ∧ v.cfg = s.cfg ∧ v.dstBase = out ∧ v.dstCap = ocap ∧
      compress inp n tmp tcap out ocap s = .done t.polled out.toNat t.dstLen.toNat := by
  obtain ⟨u, c, hcount, hfreq, hmem, hcfg, hc, hcompress⟩ :=
    compress_with_codes hb hne hread hpack.src_le tmp tcap out ocap
  obtain ⟨b, hstream, hpos, hle⟩ := exists_stream hcount hne hfreq
  rw [MemoryLaws.readBytes_length _ _ _ _ hread] at hle
  rw [← hmem, ← hc.mem] at hread
  rw [← hcfg, ← hc.cfg] at hpack hser
  obtain ⟨x, hx, hxbusy, hxcfg, hxfreq, hxpad, hxlen, hxread⟩ :=
    stage_pack hc.busy hpack hc.codesValid hread hne (hc.code ▸ hstream) (hle.trans htcap)
  rw [← hxcfg] at hser
  rw [← hc.freq, ← hxfreq] at hfreq
  obtain ⟨t, ht, hterr, htstage⟩ := stage_serialize (s := x.reply (.word x.dstLen)) hxbusy
    (hser.of_source_part le_rfl (by omega)) hfreq hxread (by omega)
  refine ⟨_, t, ⟨ht, hterr, b, ?_, hxread, hxpad, hpos⟩, hxcfg.trans (hc.cfg.trans hcfg), rfl, rfl, ?_⟩
  · rw [← hstream]
    exact congrArg (codewordStream · input) (builtCodes_congr (hxfreq.trans hc.freq) hfreq)
  · rw [hcompress, hx, readWord_legal _ _ _ rfl (by decide)]
    exact htstage _

/-! ### What DECOMPRESS makes of it (R112) -/

/-- What DESERIALIZE makes of the container, with BUILD and GENCODE behind it: the codes of the container's FREQ, its
padding, and the place of its payload. -/
theorem decompress_with_codes {v t : State} {input : List Byte} (h : Compressed input v t) (res rcap : Word) :
    ∃ w c : State, CodesReady w c ∧ w.cfg = t.cfg ∧ w.freq = v.freq ∧ w.padding = v.padding ∧
      t.dstLen.toNat = w.payloadOff.toNat + w.payloadLen.toNat ∧ w.payloadLen = v.srcLen ∧
      w.mem.readBytes (t.dstBase.toNat + w.payloadOff.toNat) w.payloadLen.toNat = v.source ∧
      decompress t.dstBase t.dstLen res rcap t.polled =
        readWord offPayloadOff (fun o => readWord offPayloadLen fun l =>
          stage (loadRegions (t.dstBase + o) l res rcap ++ lineRun .unpack) fun s => .done s res.toNat s.dstLen.toNat)
          c := by
  have hb : t.polled.status.busy = false := (completionStatus _ _ _ h.serialized).1
  obtain ⟨pay, -, hfreq, hpay, hcap, ht⟩ := eq_afterSerialize_of_err_eq_false h.serialized h.err
  have hlen : t.dstLen.toNat = 4 + v.header.length + v.srcLen.toNat := by
    rw [ht, afterSerialize_dstLen hcap, source_length hpay]
  have hload : runMoves (lineWr offSrcBase t.dstBase ++ lineWr offSrcLen t.dstLen) t.polled =
      .next ((t.polled.setSrcBase t.dstBase).setSrcLen t.dstLen) :=
    (runMoves_append (lineWr_idle offSrcBase t.dstBase t.polled rfl (by decide) hb) _).trans
      (lineWr_idle offSrcLen t.dstLen (t.polled.setSrcBase t.dstBase) rfl (by decide) hb)
  obtain ⟨w, hw, hwerr, hwfreq, hwpad, hwhdr, hwoff, hwlen, hwread, -⟩ :=
    deserializeRestoresWhatSerializeWrote v t
      (started ((t.polled.setSrcBase t.dstBase).setSrcLen t.dstLen) .deserialize) h.serialized h.err rfl rfl rfl rfl
  obtain ⟨hwbusy, -⟩ := completionStatus _ _ _ hw
  obtain ⟨hwcfg, -⟩ := commandsKeepOperandRegisters _ _ _ hw
  obtain ⟨c, hc, hstage⟩ := stage_build_gencode (ms := []) (u := w.polled) rfl hwbusy (hwfreq ▸ hfreq)
  refine ⟨w.polled, c, hc, hwcfg, hwfreq, hwpad, ?_, hwlen, hwread, ?_⟩
  · show _ = w.payloadOff.toNat + w.payloadLen.toNat
    rw [hwoff, hwhdr, hwlen, hlen, State.header]
  · rw [decompress, stage_run hload hb hw hwerr]
    exact hstage _

/-- DECOMPRESS of the container of `input` ends with `input` at the result buffer. -/
theorem decompress_done {v t : State} {input : List Byte} (h : Compressed input v t) (hlegal : t.cfg.legal)
    {res rcap : Word} (hfit : RegionsFit t.cfg t.dstBase t.dstLen res rcap) (hcap : input.length ≤ rcap.toNat) :
    ∃ s2, decompress t.dstBase t.dstLen res rcap t.polled = .done s2 res.toNat input.length ∧
      s2.mem.readBytes res.toNat input.length = some input := by
  obtain ⟨b, hstream, hsrc, hpad, hpos⟩ := h.packed
  obtain ⟨-, -, hfreq, -⟩ := eq_afterSerialize_of_err_eq_false h.serialized h.err
  obtain ⟨w, c, hc, hwcfg, hwfreq, hwpad, hwlen, hwpay, hwread, hdec⟩ := decompress_with_codes h res rcap
  have hpay : 0 < w.payloadLen.toNat := by rwa [hwpay, ← source_length hsrc]
  have hbase : (t.dstBase + w.payloadOff).toNat = t.dstBase.toNat + w.payloadOff.toNat := by
    have hend := hfit.src_le
    have hsize := hlegal.2
    rw [BitVec.toNat_add]
    exact Nat.mod_eq_of_lt (by omega)
  rw [hsrc, ← hbase, ← hc.mem] at hwread
  have hcode : c.code = v.builtCodes := hc.code.trans (builtCodes_congr hwfreq (hwfreq ▸ hfreq))
  have hpart : RegionsFit c.cfg (t.dstBase + w.payloadOff) w.payloadLen res rcap := by
    rw [hc.cfg, hwcfg]
    exact hfit.of_source_part (by omega) (by omega)
  obtain ⟨s2, hs2, hlen2, hread2⟩ :=
    stage_unpack (s := (c.reply (.word c.payloadOff)).reply (.word c.payloadLen)) hc.busy hpart hc.codesValid
      (hcode ▸ (builtCodes_spec hfreq).1) hwread (by rw [← hpad, ← hwpad, ← hc.padding]; rfl) (hcode ▸ hstream) hcap
  refine ⟨s2, ?_, hread2⟩
  rw [hdec, readWord_legal _ _ _ rfl (by decide), readWord_legal _ _ _ rfl (by decide), ← hlen2]
  rw [← hc.payloadOff, ← hc.payloadLen] at hs2
  exact hs2 _

/-- Settles O57: COMPRESS ends with the container of its input, which lies within the output buffer, and DECOMPRESS ends
with what the container is of. -/
theorem decompressRestoresWhatCompressCompressed : Obligations.DecompressRestoresWhatCompressCompressed := by
  intro s inp n tmp tcap out ocap res rcap input hlegal hb hne hread hin htmp hout hres hd1 _ hd3 hd4 htcap hocap hrcap
  obtain ⟨v, t, h, hvcfg, rfl, rfl, hcompress⟩ :=
    compress_done hb hne hread ⟨hin, htmp, hd1⟩ ⟨htmp, hout, hd3⟩ htcap hocap
  obtain ⟨hcfg, -, -, hbase, -⟩ := commandsKeepOperandRegisters _ _ _ h.serialized
  obtain ⟨-, hle, -⟩ := transferCommandsFrame _ _ _ (.inr (.inr rfl)) h.serialized
  have hlen := MemoryLaws.readBytes_length _ _ _ _ hread
  have hfit : RegionsFit s.cfg v.dstBase v.dstCap res rcap := ⟨hout, hres, hd4⟩
  have hpart : RegionsFit t.cfg t.dstBase t.dstLen res rcap := by
    rw [hcfg, hvcfg, hbase]
    exact hfit.of_source_part le_rfl (by omega)
  obtain ⟨s2, hs2, hread2⟩ := decompress_done h (by rw [hcfg, hvcfg]; exact hlegal) hpart (by omega)
  rw [hbase, hlen] at hs2
  rw [hlen] at hread2
  exact ⟨t.polled, _, hcompress, rfl, s2, hs2, hread2⟩

end Sys2Proof.Machine
end

section
/-! PROOFS. The reset input (70_reset_and_hazards.md R127, R128). -/

namespace Sys2Proof.Machine

/-- The pending command is the one LASTOP names. -/
theorem pendingInstr_beq_some (s : State) (i : Instr) :
    (s.pendingInstr == some i) = true ↔ s.status.lastOp = opcode i :=
  beq_iff_eq.trans (ofOpcode_eq_some _ i)

/-- A reset spoils the destination of a pending PACK, UNPACK or SERIALIZE, and of no other command (R128). -/
theorem abortSpoils_iff (s : State) : s.abortSpoils = true ↔
    s.status.busy = true ∧ (s.status.lastOp = 3#4 ∨ s.status.lastOp = 4#4 ∨ s.status.lastOp = 5#4) := by
  simp only [State.abortSpoils, Bool.and_eq_true, Bool.or_eq_true, pendingInstr_beq_some, opcode, or_assoc]

/-- DMEM after a reset: the spoiled destination holds no value, every other byte is as before (R128). -/
theorem applyReset_read (s : State) (a : Nat) : s.applyReset.mem.read a =
    if s.abortSpoils = true ∧ s.dstBase.toNat ≤ a ∧ a < s.dstBase.toNat + s.dstCap.toNat
    then none else s.mem.read a := by
  rw [State.applyReset]
  by_cases h : s.abortSpoils = true
  · simp only [h, if_true, true_and, MemoryLaws.read_erase]
  · rw [if_neg h, if_neg fun hc => h hc.1]

/-- Settles O17: the step is the reset, which rewrites all the registers and tables and spoils at most the destination
of the command it aborts. -/
theorem resetInputAbortsAndKeepsMemory : Obligations.ResetInputAbortsAndKeepsMemory := by
  intro s ms hin
  have hspoils := abortSpoils_iff (s.setInbox ms)
  refine ⟨(s.setInbox ms).applyReset, step_of_host hin, rfl, fun a => (applyReset_read _ a).trans ?_⟩
  exact if_congr ((and_congr_left' hspoils).trans and_assoc) rfl rfl

end Sys2Proof.Machine
end
